-- ==== Sys2Proof/Word.lean ====
section
/-! DEFINITION. The machine words of SCE: 32-bit registers (R21, R7), 8-bit buffer bytes (R10), and
byte sequences. Everything the spec computes as a mathematical integer (R11) is a `Nat` or an `Int`
and is not declared here. -/

namespace Sys2Proof

/-- A register's contents: 32 bits (R21). -/
abbrev Word := BitVec 32

/-- One byte of a buffer or of a byte sequence (R10). -/
abbrev Byte := BitVec 8

/-- A finite byte sequence, first byte first (R10). A string of the spec is one of these. -/
abbrev Bytes := List Byte

end Sys2Proof
end

