-- ==== Sys2Proof/Config.lean ====
section
/-! DEFINITION. What an implementation of SCE fixes (the parameters of R7) and the free values of the
model: constants without a body, so that nothing can be proved of what they are. -/

namespace Sys2Proof.Config

/-- The sizes of the two buffers and the bus address of the block's first byte (R7). A machine's
parameters stand in its state and no step changes them, so a statement about every state holds for
every choice of them. -/
structure Params where
  inBufSize : Nat
  outBufSize : Nat
  base : Nat
deriving DecidableEq, Repr

/-- The constraints R7 puts on the parameters. -/
abbrev Params.legal (p : Params) : Prop :=
  (1 ≤ p.inBufSize ∧ p.inBufSize ≤ 2 ^ 24) ∧ (1 ≤ p.outBufSize ∧ p.outBufSize ≤ 2 ^ 24) ∧
    p.base % 2 ^ 26 = 0

/-- The parameters R7 uses in its examples. DESIGN CHOICE (log entry 1, unsafe): `State.reset` has
these; the spec leaves them to the implementation. -/
def exampleParams : Params := ⟨4096, 4096, 0x40000000⟩

/-- Latency (R7, R334; log entry 2): how many host accesses fall between the n-th START and its
completion, if the host makes that many. A free value: any finite number. -/
opaque latency : Nat → Nat

/-- The byte IN_BUF holds at an offset after the n-th reset, until the host writes it (R36, U2; log
entry 3). A free value, one per byte and reset. -/
opaque inBufByte : Nat → Nat → Byte

/-- What the n-th read of an unspecified OUT_BUF byte returns (R37, U1; log entry 4). A free value,
drawn afresh for each read, since two reads of one byte may differ. -/
opaque outBufByte : Nat → Byte

end Sys2Proof.Config
end

