-- ==== Sys2Proof/Machine/State.lean ====
section
/-! DEFINITION. The state of SCE (R20) as plain data, the named outcomes of a step that is none, and
the state after reset (R47, R320). -/

namespace Sys2Proof.Machine

/-- STATE, the engine's state (R39). -/
inductive EngineState where
  | idle
  | busy
  | done
  | error
deriving DecidableEq, Repr

/-- The eleven ways a command can fail (R280). -/
inductive CmdError where
  | invalidCharacter
  | checksumMismatch
  | tooShort
  | oversizeDeclaration
  | depthExceeded
  | badTypePrefix
  | invalidName
  | truncatedInput
  | badCommand
  | badArgument
  | outputOverflow
deriving DecidableEq, Repr

/-- L, the copy of the command registers that START takes (R40). -/
structure Latch where
  cmd : Word
  arg : Word
  inLen : Word
  inOff : Word
deriving DecidableEq, Repr

/-- A buffer: the bytes that hold a value, by offset, offsets strictly rising. An offset that is not
listed holds no value (see `Memory.read`). -/
abbrev Memory := List Host.Cell

/-- What the outside world can do to SCE between two engine steps: a bus access, a poll, or the reset
input (R2, R320). Addresses are bus addresses, widths are in bytes. -/
inductive HostEvent where
  /-- A read access of `width` bytes. -/
  | read (addr width : Nat)
  /-- A write access of `width` bytes; a byte write uses bits 7:0 of the data. -/
  | write (addr width : Nat) (data : Word)
  /-- The WAIT statement (R88): 32-bit reads of STATUS until one shows STATE other than BUSY. -/
  | wait
  /-- The platform asserts reset (R320). -/
  | reset
deriving DecidableEq, Repr

/-- What the bus returns for one access. -/
inductive BusResponse where
  /-- A read that returns data; a byte read's byte is in bits 7:0. -/
  | data (v : Word)
  /-- A write that is no bus error, whether it took effect or was ignored (R287). -/
  | accepted
  /-- The error response of R50 to R52. -/
  | busError
deriving DecidableEq, Repr

/-- The state of SCE. The model's own fields are the last six; the others are the spec's (R20). -/
structure State where
  /-- CTRL.IE (R22). -/
  ie : Bool
  /-- CMD (R23). -/
  cmd : Word
  /-- ARG (R24). -/
  arg : Word
  /-- IN_LEN (R25). -/
  inLen : Word
  /-- IN_OFF (R26). -/
  inOff : Word
  /-- STATUS.STATE (R27, R39). -/
  engine : EngineState
  /-- STATUS.ERRCODE (R27, R280): `none` is code 0. -/
  err : Option CmdError
  /-- OUT_LEN (R28). -/
  outLen : Word
  /-- CURSOR (R29). -/
  cursor : Word
  /-- NODE_COUNT (R30). -/
  nodeCount : Word
  /-- VERSION_OUT, bits 7:0; bits 31:8 read 0 (R31). -/
  versionOut : Byte
  /-- L (R40). -/
  latched : Latch
  /-- IN_BUF (R36): the bytes written since reset. -/
  inBuf : Memory
  /-- OUT_BUF (R37): the bytes whose value is specified. -/
  outBuf : Memory
  /-- The implementation's parameters (R7); INSZ and OUTSZ read the sizes (R32, R33). -/
  params : Config.Params
  /-- MODEL: the host's events that have not arrived yet, next first. -/
  pending : List HostEvent
  /-- MODEL: the bus responses the host has received, newest first. -/
  responses : List BusResponse
  /-- MODEL: how many host accesses may still come before the running command completes (R43). -/
  waitLeft : Nat
  /-- MODEL: how many STARTs have happened; it indexes the free value `Config.latency`. -/
  startCount : Nat
  /-- MODEL: how many resets have happened; it indexes the free value `Config.inBufByte`. -/
  resetCount : Nat
  /-- MODEL: how many unspecified OUT_BUF bytes have been read; it indexes `Config.outBufByte`. -/
  freeCount : Nat
deriving DecidableEq, Repr

/-- Reasons the machine stops. -/
inductive Fault where
  /-- Raised by a host access whose bus address lies outside the 2^26 bytes SCE occupies (R50): the
  spec says no such address of SCE exists. Safe: the model stops, and a real bus would route the
  access elsewhere. An unmapped address inside the window is no fault: it gets a bus error. -/
  | outsideWindow (addr : Nat)
deriving DecidableEq, Repr

/-- Reasons the model declines a command. -/
inductive Refusal where
  /-- Raised by `exec` for a command without a meaning; no arm of `exec` answers it. Safe. -/
  | notModelled (mnemonic : String)
deriving DecidableEq, Repr

/-- The state after reset (R47, R320). L is unspecified after reset: zero is a DESIGN CHOICE (log
entry 5); the parameters are R7's examples, a DESIGN CHOICE (log entry 1). The model's own counters
and queues start empty, a DESIGN CHOICE (log entry 6). -/
def State.reset : State where
  ie := false
  cmd := 0
  arg := 0
  inLen := 0
  inOff := 0
  engine := .idle
  err := none
  outLen := 0
  cursor := 0
  nodeCount := 0
  versionOut := 0
  latched := ⟨0, 0, 0, 0⟩
  inBuf := []
  outBuf := []
  params := Config.exampleParams
  pending := []
  responses := []
  waitLeft := 0
  startCount := 0
  resetCount := 0
  freeCount := 0

end Sys2Proof.Machine
end

