-- ==== Sys2Proof/Machine/Flags.lean ====
section
/-! DEFINITION. SCE has no condition codes (R46). What a host can test is STATUS and the interrupt
line; this file computes them, and the readable view of CTRL, from the state. -/

namespace Sys2Proof.Machine

/-- STATUS.STATE's encoding (R27). -/
def EngineState.code : EngineState → Word
  | .idle => 0
  | .busy => 1
  | .done => 2
  | .error => 3

/-- The error codes of R280. -/
def CmdError.code : CmdError → Word
  | .invalidCharacter => 1
  | .checksumMismatch => 2
  | .tooShort => 3
  | .oversizeDeclaration => 4
  | .depthExceeded => 5
  | .badTypePrefix => 6
  | .invalidName => 7
  | .truncatedInput => 8
  | .badCommand => 9
  | .badArgument => 10
  | .outputOverflow => 11

/-- STATUS.ERRCODE: 0 when no command has ended in ERROR since START or reset (R280). -/
def State.errCode (s : State) : Word :=
  match s.err with
  | none => 0
  | some e => e.code

/-- What a read of STATUS returns: STATE in bits 1:0, ERRCODE in bits 15:8, the rest 0 (R27). -/
def State.statusWord (s : State) : Word := s.engine.code ||| (s.errCode <<< 8)

/-- What a read of CTRL returns: IE in bit 2, the rest 0 (R22). -/
def State.ctrlWord (s : State) : Word := if s.ie then 4 else 0

/-- The interrupt line (R45, R288). It is a level computed from the state, so SCE stores no pending
bit. -/
def State.irq (s : State) : Bool := s.ie && (s.engine == .done || s.engine == .error)

end Sys2Proof.Machine
end

