-- ==== Sys2Proof/Machine/Ops.lean ====
section
/-! DEFINITION. The named operations over the buffers and the registers: the buffer reads and writes
(R36, R37, R53, R54), START (R41), ACK (R42), reset (R320) and the five ways a completion step
commits (R115). `commitError` is SCE's taking of an exception (R282, R290) and `ack` the return from
one (R291). -/

namespace Sys2Proof.Machine

/-- The byte at an offset; `none` where nothing stands. -/
def Memory.read : Memory → Nat → Option Byte
  | [], _ => none
  | (k, v) :: rest, a => if k = a then some v else Memory.read rest a

/-- Put a byte at an offset, keeping the offsets rising. -/
def Memory.write : Memory → Nat → Byte → Memory
  | [], a, b => [(a, b)]
  | (k, v) :: rest, a, b =>
    if a < k then (a, b) :: (k, v) :: rest
    else if a = k then (a, b) :: rest
    else (k, v) :: Memory.write rest a b

/-- The cells that hold a byte sequence from an offset on. -/
def Memory.cells : Nat → Bytes → Memory
  | _, [] => []
  | a, b :: rest => (a, b) :: Memory.cells (a + 1) rest

/-- The canonical form: offsets strictly rising. An unlisted offset reads as no value, so no entry
can equal what it reads as. -/
def Memory.wf : Memory → Bool
  | [] => true
  | (k, _) :: rest => rest.all (fun c => k < c.1) && Memory.wf rest

/-- IN_BUF[a]: the byte the host wrote, or, if it has written none since reset, an arbitrary value
drawn once per byte at reset (R36, U2; log entry 3). -/
def State.inByte (s : State) (a : Nat) : Byte :=
  match Memory.read s.inBuf a with
  | some b => b
  | none => Config.inBufByte s.resetCount a

/-- OUT_BUF[a] where its value is specified: outside BUSY and below OUT_LEN (R37, R54). -/
def State.outByte (s : State) (a : Nat) : Option Byte :=
  if s.engine = .busy ∨ s.outLen.toNat ≤ a then none else Memory.read s.outBuf a

/-- OUT_BUF[0..OUT_LEN), if every byte of it is specified (R37). -/
def State.output (s : State) : Option Bytes :=
  (List.range s.outLen.toNat).mapM (fun a => s.outByte a)

/-- The START transition (R41). Starting makes OUT_BUF unspecified (R333); the number of accesses
that may come before completion is the free value of log entry 2. -/
def State.start (s : State) : State :=
  { s with
    latched := ⟨s.cmd, s.arg, s.inLen, s.inOff⟩
    err := none
    outLen := 0
    cursor := 0
    nodeCount := 0
    versionOut := 0
    engine := .busy
    outBuf := []
    waitLeft := Config.latency s.startCount
    startCount := s.startCount + 1 }

/-- The ACK transition (R42): the return from an error (R291). -/
def State.ack (s : State) : State := { s with engine := .idle }

/-- The reset input (R320, R321): a running command is abandoned, and IN_BUF is drawn afresh. The
parameters are constants of the hardware; what the host has seen and will do is not SCE's state. -/
def State.applyReset (s : State) : State :=
  { State.reset with
    params := s.params
    pending := s.pending
    responses := s.responses
    startCount := s.startCount
    resetCount := s.resetCount + 1
    freeCount := s.freeCount }

/-- Commit of a string or byte-sequence result (R115). -/
def State.commitBytes (s : State) (out : Bytes) : State :=
  { s with
    outBuf := Memory.cells 0 out
    outLen := BitVec.ofNat 32 out.length
    engine := .done }

/-- Commit of C32CHK_DEC's and C32ADDR_DEC's result: the payload and VERSION_OUT (R115). -/
def State.commitVersioned (s : State) (out : Bytes) (version : Nat) : State :=
  { s with
    outBuf := Memory.cells 0 out
    outLen := BitVec.ofNat 32 out.length
    versionOut := BitVec.ofNat 8 version
    engine := .done }

/-- Commit of VAL_DEC's result: the records one after the other, OUT_LEN, NODE_COUNT and CURSOR
(R115). -/
def State.commitRecords (s : State) (records : List Bytes) (q : Nat) : State :=
  { s with
    outBuf := Memory.cells 0 records.flatten
    outLen := BitVec.ofNat 32 (32 * records.length)
    nodeCount := BitVec.ofNat 32 records.length
    cursor := BitVec.ofNat 32 q
    engine := .done }

/-- Commit of a name check that passed: nothing but STATE (R115). -/
def State.commitCheck (s : State) : State := { s with engine := .done }

/-- Taking an error, SCE's trap entry (R282, R290): ERRCODE and STATE are written, the result
registers keep the 0 of START, and every OUT_BUF byte becomes unspecified (R115). -/
def State.commitError (s : State) (e : CmdError) : State :=
  { s with err := some e, engine := .error, outBuf := [] }

end Sys2Proof.Machine
end

