-- ==== Sys2Proof/Machine/Bus.lean ====
section
/-! DEFINITION. The host's side of SCE: the address map (R50), the registers by offset (R21), reads and
writes of them (R22 to R34), buffer accesses (R52 to R54), and one host event (R44, R61, R62, R320). -/

namespace Sys2Proof.Machine

/-- The registers of R21. -/
inductive Reg where
  | ctrl
  | cmd
  | arg
  | inLen
  | inOff
  | status
  | outLen
  | cursor
  | nodeCount
  | versionOut
  | insz
  | outsz
  | reserved
deriving DecidableEq, Repr

/-- The register at a word offset of the register file; 0x030 to 0x0FC are reserved (R21, R34). -/
def regAt (off : Nat) : Reg :=
  match off / 4 with
  | 0 => .ctrl
  | 1 => .cmd
  | 2 => .arg
  | 3 => .inLen
  | 4 => .inOff
  | 5 => .status
  | 6 => .outLen
  | 7 => .cursor
  | 8 => .nodeCount
  | 9 => .versionOut
  | 10 => .insz
  | 11 => .outsz
  | _ => .reserved

/-- What an offset of the window selects (R50). -/
inductive Region where
  | register (off : Nat)
  | inBuf (a : Nat)
  | outBuf (a : Nat)
  | unmapped
deriving DecidableEq, Repr

/-- The size of the window (R50). -/
def windowSize : Nat := 2 ^ 26

/-- The address map (R50). -/
def regionAt (p : Config.Params) (off : Nat) : Region :=
  if off < 0x100 then .register off
  else if 0x1000000 ≤ off ∧ off < 0x1000000 + p.inBufSize then .inBuf (off - 0x1000000)
  else if 0x2000000 ≤ off ∧ off < 0x2000000 + p.outBufSize then .outBuf (off - 0x2000000)
  else .unmapped

/-- The value a register read returns (R22 to R34). -/
def State.readReg (s : State) : Reg → Word
  | .ctrl => s.ctrlWord
  | .cmd => s.cmd
  | .arg => s.arg
  | .inLen => s.inLen
  | .inOff => s.inOff
  | .status => s.statusWord
  | .outLen => s.outLen
  | .cursor => s.cursor
  | .nodeCount => s.nodeCount
  | .versionOut => s.versionOut.zeroExtend 32
  | .insz => BitVec.ofNat 32 s.params.inBufSize
  | .outsz => BitVec.ofNat 32 s.params.outBufSize
  | .reserved => 0

/-- A write to CTRL (R22): IE takes the written bit in every STATE; START acts outside BUSY; ACK acts
in DONE and ERROR, and only if START is 0 in the same write. -/
def State.writeCtrl (s : State) (v : Word) : State :=
  let s1 := { s with ie := v.getLsbD 2 }
  if v.getLsbD 0 then (if s.engine = .busy then s1 else s1.start)
  else if v.getLsbD 1 && (s.engine == .done || s.engine == .error) then s1.ack
  else s1

/-- A register write: the operand registers are ignored while BUSY (R44), read-only and reserved
registers always (R21, R34). -/
def State.writeReg (s : State) (r : Reg) (v : Word) : State :=
  match r with
  | .ctrl => s.writeCtrl v
  | .cmd => if s.engine = .busy then s else { s with cmd := v }
  | .arg => if s.engine = .busy then s else { s with arg := v }
  | .inLen => if s.engine = .busy then s else { s with inLen := v }
  | .inOff => if s.engine = .busy then s else { s with inOff := v }
  | .status => s
  | .outLen => s
  | .cursor => s
  | .nodeCount => s
  | .versionOut => s
  | .insz => s
  | .outsz => s
  | .reserved => s

/-- A byte write to IN_BUF: ignored while BUSY (R53). -/
def State.writeInByte (s : State) (a : Nat) (b : Byte) : State :=
  if s.engine = .busy then s else { s with inBuf := Memory.write s.inBuf a b }

/-- Record what the bus returned. -/
def State.respond (s : State) (r : BusResponse) : State := { s with responses := r :: s.responses }

/-- A byte read of OUT_BUF: its value if that is specified, else a fresh arbitrary value (R37, R54,
U1; log entry 4). -/
def State.readOutByte (s : State) (a : Nat) : State :=
  match s.outByte a with
  | some b => s.respond (.data (b.zeroExtend 32))
  | none =>
    { s with freeCount := s.freeCount + 1 }.respond
      (.data ((Config.outBufByte s.freeCount).zeroExtend 32))

/-- Access widths and alignment (R51, R52): a register access is four bytes at a multiple of four, a
buffer access one byte; nothing else is mapped (R50). -/
def accessible (g : Region) (width : Nat) : Bool :=
  match g with
  | .register off => width == 4 && off % 4 == 0
  | .inBuf _ => width == 1
  | .outBuf _ => width == 1
  | .unmapped => false

/-- A host read at an offset of the window. No read changes SCE's state (R61). -/
def State.hostRead (s : State) (off width : Nat) : State :=
  if accessible (regionAt s.params off) width then
    match regionAt s.params off with
    | .register o => s.respond (.data (s.readReg (regAt o)))
    | .inBuf a => s.respond (.data ((s.inByte a).zeroExtend 32))
    | .outBuf a => s.readOutByte a
    | .unmapped => s.respond .busError
  else s.respond .busError

/-- A host write at an offset of the window. OUT_BUF ignores writes (R54). -/
def State.hostWrite (s : State) (off width : Nat) (v : Word) : State :=
  if accessible (regionAt s.params off) width then
    match regionAt s.params off with
    | .register o => (s.writeReg (regAt o) v).respond .accepted
    | .inBuf a => (s.writeInByte a (v.extractLsb' 0 8)).respond .accepted
    | .outBuf _ => s.respond .accepted
    | .unmapped => s.respond .busError
  else s.respond .busError

/-- One host access passes: while a command runs, one fewer may still come before it completes
(R43). -/
def State.tick (s : State) : State :=
  if s.engine = .busy then { s with waitLeft := s.waitLeft - 1 } else s

/-- Whether a bus address lies in the window (R50). -/
def State.inWindow (s : State) (addr : Nat) : Bool :=
  decide (s.params.base ≤ addr) && decide (addr < s.params.base + windowSize)

/-- One host event, the oldest that has not arrived (R62). With none pending the engine does nothing
(R306). A poll that sees BUSY polls again (R88). -/
def State.hostStep (s : State) : Host.Outcome State Fault Refusal :=
  match s.pending with
  | [] => .next s
  | .reset :: rest => .next { s with pending := rest }.applyReset
  | .wait :: rest =>
    .next ((if s.engine = .busy then s else { s with pending := rest }).tick.respond
      (.data s.statusWord))
  | .read addr width :: rest =>
    if s.inWindow addr then
      .next ({ s with pending := rest }.tick.hostRead (addr - s.params.base) width)
    else .fault (.outsideWindow addr)
  | .write addr width v :: rest =>
    if s.inWindow addr then
      .next ({ s with pending := rest }.tick.hostWrite (addr - s.params.base) width v)
    else .fault (.outsideWindow addr)

/-- Whether the next step is the engine's completion step: a command runs, and either no further host
access may come before it completes or the host makes none (R43, R334; log entry 2). -/
def State.completionDue (s : State) : Bool :=
  s.engine == .busy && (s.pending.isEmpty || s.waitLeft == 0)

end Sys2Proof.Machine
end

