-- ==== Sys2Proof/Machine/Primitives.lean ====
section
/-! DEFINITION. The integer and byte-sequence helpers every command family uses (R11, R100 to R103),
the constants of R6, and the decoder's cursor primitive (R111). -/

namespace Sys2Proof.Machine

/-- MAX_DEPTH (R6). -/
def maxDepth : Nat := 16

/-- MAX_DECL, 1 MiB (R6). -/
def maxDecl : Nat := 1048576

/-- NAME_MAX (R6). -/
def nameMax : Nat := 128

/-- CHECKSUM_LEN (R6). -/
def checksumLen : Nat := 4

/-- PRINCIPAL_HASH_LEN (R6). -/
def principalHashLen : Nat := 20

/-- `be(s)`: the big-endian value of a byte sequence, unbounded (R100). -/
def be (s : Bytes) : Nat := s.foldl (fun n b => 256 * n + b.toNat) 0

/-- The value of a digit list in a base, most significant digit first (the sums of R102, R133, R163). -/
def ofDigits (base : Nat) (d : List Nat) : Nat := d.foldl (fun n x => base * n + x) 0

/-- Base-`base` digits of `n` in front of `acc`, for at most `fuel` digits. -/
def digitsAux (base : Nat) : Nat → Nat → List Nat → List Nat
  | 0, _, acc => acc
  | fuel + 1, n, acc => if n = 0 then acc else digitsAux base fuel (n / base) (n % base :: acc)

/-- `digits_B(n)`: the base-B digits of n, most significant first, none for 0 (R102). A number has at
most as many digits in a base of 2 or more as it has bits. -/
def digits (base n : Nat) : List Nat := digitsAux base (n.log2 + 1) n []

/-- `bytes_min(n)`: the shortest big-endian byte sequence whose value is n (R101). -/
def bytesMin (n : Nat) : Bytes := (digits 256 n).map (BitVec.ofNat 8)

/-- `lead(s, x)`: how many leading elements of s equal x (R103). -/
def lead {α : Type} [DecidableEq α] (s : List α) (x : α) : Nat :=
  (s.takeWhile (fun y => y = x)).length

/-- A value as a big-endian field of a fixed number of bytes (R58). -/
def beField : Nat → Nat → Bytes
  | 0, _ => []
  | width + 1, v => BitVec.ofNat 8 (v / 256 ^ width) :: beField width v

/-- `s64(x)`: an unsigned 64-bit number read as two's complement (R11). -/
def s64 (x : Nat) : Int := if x < 2 ^ 63 then (x : Int) else (x : Int) - 2 ^ 64

/-- The bytes of s at offsets from `off` up to, not including, `off + n` (R10). -/
def slice (s : Bytes) (off n : Nat) : Bytes := (s.drop off).take n

/-- Each byte's digit in a lookup ROM, or none if one of them is INVALID (R107, R109). -/
def lookupAll (rom : Byte → Option Nat) : Bytes → Option (List Nat)
  | [] => some []
  | b :: rest =>
    match rom b, lookupAll rom rest with
    | some v, some vs => some (v :: vs)
    | _, _ => none

/-- `Take(p, n)` against the end bound END, the input's length (R111): the bytes and the advanced
cursor, or TruncatedInput. -/
def takeBytes (inp : Bytes) (p n : Nat) : Except CmdError (Bytes × Nat) :=
  if inp.length < p + n then .error .truncatedInput else .ok (slice inp p n, p + n)

end Sys2Proof.Machine
end

