-- ==== Sys2Proof/Machine/Alphabets.lean ====
section
/-! DEFINITION. The two alphabets (R106, R108) and the two lookup ROMs (R107, R109, R38). The ROMs are
constants of the hardware: no operation writes them. -/

namespace Sys2Proof.Machine

/-- B58_ALPHA: the symbol of each digit value, in value order (R106). -/
def b58Alphabet : Bytes :=
  [ 0x31, 0x32, 0x33, 0x34, 0x35, 0x36, 0x37, 0x38, 0x39, 0x41, 0x42, 0x43, 0x44, 0x45, 0x46, 0x47,
    0x48, 0x4A, 0x4B, 0x4C, 0x4D, 0x4E, 0x50, 0x51, 0x52, 0x53, 0x54, 0x55, 0x56, 0x57, 0x58, 0x59,
    0x5A, 0x61, 0x62, 0x63, 0x64, 0x65, 0x66, 0x67, 0x68, 0x69, 0x6A, 0x6B, 0x6D, 0x6E, 0x6F, 0x70,
    0x71, 0x72, 0x73, 0x74, 0x75, 0x76, 0x77, 0x78, 0x79, 0x7A ]

/-- The symbol of a Base58 digit. -/
def b58Symbol (v : Nat) : Byte := b58Alphabet.getD v 0

/-- B58_MAP: the value of a symbol, none for the 198 INVALID bytes (R107). -/
def b58Rom (x : Byte) : Option Nat := b58Alphabet.findIdx? (fun y => y == x)

/-- C32_ALPHA: the symbol of each digit value, in value order (R108). -/
def c32Alphabet : Bytes :=
  [ 0x30, 0x31, 0x32, 0x33, 0x34, 0x35, 0x36, 0x37, 0x38, 0x39, 0x41, 0x42, 0x43, 0x44, 0x45, 0x46,
    0x47, 0x48, 0x4A, 0x4B, 0x4D, 0x4E, 0x50, 0x51, 0x52, 0x53, 0x54, 0x56, 0x57, 0x58, 0x59, 0x5A ]

/-- The symbol of a C32 digit. -/
def c32Symbol (v : Nat) : Byte := c32Alphabet.getD v 0

/-- The bytes that C32_MAP maps to each value, in value order (R109's table). -/
def c32Rows : List Bytes :=
  [ [0x30, 0x4F, 0x6F], [0x31, 0x49, 0x69, 0x4C, 0x6C], [0x32], [0x33], [0x34], [0x35], [0x36],
    [0x37], [0x38], [0x39], [0x41, 0x61], [0x42, 0x62], [0x43, 0x63], [0x44, 0x64], [0x45, 0x65],
    [0x46, 0x66], [0x47, 0x67], [0x48, 0x68], [0x4A, 0x6A], [0x4B, 0x6B], [0x4D, 0x6D],
    [0x4E, 0x6E], [0x50, 0x70], [0x51, 0x71], [0x52, 0x72], [0x53, 0x73], [0x54, 0x74],
    [0x56, 0x76], [0x57, 0x77], [0x58, 0x78], [0x59, 0x79], [0x5A, 0x7A] ]

/-- C32_MAP: the value of a byte, none for the 196 INVALID bytes (R109). -/
def c32Rom (x : Byte) : Option Nat := c32Rows.findIdx? (fun row => row.contains x)

end Sys2Proof.Machine
end

