-- ==== Sys2Proof/Syntax.lean ====
section
/-! DEFINITION. The commands of SCE, one constructor per row of the opcode map (R84), and a command
together with the operands a host writes for it (R83, R87). -/

namespace Sys2Proof

/-- The fourteen commands of R84. CAP is a field of VAL_DEC alone: every other command requires
CAP = 0 (R83), so no other constructor can hold it. The remaining operands are registers (R82). -/
inductive Instr where
  | b58Enc
  | b58Dec
  | b58chkEnc
  | b58chkDec
  | c32Enc
  | c32Dec
  | c32chkEnc
  | c32chkEncP
  | c32chkDec
  | c32addrEnc
  | c32addrDec
  | valDec (cap : Bool)
  | cnCheck
  | ctnCheck
deriving DecidableEq, Repr

/-- A command as R87 writes it: the mnemonic with its named operands, and the input length of R89.
An omitted operand is 0. -/
structure Command where
  instr : Instr
  len : Word
  version : Byte := 0
  prefixByte : Byte := 0
  off : Word := 0
deriving DecidableEq, Repr

end Sys2Proof
end

