-- ==== Sys2Proof/WellFormed.lean ====
section
/-! DEFINITION. Well-formedness, written from the rules that say what is illegal and independently
of the decoder: the legal command words of R85 and the operand conditions of R114. -/

namespace Sys2Proof

/-- OPC, bits 7:0 of a command word (R80). -/
def opcOf (w : Word) : BitVec 8 := w.extractLsb' 0 8

/-- CAP, bit 8 of a command word (R80). -/
def capOf (w : Word) : Bool := w.getLsbD 8

/-- RSVD, bits 31:9 of a command word (R80). -/
def rsvdOf (w : Word) : BitVec 23 := w.extractLsb' 9 23

/-- The opcodes R85 lists as not reserved: 0x01 to 0x04, 0x10 to 0x16, 0x20 to 0x22. -/
def listedOpcode (o : BitVec 8) : Bool :=
  (0x01 ≤ o.toNat && o.toNat ≤ 0x04) || (0x10 ≤ o.toNat && o.toNat ≤ 0x16) ||
    (0x20 ≤ o.toNat && o.toNat ≤ 0x22)

/-- A command word that none of R85's three cases makes illegal. -/
def legalWord (w : Word) : Bool :=
  listedOpcode (opcOf w) && rsvdOf w == 0 && (!capOf w || opcOf w == 0x20)

/-- The commands whose VERSION operand must be below 32 (R114: opcodes 0x12, 0x13, 0x15). -/
def Instr.usesVersion : Instr → Bool
  | .b58Enc => false
  | .b58Dec => false
  | .b58chkEnc => false
  | .b58chkDec => false
  | .c32Enc => false
  | .c32Dec => false
  | .c32chkEnc => true
  | .c32chkEncP => true
  | .c32chkDec => false
  | .c32addrEnc => true
  | .c32addrDec => false
  | .valDec _ => false
  | .cnCheck => false
  | .ctnCheck => false

/-- The commands whose IN_OFF operand must not pass IN_LEN (R114: VAL_DEC only). -/
def Instr.usesOffset : Instr → Bool
  | .b58Enc => false
  | .b58Dec => false
  | .b58chkEnc => false
  | .b58chkDec => false
  | .c32Enc => false
  | .c32Dec => false
  | .c32chkEnc => false
  | .c32chkEncP => false
  | .c32chkDec => false
  | .c32addrEnc => false
  | .c32addrDec => false
  | .valDec _ => true
  | .cnCheck => false
  | .ctnCheck => false

/-- A command whose operands pass every argument check of R114 on an input buffer of the given size. -/
def Command.wellFormed (inBufSize : Nat) (c : Command) : Bool :=
  decide (c.len.toNat ≤ inBufSize) &&
    (!c.instr.usesOffset || decide (c.off.toNat ≤ c.len.toNat)) &&
    (!c.instr.usesVersion || decide (c.version.toNat < 32))

end Sys2Proof
end

