-- ==== Sys2Proof/Decode.lean ====
section
/-! DEFINITION. The opcode map of R84 as match and mask rows, the decoder that reads a command word
with it, the encoder that writes one, and `decodeTableWord`. -/

namespace Sys2Proof

/-- One row of R84: a word selects the row when `word &&& mask = matchBits`. `build` makes the
command from the word's CAP bit, which only VAL_DEC's mask leaves free. -/
structure OpcodeRow where
  matchBits : Word
  mask : Word
  build : Bool → Instr

/-- R84's condition for a word to select a row. -/
def OpcodeRow.selects (r : OpcodeRow) (w : Word) : Bool := w &&& r.mask == r.matchBits

/-- The fourteen rows of R84, in the table's order. -/
def opcodeTable : List OpcodeRow :=
  [ ⟨0x00000001, 0xFFFFFFFF, fun _ => .b58Enc⟩,
    ⟨0x00000002, 0xFFFFFFFF, fun _ => .b58Dec⟩,
    ⟨0x00000003, 0xFFFFFFFF, fun _ => .b58chkEnc⟩,
    ⟨0x00000004, 0xFFFFFFFF, fun _ => .b58chkDec⟩,
    ⟨0x00000010, 0xFFFFFFFF, fun _ => .c32Enc⟩,
    ⟨0x00000011, 0xFFFFFFFF, fun _ => .c32Dec⟩,
    ⟨0x00000012, 0xFFFFFFFF, fun _ => .c32chkEnc⟩,
    ⟨0x00000013, 0xFFFFFFFF, fun _ => .c32chkEncP⟩,
    ⟨0x00000014, 0xFFFFFFFF, fun _ => .c32chkDec⟩,
    ⟨0x00000015, 0xFFFFFFFF, fun _ => .c32addrEnc⟩,
    ⟨0x00000016, 0xFFFFFFFF, fun _ => .c32addrDec⟩,
    ⟨0x00000020, 0xFFFFFEFF, fun cap => .valDec cap⟩,
    ⟨0x00000021, 0xFFFFFFFF, fun _ => .cnCheck⟩,
    ⟨0x00000022, 0xFFFFFFFF, fun _ => .ctnCheck⟩ ]

/-- Why a word is no command: R85's three cases, by name. -/
inductive DecodeRefusal where
  /-- OPC is none of the fourteen opcodes (R85, first case). -/
  | reservedOpcode (opc : BitVec 8)
  /-- RSVD is not zero (R85, second case). -/
  | reservedBits (rsvd : BitVec 23)
  /-- CAP is set on an opcode other than VAL_DEC's (R85, third case). -/
  | captureBit (opc : BitVec 8)
deriving DecidableEq, Repr

/-- The name of the first of R85's cases that holds of a word no row selects. The three cases have
one effect (BadCommand), so the order among them cannot be seen. -/
def refusalOf (w : Word) : DecodeRefusal :=
  if w.extractLsb' 9 23 ≠ 0 then .reservedBits (w.extractLsb' 9 23)
  else if opcodeTable.any (fun r => r.matchBits.extractLsb' 0 8 == w.extractLsb' 0 8) then
    .captureBit (w.extractLsb' 0 8)
  else .reservedOpcode (w.extractLsb' 0 8)

/-- Decoding of R84 and R85: total on every 32-bit word (R86). -/
def decode (w : Word) : Except DecodeRefusal Instr :=
  match opcodeTable.find? (fun r => r.selects w) with
  | some r => .ok (r.build (w.getLsbD 8))
  | none => .error (refusalOf w)

/-- OPC of each command (R84). -/
def opcode : Instr → BitVec 8
  | .b58Enc => 0x01
  | .b58Dec => 0x02
  | .b58chkEnc => 0x03
  | .b58chkDec => 0x04
  | .c32Enc => 0x10
  | .c32Dec => 0x11
  | .c32chkEnc => 0x12
  | .c32chkEncP => 0x13
  | .c32chkDec => 0x14
  | .c32addrEnc => 0x15
  | .c32addrDec => 0x16
  | .valDec _ => 0x20
  | .cnCheck => 0x21
  | .ctnCheck => 0x22

/-- CAP of each command (R83): only VAL_DEC may set it. -/
def captureBit : Instr → Bool
  | .b58Enc => false
  | .b58Dec => false
  | .b58chkEnc => false
  | .b58chkDec => false
  | .c32Enc => false
  | .c32Dec => false
  | .c32chkEnc => false
  | .c32chkEncP => false
  | .c32chkDec => false
  | .c32addrEnc => false
  | .c32addrDec => false
  | .valDec cap => cap
  | .cnCheck => false
  | .ctnCheck => false

/-- The CMD32 word of a command: OPC in bits 7:0, CAP in bit 8, RSVD zero (R80). -/
def encode (i : Instr) : Word :=
  (opcode i).zeroExtend 32 ||| (if captureBit i then 0x100 else 0)

/-- The ARG32 word of a command: VERSION in bits 7:0, PREFIX in bits 15:8 (R81). -/
def encodeArg (version prefixByte : Byte) : Word :=
  version.zeroExtend 32 ||| (prefixByte.zeroExtend 32 <<< 8)

/-- The command the decoder reads from a table row's bits. A command is exactly one CMD32 word
(R80), so a value that needs more than 32 bits is none; bits above `nbits` are zero. -/
def decodeTableWord (nbits w : Nat) : Option Instr :=
  if w % 2 ^ nbits < 2 ^ 32 then
    match decode (BitVec.ofNat 32 (w % 2 ^ nbits)) with
    | .ok i => some i
    | .error _ => none
  else none

end Sys2Proof
end

