-- ==== Sys2Proof/Machine/Operands.lean ====
section
/-! DEFINITION. The operands a command reads from the latched copy L and from IN_BUF (R81, R82, R83),
and the argument checks that come before any input byte is read (R114). -/

namespace Sys2Proof.Machine

/-- VERSION = L.ARG[7:0] (R81). -/
def State.version (s : State) : Byte := s.latched.arg.extractLsb' 0 8

/-- PREFIX = L.ARG[15:8] (R81). -/
def State.prefixByte (s : State) : Byte := s.latched.arg.extractLsb' 8 8

/-- IN = IN_BUF[0..L.IN_LEN) (R82). -/
def State.input (s : State) : Bytes := (List.range s.latched.inLen.toNat).map s.inByte

/-- The start cursor of VAL_DEC, L.IN_OFF (R82). -/
def State.startCursor (s : State) : Nat := s.latched.inOff.toNat

/-- The opcodes whose VERSION must be below 32: 0x12, 0x13 and 0x15 (R114). -/
def needsVersion (i : Instr) : Bool :=
  opcode i == 0x12 || opcode i == 0x13 || opcode i == 0x15

/-- `Check(L)` after the command word's own check (R114): the first check that fails decides, and
each failure is BadArgument. BadCommand is decided before, by the decoder. -/
def State.checkArgs (s : State) (i : Instr) : Except CmdError Unit :=
  if s.params.inBufSize < s.latched.inLen.toNat then .error .badArgument
  else if opcode i == 0x20 && decide (s.latched.inLen.toNat < s.latched.inOff.toNat) then
    .error .badArgument
  else if needsVersion i && decide (32 ≤ s.version.toNat) then .error .badArgument
  else .ok ()

end Sys2Proof.Machine
end

