-- ==== Sys2Proof/Machine/Framework.lean ====
section
/-! DEFINITION. The command framework every meaning is written over: the result a command function
returns, its size (R112), Execute (R113) and Commit (R115). -/

namespace Sys2Proof.Machine

/-- What a command's function returns when it succeeds (R13, R115). -/
inductive CmdResult where
  /-- A string or a byte sequence. -/
  | bytes (out : Bytes)
  /-- A payload with its decoded version (C32CHK_DEC, C32ADDR_DEC). -/
  | versioned (out : Bytes) (version : Nat)
  /-- VAL_DEC's 32-byte records and the cursor after the value. -/
  | records (rs : List Bytes) (cursor : Nat)
  /-- A name check that passed. -/
  | check
deriving DecidableEq, Repr

/-- `ResultSize(r)`: the OUT_BUF bytes a result needs (R112). -/
def resultSize : CmdResult → Nat
  | .bytes out => out.length
  | .versioned out _ => out.length
  | .records rs _ => 32 * rs.length
  | .check => 0

/-- `Execute(L, IN_BUF)` for a command word that is legal (R113): the argument checks, the command's
function, then the output-size check, which therefore never masks an error of the function. -/
def State.execute (s : State) (i : Instr) (f : Bytes → Except CmdError CmdResult) :
    Except CmdError CmdResult :=
  match s.checkArgs i with
  | .error e => .error e
  | .ok () =>
    match f s.input with
    | .error e => .error e
    | .ok r => if s.params.outBufSize < resultSize r then .error .outputOverflow else .ok r

/-- `Commit(r)` (R115). -/
def State.commit (s : State) : Except CmdError CmdResult → State
  | .ok (.bytes out) => s.commitBytes out
  | .ok (.versioned out v) => s.commitVersioned out v
  | .ok (.records rs q) => s.commitRecords rs q
  | .ok .check => s.commitCheck
  | .error e => s.commitError e

/-- The completion step of a command with function `f` (R43): compute, then commit. It always has a
next state, since every function is total and every error is committed (R113, R283). -/
def runCommand (i : Instr) (f : Bytes → Except CmdError CmdResult) (s : State) :
    Host.Outcome State Fault Refusal :=
  .next (s.commit (s.execute i f))

end Sys2Proof.Machine
end

