-- ==== Sys2Proof/Machine/Sha256.lean ====
section
/-! DEFINITION. SHA-256 (R104). The spec takes the external hash to be FIPS 180-4 SHA-256 and names three
of its values; the algorithm itself is PRESUMED from outside the spec (log entry 7), and the three
values are checked in the tests. Its constants are computed here from the primes they come from. -/

namespace Sys2Proof.Machine

/-- The whole part of the `e`-th root of `n`, one bit after the other from bit `bits - 1` down: `r` is the
root's bits found so far. -/
def rootBits (e n : Nat) : Nat → Nat → Nat
  | 0, r => r
  | bits + 1, r => rootBits e n bits (if (r + 2 ^ bits) ^ e ≤ n then r + 2 ^ bits else r)

/-- The first 32 bits of the fractional part of the `e`-th root of `n`: those of the whole root of
`n · 2^(32e)` below bit 32. Its 36 bits hold every root below 16. -/
def rootFraction (e n : Nat) : Word := BitVec.ofNat 32 (rootBits e (n * 2 ^ (32 * e)) 36 0)

/-- The sixty-four primes up to 311: the numbers from 2 that no smaller prime divides, for which the
primes below 18 suffice. -/
def shaPrimes : List Nat :=
  (List.range' 2 310).filter
    (fun n => [2, 3, 5, 7, 11, 13, 17].all (fun d => n.ble d || Nat.ble 1 (n % d)))

/-- The round constants: the fractions of the primes' cube roots. -/
def shaK : List Word := shaPrimes.map (rootFraction 3)

/-- The eight chaining words. -/
structure ShaState where
  (a b c d e f g h : Word)
deriving DecidableEq, Repr

/-- The initial hash value: the fractions of the first eight primes' square roots. -/
def shaInit : ShaState :=
  ⟨rootFraction 2 2, rootFraction 2 3, rootFraction 2 5, rootFraction 2 7, rootFraction 2 11,
    rootFraction 2 13, rootFraction 2 17, rootFraction 2 19⟩

/-- The exclusive or of a word's right rotations by the given amounts. -/
def shaMix (amounts : List Nat) (x : Word) : Word :=
  amounts.foldl (fun acc n => acc ^^^ x.rotateRight n) 0

/-- The next word of the message schedule, from the words before it, newest first. -/
def shaNextWord (w : List Word) : Word :=
  let near := w.getD 1 0
  let far := w.getD 14 0
  (shaMix [17, 19] near ^^^ (near >>> 10)) + (shaMix [7, 18] far ^^^ (far >>> 3)) +
    (w.getD 6 0 + w.getD 15 0)

/-- The message schedule, newest word first: `n` more words in front of those given. -/
def shaSchedule : Nat → List Word → List Word
  | 0, w => w
  | n + 1, w => shaSchedule n (shaNextWord w :: w)

/-- One round, with its constant and its schedule word. The bits of `e` choose between those of `f` and
of `g`; the majority of `a`, `b` and `c` is the bits two of them share. -/
def shaRound (s : ShaState) (kw : Word × Word) : ShaState :=
  let chosen := s.g ^^^ (s.e &&& (s.f ^^^ s.g))
  let majority := (s.a &&& s.b) ||| (s.c &&& (s.a ||| s.b))
  let t := kw.1 + kw.2 + s.h + chosen + shaMix [6, 11, 25] s.e
  { a := t + majority + shaMix [2, 13, 22] s.a, b := s.a, c := s.b, d := s.c
    e := t + s.d, f := s.e, g := s.f, h := s.g }

/-- The compression function on one block of sixteen words. -/
def shaCompress (h : ShaState) (block : List Word) : ShaState :=
  let w := (shaSchedule 48 block.reverse).reverse
  let s := (List.zip shaK w).foldl shaRound h
  ⟨h.a + s.a, h.b + s.b, h.c + s.c, h.d + s.d, h.e + s.e, h.f + s.f, h.g + s.g, h.h + s.h⟩

/-- Padding: a one bit, zeros, and the bit length as 64 bits, to a multiple of 64 bytes. -/
def shaPad (m : Bytes) : Bytes :=
  m ++ 0x80 :: List.replicate ((119 - m.length % 64) % 64) 0 ++ beField 8 (8 * m.length)

/-- The first `n` big-endian words of a byte sequence. -/
def shaWords : Nat → Bytes → List Word
  | 0, _ => []
  | n + 1, s => BitVec.ofNat 32 (be (s.take 4)) :: shaWords n (s.drop 4)

/-- Compress `n` blocks one after the other. -/
def shaBlocks : Nat → ShaState → Bytes → ShaState
  | 0, h, _ => h
  | n + 1, h, s => shaBlocks n (shaCompress h (shaWords 16 s)) (s.drop 64)

/-- The digest of a chaining state: eight big-endian words. -/
def ShaState.digest (s : ShaState) : Bytes :=
  [s.a, s.b, s.c, s.d, s.e, s.f, s.g, s.h].flatMap (fun w => beField 4 w.toNat)

/-- `SHA256(m)`: 32 bytes (R104). -/
def sha256 (m : Bytes) : Bytes :=
  (shaBlocks ((shaPad m).length / 64) shaInit (shaPad m)).digest

/-- `Checksum(m)`: the first four bytes of the double digest, in digest order (R105, conflict C1). -/
def checksum (m : Bytes) : Bytes := (sha256 (sha256 m)).take checksumLen

end Sys2Proof.Machine
end

