-- ==== Sys2Proof/Machine/Base58.lean ====
section
/-! DEFINITION. The Base58 family (41_base58.md): the normative definitions, the byte-array
algorithms the spec says compute them, and the meanings of B58_ENC, B58_DEC, B58CHK_ENC and
B58CHK_DEC. -/

namespace Sys2Proof.Machine

/-- `B58Encode(b)` (R130). -/
def b58Encode (b : Bytes) : Bytes :=
  List.replicate (lead b 0) 0x31 ++ (digits 58 (be b)).map b58Symbol

/-- `B58Decode(s)` (R133). -/
def b58Decode (s : Bytes) : Except CmdError Bytes :=
  match lookupAll b58Rom s with
  | none => .error .invalidCharacter
  | some d => .ok (List.replicate (lead s 0x31) 0 ++ bytesMin (ofDigits 58 d))

/-- Base58Check encoding: the payload with its checksum appended (R136). -/
def b58CheckEncode (p : Bytes) : Bytes := b58Encode (p ++ checksum p)

/-- Base58Check decoding, with its checks in their order (R137). -/
def b58CheckDecode (s : Bytes) : Except CmdError Bytes :=
  match b58Decode s with
  | .error e => .error e
  | .ok d =>
    if d.length < 4 then .error .tooShort
    else if checksum (d.take (d.length - 4)) ≠ d.drop (d.length - 4) then .error .checksumMismatch
    else .ok (d.take (d.length - 4))

/-- One pass of the long division by 58: the quotient's bytes without leading zeros, and the
remainder (R131). -/
def b58DivPass : Nat → List Nat → List Nat → List Nat × Nat
  | rem, [], q => (q, rem)
  | rem, x :: num, q =>
    let acc := rem * 256 + x
    b58DivPass (acc % 58) num (if q ≠ [] ∨ acc / 58 > 0 then q ++ [acc / 58] else q)

/-- The passes of R131's loop, at most `fuel` of them. -/
def b58EncodeLoop : Nat → List Nat → List Nat → List Nat
  | 0, _, out => out
  | _ + 1, [], out => out
  | fuel + 1, num, out =>
    b58EncodeLoop fuel (b58DivPass 0 num []).1 ((b58DivPass 0 num []).2 :: out)

/-- `B58EncodeAlg(b)` (R131). A byte gives at most two passes. -/
def b58EncodeAlg (b : Bytes) : Bytes :=
  List.replicate (lead b 0) 0x31 ++
    (b58EncodeLoop (2 * b.length) ((b.drop (lead b 0)).map BitVec.toNat) []).map b58Symbol

/-- The inner loop of R133's algorithm: multiply a little-endian byte array by 58 and add the carry;
the new bytes and the carry out. -/
def b58MulAdd : Nat → List Nat → List Nat × Nat
  | carry, [] => ([], carry)
  | carry, x :: acc =>
    let t := carry + x * 58
    let r := b58MulAdd (t / 256) acc
    (t % 256 :: r.1, r.2)

/-- The carry's bytes, least significant first, at most `fuel` of them (R133). -/
def b58CarryBytes : Nat → Nat → List Nat
  | 0, _ => []
  | fuel + 1, c => if c = 0 then [] else c % 256 :: b58CarryBytes fuel (c / 256)

/-- The outer loop of R133's algorithm over the string. -/
def b58DecodeLoop : List Nat → Bytes → Except CmdError (List Nat)
  | acc, [] => .ok acc
  | acc, c :: s =>
    match b58Rom c with
    | none => .error .invalidCharacter
    | some v =>
      let r := b58MulAdd v acc
      b58DecodeLoop (r.1 ++ b58CarryBytes r.2 r.2) s

/-- `B58DecodeAlg(s)` (R133). -/
def b58DecodeAlg (s : Bytes) : Except CmdError Bytes :=
  match b58DecodeLoop [] s with
  | .error e => .error e
  | .ok acc => .ok (List.replicate (lead s 0x31) 0 ++ acc.reverse.map (BitVec.ofNat 8))

/-- F_B58_ENC (R132). -/
def fB58Enc (inp : Bytes) : Except CmdError CmdResult := .ok (.bytes (b58Encode inp))

/-- F_B58_DEC (R134). -/
def fB58Dec (inp : Bytes) : Except CmdError CmdResult := (b58Decode inp).map .bytes

/-- F_B58CHK_ENC (R136). -/
def fB58chkEnc (inp : Bytes) : Except CmdError CmdResult := .ok (.bytes (b58CheckEncode inp))

/-- F_B58CHK_DEC (R137). -/
def fB58chkDec (inp : Bytes) : Except CmdError CmdResult := (b58CheckDecode inp).map .bytes

/-- B58_ENC (R132). -/
def execB58Enc (s : State) : Host.Outcome State Fault Refusal := runCommand .b58Enc fB58Enc s

/-- B58_DEC (R134). -/
def execB58Dec (s : State) : Host.Outcome State Fault Refusal := runCommand .b58Dec fB58Dec s

/-- B58CHK_ENC (R136). -/
def execB58chkEnc (s : State) : Host.Outcome State Fault Refusal :=
  runCommand .b58chkEnc fB58chkEnc s

/-- B58CHK_DEC (R137). -/
def execB58chkDec (s : State) : Host.Outcome State Fault Refusal :=
  runCommand .b58chkDec fB58chkDec s

end Sys2Proof.Machine
end

