-- ==== Sys2Proof/Machine/C32.lean ====
section
/-! DEFINITION. The C32 family (42_c32.md): the normative definitions, the carry algorithms the spec
says compute them, and the meanings of C32_ENC, C32_DEC, C32CHK_ENC, C32CHK_ENC_P, C32CHK_DEC,
C32ADDR_ENC and C32ADDR_DEC. -/

namespace Sys2Proof.Machine

/-- `C32Encode(b)` (R160). -/
def c32Encode (b : Bytes) : Bytes :=
  List.replicate (lead b 0) 0x30 ++ (digits 32 (be b)).map c32Symbol

/-- `C32Decode(s)`: leading zeros are counted over the digit values, so `O` and `o` count (R163). -/
def c32Decode (s : Bytes) : Except CmdError Bytes :=
  match lookupAll c32Rom s with
  | none => .error .invalidCharacter
  | some d => .ok (List.replicate (lead d 0) 0 ++ bytesMin (ofDigits 32 d))

/-- `C32CheckEncode(v, p)` (R167). -/
def c32CheckEncode (v : Byte) (p : Bytes) : Bytes :=
  c32Symbol v.toNat :: c32Encode (p ++ checksum (v :: p))

/-- `C32CheckDecode(s)`: the version and the payload, with the checks in their order (R170). -/
def c32CheckDecode (s : Bytes) : Except CmdError (Nat × Bytes) :=
  if s.length < 2 then .error .tooShort
  else
    match lookupAll c32Rom s with
    | none => .error .invalidCharacter
    | some d =>
      match c32Decode (s.drop 1) with
      | .error e => .error e
      | .ok body =>
        if body.length < 4 then .error .tooShort
        else
          let v := d.headD 0
          let p := body.take (body.length - 4)
          if checksum (BitVec.ofNat 8 v :: p) ≠ body.drop (body.length - 4) then
            .error .checksumMismatch
          else .ok (v, p)

/-- `C32AddressEncode(v, h)`: prefix `S` (R172). -/
def c32AddressEncode (v : Byte) (h : Bytes) : Bytes := 0x53 :: c32CheckEncode v h

/-- `C32AddressDecode(s)`: the tag byte is stripped and not examined (R172). -/
def c32AddressDecode (s : Bytes) : Except CmdError (Nat × Bytes) :=
  if s.length ≤ 5 then .error .tooShort else c32CheckDecode (s.drop 1)

/-- The working state of the bit-packing loop: groups or bytes, least significant first, the carry
and its bit count (R161, R164). -/
structure C32Carry where
  out : List Nat
  carry : Nat
  carryBits : Nat
deriving DecidableEq, Repr

/-- One byte of the encoding loop (R161). -/
def c32EncodeStep (c : C32Carry) (b : Byte) : C32Carry :=
  let v := b.toNat
  let low := v &&& ((1 <<< (5 - c.carryBits)) - 1)
  let out := c.out ++ [(low <<< c.carryBits) + c.carry]
  let bits := c.carryBits + 3
  let carry := v >>> (8 - bits)
  if 5 ≤ bits then ⟨out ++ [carry &&& 31], carry >>> 5, bits - 5⟩ else ⟨out, carry, bits⟩

/-- Drop the zeros at the end of a list (R161, R164). -/
def trimZeros (l : List Nat) : List Nat := (l.reverse.dropWhile (fun x => x = 0)).reverse

/-- The last partial group or byte, if there is one (R161, R164). -/
def C32Carry.flush (c : C32Carry) : List Nat := if 0 < c.carryBits then c.out ++ [c.carry] else c.out

/-- `C32EncodeAlg(b)`: from the last byte to the first (R161). -/
def c32EncodeAlg (b : Bytes) : Bytes :=
  ((trimZeros (b.reverse.foldl c32EncodeStep ⟨[], 0, 0⟩).flush ++
    List.replicate (lead b 0) 0).reverse).map c32Symbol

/-- One digit of the decoding loop (R164). -/
def c32DecodeStep (c : C32Carry) (d : Nat) : C32Carry :=
  let carry := c.carry + (d <<< c.carryBits)
  let bits := c.carryBits + 5
  if 8 ≤ bits then ⟨c.out ++ [carry &&& 255], carry >>> 8, bits - 8⟩ else ⟨c.out, carry, bits⟩

/-- `C32DecodeAlg(s)`: from the last symbol to the first (R164). -/
def c32DecodeAlg (s : Bytes) : Except CmdError Bytes :=
  match lookupAll c32Rom s with
  | none => .error .invalidCharacter
  | some d =>
    .ok (((trimZeros (d.reverse.foldl c32DecodeStep ⟨[], 0, 0⟩).flush ++
      List.replicate (lead d 0) 0).reverse).map (BitVec.ofNat 8))

/-- F_C32_ENC (R162). -/
def fC32Enc (inp : Bytes) : Except CmdError CmdResult := .ok (.bytes (c32Encode inp))

/-- F_C32_DEC (R165). -/
def fC32Dec (inp : Bytes) : Except CmdError CmdResult := (c32Decode inp).map .bytes

/-- F_C32CHK_ENC (R168). -/
def fC32chkEnc (version : Byte) (inp : Bytes) : Except CmdError CmdResult :=
  .ok (.bytes (c32CheckEncode version inp))

/-- F_C32CHK_ENC_P (R169): the prefix byte is copied without a check. -/
def fC32chkEncP (prefixByte version : Byte) (inp : Bytes) : Except CmdError CmdResult :=
  .ok (.bytes (prefixByte :: c32CheckEncode version inp))

/-- F_C32CHK_DEC (R171). -/
def fC32chkDec (inp : Bytes) : Except CmdError CmdResult :=
  (c32CheckDecode inp).map (fun r => .versioned r.2 r.1)

/-- F_C32ADDR_ENC (R173). -/
def fC32addrEnc (version : Byte) (inp : Bytes) : Except CmdError CmdResult :=
  .ok (.bytes (c32AddressEncode version inp))

/-- F_C32ADDR_DEC (R174). -/
def fC32addrDec (inp : Bytes) : Except CmdError CmdResult :=
  (c32AddressDecode inp).map (fun r => .versioned r.2 r.1)

/-- C32_ENC (R162). -/
def execC32Enc (s : State) : Host.Outcome State Fault Refusal := runCommand .c32Enc fC32Enc s

/-- C32_DEC (R165). -/
def execC32Dec (s : State) : Host.Outcome State Fault Refusal := runCommand .c32Dec fC32Dec s

/-- C32CHK_ENC (R168). -/
def execC32chkEnc (s : State) : Host.Outcome State Fault Refusal :=
  runCommand .c32chkEnc (fC32chkEnc s.version) s

/-- C32CHK_ENC_P (R169). -/
def execC32chkEncP (s : State) : Host.Outcome State Fault Refusal :=
  runCommand .c32chkEncP (fC32chkEncP s.prefixByte s.version) s

/-- C32CHK_DEC (R171). -/
def execC32chkDec (s : State) : Host.Outcome State Fault Refusal :=
  runCommand .c32chkDec fC32chkDec s

/-- C32ADDR_ENC (R173). -/
def execC32addrEnc (s : State) : Host.Outcome State Fault Refusal :=
  runCommand .c32addrEnc (fC32addrEnc s.version) s

/-- C32ADDR_DEC (R174). -/
def execC32addrDec (s : State) : Host.Outcome State Fault Refusal :=
  runCommand .c32addrDec fC32addrDec s

end Sys2Proof.Machine
end

