-- ==== Sys2Proof/Machine/Names.lean ====
section
/-! DEFINITION. The name grammars (R204 to R206), the UTF-8 split (R207), and the meanings of CN_CHECK
and CTN_CHECK (43_value_model.md). -/

namespace Sys2Proof.Machine

/-- ALPHA (R204). -/
def isAlpha (b : Byte) : Bool :=
  (0x41 ≤ b.toNat && b.toNat ≤ 0x5A) || (0x61 ≤ b.toNat && b.toNat ≤ 0x7A)

/-- DIGIT (R204). -/
def isDigit (b : Byte) : Bool := 0x30 ≤ b.toNat && b.toNat ≤ 0x39

/-- CN_REST (R204). -/
def isCnRest (b : Byte) : Bool :=
  isAlpha b || isDigit b ||
    ([0x2D, 0x5F, 0x21, 0x3F, 0x2B, 0x3C, 0x3E, 0x3D, 0x2F, 0x2A] : Bytes).contains b

/-- CTN_REST (R204). -/
def isCtnRest (b : Byte) : Bool := isAlpha b || isDigit b || ([0x5F, 0x2D] : Bytes).contains b

/-- The nine operator names (R205). -/
def operatorNames : List Bytes :=
  [ [0x2D], [0x2B], [0x3D], [0x2F], [0x2A], [0x3C], [0x3E], [0x3C, 0x3D], [0x3E, 0x3D] ]

/-- A letter, then bytes of a class: the shape both grammars share. -/
def letterThen (rest : Byte → Bool) : Bytes → Bool
  | [] => false
  | b :: tail => isAlpha b && tail.all rest

/-- `IsClarityName(n)` (R205). -/
def isClarityName (n : Bytes) : Bool :=
  decide (1 ≤ n.length) && decide (n.length ≤ nameMax) &&
    (operatorNames.contains n || letterThen isCnRest n)

/-- The reserved literal `__transient` (R206). -/
def transientName : Bytes := [0x5F, 0x5F, 0x74, 0x72, 0x61, 0x6E, 0x73, 0x69, 0x65, 0x6E, 0x74]

/-- `IsContractName(n)` (R206). -/
def isContractName (n : Bytes) : Bool :=
  n == transientName ||
    (decide (1 ≤ n.length) && decide (n.length ≤ 40) && letterThen isCtnRest n)

/-- The value of byte i of s lies in a range; false past the end of s. -/
def byteIn (s : Bytes) (i lo hi : Nat) : Bool :=
  match s[i]? with
  | none => false
  | some b => decide (lo ≤ b.toNat) && decide (b.toNat ≤ hi)

/-- `WellFormedLen` at the first byte of s, by R207's table: 1 to 4, or 0 if no well-formed sequence
starts there. -/
def wellFormedLen (s : Bytes) : Nat :=
  if byteIn s 0 0x00 0x7F then 1
  else if byteIn s 0 0xC2 0xDF && byteIn s 1 0x80 0xBF then 2
  else if byteIn s 0 0xE0 0xE0 && byteIn s 1 0xA0 0xBF && byteIn s 2 0x80 0xBF then 3
  else if (byteIn s 0 0xE1 0xEC || byteIn s 0 0xEE 0xEF) && byteIn s 1 0x80 0xBF &&
      byteIn s 2 0x80 0xBF then 3
  else if byteIn s 0 0xED 0xED && byteIn s 1 0x80 0x9F && byteIn s 2 0x80 0xBF then 3
  else if byteIn s 0 0xF0 0xF0 && byteIn s 1 0x90 0xBF && byteIn s 2 0x80 0xBF &&
      byteIn s 3 0x80 0xBF then 4
  else if byteIn s 0 0xF1 0xF3 && byteIn s 1 0x80 0xBF && byteIn s 2 0x80 0xBF &&
      byteIn s 3 0x80 0xBF then 4
  else if byteIn s 0 0xF4 0xF4 && byteIn s 1 0x80 0x8F && byteIn s 2 0x80 0xBF &&
      byteIn s 3 0x80 0xBF then 4
  else 0

/-- The groups of the UTF-8 split, at most `fuel` of them; none if a group is ill-formed. -/
def utf8Groups : Nat → Bytes → Option (List Bytes)
  | _, [] => some []
  | 0, _ :: _ => none
  | fuel + 1, s =>
    if wellFormedLen s = 0 then none
    else (utf8Groups fuel (s.drop (wellFormedLen s))).map (s.take (wellFormedLen s) :: ·)

/-- `Utf8Split(s)` (R207). Each group takes at least one byte. -/
def utf8Split (s : Bytes) : Except CmdError (List Bytes) :=
  match utf8Groups s.length s with
  | none => .error .invalidCharacter
  | some gs => .ok gs

/-- F_CN_CHECK (R208). -/
def fCnCheck (inp : Bytes) : Except CmdError CmdResult :=
  if isClarityName inp then .ok .check else .error .invalidName

/-- F_CTN_CHECK (R209). -/
def fCtnCheck (inp : Bytes) : Except CmdError CmdResult :=
  if isContractName inp then .ok .check else .error .invalidName

/-- CN_CHECK (R208). -/
def execCnCheck (s : State) : Host.Outcome State Fault Refusal := runCommand .cnCheck fCnCheck s

/-- CTN_CHECK (R209). -/
def execCtnCheck (s : State) : Host.Outcome State Fault Refusal := runCommand .ctnCheck fCtnCheck s

end Sys2Proof.Machine
end

