-- ==== Sys2Proof/Machine/ValueModel.lean ====
section
/-! DEFINITION. The value model: the type prefixes (R231), the closed value type (R200), and the node
a decoded value leaves behind (R254, R255). -/

namespace Sys2Proof.Machine

/-- The fifteen type prefixes, numbered by their place (R231). -/
inductive TypePrefix where
  | int
  | uint
  | buffer
  | boolTrue
  | boolFalse
  | standardPrincipal
  | contractPrincipal
  | responseOk
  | responseErr
  | optionalNone
  | optionalSome
  | list
  | tuple
  | stringAscii
  | stringUtf8
deriving DecidableEq, Repr

/-- The byte that stands for a type prefix (R231). -/
def typePrefixByte : TypePrefix → Byte
  | .int => 0x00
  | .uint => 0x01
  | .buffer => 0x02
  | .boolTrue => 0x03
  | .boolFalse => 0x04
  | .standardPrincipal => 0x05
  | .contractPrincipal => 0x06
  | .responseOk => 0x07
  | .responseErr => 0x08
  | .optionalNone => 0x09
  | .optionalSome => 0x0A
  | .list => 0x0B
  | .tuple => 0x0C
  | .stringAscii => 0x0D
  | .stringUtf8 => 0x0E

/-- The type prefixes in the order of their bytes (R231). -/
def typePrefixes : List TypePrefix :=
  [ .int, .uint, .buffer, .boolTrue, .boolFalse, .standardPrincipal, .contractPrincipal,
    .responseOk, .responseErr, .optionalNone, .optionalSome, .list, .tuple, .stringAscii,
    .stringUtf8 ]

/-- The type prefix a wire byte stands for; none for 0x0F to 0xFF (R231). -/
def typePrefixOf (b : Byte) : Option TypePrefix := typePrefixes[b.toNat]?

/-- The closed tagged union of values (R200). A tuple's entries stand in ascending order of their
keys' bytes, each key once, so that two tuples with equal keys and values are equal (R202). -/
inductive Value where
  | int (i : Int)
  | uint (u : Nat)
  | buffer (data : Bytes)
  | boolTrue
  | boolFalse
  | standardPrincipal (version : Byte) (hash : Bytes)
  | contractPrincipal (version : Byte) (hash : Bytes) (name : Bytes)
  | responseOk (v : Value)
  | responseErr (v : Value)
  | optionalNone
  | optionalSome (v : Value)
  | list (items : List Value)
  | tuple (entries : List (Bytes × Value))
  | stringAscii (data : Bytes)
  | stringUtf8 (groups : List Bytes)
deriving Repr

/-- The part of a node that its variant decides (R237, R255). Offsets are into IN_BUF. -/
inductive Payload where
  /-- BoolTrue, BoolFalse, OptionalNone and the one-child variants. -/
  | empty
  /-- Int, UInt: the sixteen bytes as read. -/
  | raw (bytes : Bytes)
  /-- Buffer, StringASCII: length and offset of the data. -/
  | data (len off : Nat)
  /-- StringUTF8: length, offset and number of scalars. -/
  | utf8 (len off scalars : Nat)
  /-- StandardPrincipal: version and offset of the hash. -/
  | principal (version : Byte) (hashOff : Nat)
  /-- ContractPrincipal: version, offset of the hash, offset and length of the name. -/
  | contract (version : Byte) (hashOff nameOff nameLen : Nat)
  /-- List, Tuple: the count. -/
  | count (n : Nat)
deriving DecidableEq, Repr

/-- One decoded value node (R237): its prefix, depth, the offset and length of its key if it is a
tuple entry's value, its span and its payload. -/
structure Node where
  tag : TypePrefix
  depth : Nat
  key : Option (Nat × Nat)
  spanStart : Nat
  spanEnd : Nat
  payload : Payload
deriving DecidableEq, Repr

end Sys2Proof.Machine
end

