-- ==== Sys2Proof/Machine/ValueDecoder.lean ====
section
/-! DEFINITION. The value decoder (44_value_decoder.md, sections 1 to 3), the node records (section 4)
and the meaning of VAL_DEC (R250). -/

namespace Sys2Proof.Machine

/-- `ReadName(p)`: offset and length of the name's bytes, and the cursor after them (R238). -/
def readName (inp : Bytes) (p : Nat) : Except CmdError ((Nat × Nat) × Nat) :=
  match takeBytes inp p 1 with
  | .error e => .error e
  | .ok (b, p1) =>
    if be b = 0 ∨ nameMax < be b then .error .invalidName
    else
      match takeBytes inp p1 (be b) with
      | .error e => .error e
      | .ok (name, p2) => if isClarityName name then .ok ((p1, be b), p2) else .error .invalidName

/-- A u32 length or count field: OversizeDeclaration if it is above MAX_DECL, before anything that
follows it is read (R233, R236, R239). -/
def readSize (inp : Bytes) (p : Nat) : Except CmdError (Nat × Nat) :=
  match takeBytes inp p 4 with
  | .error e => .error e
  | .ok (w, p1) => if maxDecl < be w then .error .oversizeDeclaration else .ok (be w, p1)

/-- The nodes of a value in pre-order with the cursor after it, or the error that aborted. -/
abbrev Decoded := Except CmdError (List Node × Nat)

/-- The `c` elements of a list, in wire order (R236, R237). -/
def decodeItems (child : Nat → Decoded) : Nat → Nat → Decoded
  | 0, p => .ok ([], p)
  | c + 1, p =>
    match child p with
    | .error e => .error e
    | .ok (ns, p1) =>
      match decodeItems child c p1 with
      | .error e => .error e
      | .ok (rest, p2) => .ok (ns ++ rest, p2)

/-- Put a key on the first node of a value: the node of the value itself (R241). -/
def setKey (key : Nat × Nat) : List Node → List Node
  | [] => []
  | n :: rest => { n with key := some key } :: rest

/-- The `c` entries of a tuple in wire order: the key, the duplicate check against the keys already
read, the value (R243). -/
def decodeEntries (inp : Bytes) (child : Nat → Decoded) : Nat → List Bytes → Nat → Decoded
  | 0, _, p => .ok ([], p)
  | c + 1, seen, p =>
    match readName inp p with
    | .error e => .error e
    | .ok (key, p1) =>
      if seen.contains (slice inp key.1 key.2) then .error .invalidName
      else
        match child p1 with
        | .error e => .error e
        | .ok (ns, p2) =>
          match decodeEntries inp child c (slice inp key.1 key.2 :: seen) p2 with
          | .error e => .error e
          | .ok (rest, p3) => .ok (setKey key ns ++ rest, p3)

/-- The payload of a value whose prefix has been read: what it puts on the value's own node, the
nodes of its children, and the cursor after it (R237's case distinction). -/
def decodePayload (inp : Bytes) (child : Nat → Decoded) (t : TypePrefix) (p : Nat) :
    Except CmdError (Payload × List Node × Nat) :=
  match t with
  | .int | .uint =>
    match takeBytes inp p 16 with
    | .error e => .error e
    | .ok (r, p1) => .ok (.raw r, [], p1)
  | .buffer | .stringAscii =>
    match readSize inp p with
    | .error e => .error e
    | .ok (n, p1) =>
      match takeBytes inp p1 n with
      | .error e => .error e
      | .ok (_, p2) => .ok (.data n p1, [], p2)
  | .stringUtf8 =>
    match readSize inp p with
    | .error e => .error e
    | .ok (n, p1) =>
      match takeBytes inp p1 n with
      | .error e => .error e
      | .ok (data, p2) =>
        match utf8Split data with
        | .error e => .error e
        | .ok groups => .ok (.utf8 n p1 groups.length, [], p2)
  | .boolTrue | .boolFalse | .optionalNone => .ok (.empty, [], p)
  | .standardPrincipal =>
    match takeBytes inp p 21 with
    | .error e => .error e
    | .ok (vh, p1) => .ok (.principal (vh.headD 0) (p1 - principalHashLen), [], p1)
  | .contractPrincipal =>
    match takeBytes inp p 21 with
    | .error e => .error e
    | .ok (vh, p1) =>
      match readName inp p1 with
      | .error e => .error e
      | .ok (name, p2) =>
        .ok (.contract (vh.headD 0) (p1 - principalHashLen) name.1 name.2, [], p2)
  | .responseOk | .responseErr | .optionalSome =>
    match child p with
    | .error e => .error e
    | .ok (ns, p1) => .ok (.empty, ns, p1)
  | .list =>
    match readSize inp p with
    | .error e => .error e
    | .ok (c, p1) =>
      match decodeItems child c p1 with
      | .error e => .error e
      | .ok (ns, p2) => .ok (.count c, ns, p2)
  | .tuple =>
    match readSize inp p with
    | .error e => .error e
    | .ok (c, p1) =>
      match decodeEntries inp child c [] p1 with
      | .error e => .error e
      | .ok (ns, p2) => .ok (.count c, ns, p2)

/-- `DecodeValue(p, d)` (R237). `levels` is how many levels may still be entered, this one included:
MAX_DEPTH + 1 at the top. A value that would be entered with none left is the one at depth 17 that
`Child` rejects before its prefix byte is read (R241). -/
def decodeValue (inp : Bytes) : Nat → Nat → Nat → Decoded
  | 0, _, _ => .error .depthExceeded
  | levels + 1, d, start =>
    match takeBytes inp start 1 with
    | .error e => .error e
    | .ok (b, p) =>
      match typePrefixOf (b.headD 0) with
      | none => .error .badTypePrefix
      | some t =>
        match decodePayload inp (fun q => decodeValue inp levels (d + 1) q) t p with
        | .error e => .error e
        | .ok (payload, children, q) => .ok (⟨t, d, none, start, q, payload⟩ :: children, q)

/-- The top-level value at a cursor, at depth 0 (R241, R250). -/
def decodeTop (inp : Bytes) (start : Nat) : Decoded := decodeValue inp (maxDepth + 1) 0 start

/-- PAYLOAD, bytes 16 to 31 of a record (R255). -/
def emitPayload : Payload → Bytes
  | .empty => List.replicate 16 0
  | .raw r => r
  | .data len off => beField 4 len ++ beField 4 off ++ List.replicate 8 0
  | .utf8 len off scalars =>
    beField 4 len ++ beField 4 off ++ beField 4 scalars ++ List.replicate 4 0
  | .principal version hashOff =>
    [version, 0, 0, 0] ++ beField 4 hashOff ++ List.replicate 8 0
  | .contract version hashOff nameOff nameLen =>
    [version, BitVec.ofNat 8 nameLen, 0, 0] ++ beField 4 hashOff ++ beField 4 nameOff ++
      List.replicate 4 0
  | .count n => beField 4 n ++ List.replicate 12 0

/-- FLAGS, byte 2 of a record: KEYED in bit 0, SPAN in bit 1 (R255). -/
def emitFlags (n : Node) (cap : Bool) : Byte :=
  (if n.key.isSome then 1 else 0) ||| (if cap then 2 else 0)

/-- `Emit(node, cap)`: the 32-byte record of a node (R255). -/
def emitNode (cap : Bool) (n : Node) : Bytes :=
  [typePrefixByte n.tag, BitVec.ofNat 8 n.depth, emitFlags n cap,
    BitVec.ofNat 8 ((n.key.map Prod.snd).getD 0)] ++
  beField 4 ((n.key.map Prod.fst).getD 0) ++
  beField 4 (if cap then n.spanStart else 0) ++
  beField 4 (if cap then n.spanEnd else 0) ++
  emitPayload n.payload

/-- F_VAL_DEC (R250). -/
def fValDec (cap : Bool) (start : Nat) (inp : Bytes) : Except CmdError CmdResult :=
  match decodeTop inp start with
  | .error e => .error e
  | .ok (nodes, q) => .ok (.records (nodes.map (emitNode cap)) q)

/-- VAL_DEC and VAL_DEC.CAP (R250). -/
def execValDec (cap : Bool) (s : State) : Host.Outcome State Fault Refusal :=
  runCommand (.valDec cap) (fValDec cap s.startCursor) s

end Sys2Proof.Machine
end

