-- ==== Sys2Proof/Machine/Dispatch.lean ====
section
/-! DEFINITION. The completion step of each command, one arm per row of the opcode map (R84, R113). -/

namespace Sys2Proof.Machine

def exec (i : Instr) (s : State) : Host.Outcome State Fault Refusal :=
  match i with
  | .b58Enc => Sys2Proof.Machine.execB58Enc s
  | .b58Dec => Sys2Proof.Machine.execB58Dec s
  | .b58chkEnc => Sys2Proof.Machine.execB58chkEnc s
  | .b58chkDec => Sys2Proof.Machine.execB58chkDec s
  | .c32Enc => Sys2Proof.Machine.execC32Enc s
  | .c32Dec => Sys2Proof.Machine.execC32Dec s
  | .c32chkEnc => Sys2Proof.Machine.execC32chkEnc s
  | .c32chkEncP => Sys2Proof.Machine.execC32chkEncP s
  | .c32chkDec => Sys2Proof.Machine.execC32chkDec s
  | .c32addrEnc => Sys2Proof.Machine.execC32addrEnc s
  | .c32addrDec => Sys2Proof.Machine.execC32addrDec s
  | .valDec cap => Sys2Proof.Machine.execValDec cap s
  | .cnCheck => Sys2Proof.Machine.execCnCheck s
  | .ctnCheck => Sys2Proof.Machine.execCtnCheck s

end Sys2Proof.Machine
end

