-- ==== Sys2Proof/Machine/Engine.lean ====
section
/-! DEFINITION. The engine's completion step: fetching the latched command word, and running what it
selects (R43, R113, R114). -/

namespace Sys2Proof.Machine

/-- The completion step (R43). The command word is checked first: an illegal one ends in BadCommand
whatever the other operands are (R85, R114). -/
def State.complete (s : State) : Host.Outcome State Fault Refusal :=
  match decode s.latched.cmd with
  | .error _ => .next (s.commitError .badCommand)
  | .ok i => exec i s

/-- A state in which a command whose word is `w` is running and its completion is next. -/
def State.withCommand (s : State) (w : Word) : State :=
  { s with engine := .busy, latched := { s.latched with cmd := w }, waitLeft := 0 }

end Sys2Proof.Machine
end

