-- ==== Sys2Proof/Machine/Step.lean ====
section
/-! DEFINITION. One step of SCE: the engine's completion step when it is due, else one host event
(R43, R62, R289); and the state in which the next step runs a given command word. -/

namespace Sys2Proof.Machine

/-- One step. -/
def step (s : State) : Host.Outcome State Fault Refusal :=
  if s.completionDue then s.complete else s.hostStep

/-- `s` with a command word where the engine reads its next command from: L.CMD, with the engine BUSY
and no further host access to come before completion. It stands for the host's writes of CMD and of
CTRL.START (log entry 8). -/
def State.withFetchWord (s : State) (nbits w : Nat) : State :=
  s.withCommand (BitVec.ofNat 32 (w % 2 ^ nbits))

end Sys2Proof.Machine
end

