-- ==== Sys2Proof/Machine/HostProgram.lean ====
section
/-! DEFINITION. Host programs: the statements of R88 and the pseudo-instructions of R89, expanded into bus
accesses. -/

namespace Sys2Proof.Machine

/-- The offset of a register in the window (R21). A reserved slot stands for its first offset. -/
def regOffset : Reg → Nat
  | .ctrl => 0x00
  | .cmd => 0x04
  | .arg => 0x08
  | .inLen => 0x0C
  | .inOff => 0x10
  | .status => 0x14
  | .outLen => 0x18
  | .cursor => 0x1C
  | .nodeCount => 0x20
  | .versionOut => 0x24
  | .insz => 0x28
  | .outsz => 0x2C
  | .reserved => 0x30

/-- The statements of a host program (R88, R89). -/
inductive HostStmt where
  /-- `WR <reg>, <v>`. -/
  | wr (r : Reg) (v : Word)
  /-- `RD <reg>`. -/
  | rd (r : Reg)
  /-- `WRB <a>, hex"…"`. -/
  | wrb (a : Nat) (bytes : Bytes)
  /-- `WRS <a>, "text"`: the text's ASCII codes, as WRB. -/
  | wrs (a : Nat) (text : List Char)
  /-- `RDB <a>, <n>`. -/
  | rdb (a n : Nat)
  /-- `WAIT`. -/
  | wait
  /-- `RUN <command>, len=<n>`, keeping the host's chosen IE. -/
  | run (c : Command) (ie : Bool)
  /-- `ACK`. -/
  | ack (ie : Bool)
deriving DecidableEq, Repr

/-- IE as CTRL writes carry it. -/
def ieBit (ie : Bool) : Word := if ie then 4 else 0

/-- The bus accesses of a 32-bit register write (R88). -/
def wrAccess (base : Nat) (r : Reg) (v : Word) : HostEvent := .write (base + regOffset r) 4 v

/-- The byte writes of WRB, in order (R88). -/
def wrbAccesses (base : Nat) : Nat → Bytes → List HostEvent
  | _, [] => []
  | a, b :: rest =>
    .write (base + 0x1000000 + a) 1 (b.zeroExtend 32) :: wrbAccesses base (a + 1) rest

/-- The accesses of one statement, in order (R88, R89). -/
def HostStmt.expand (base : Nat) : HostStmt → List HostEvent
  | .wr r v => [wrAccess base r v]
  | .rd r => [.read (base + regOffset r) 4]
  | .wrb a bytes => wrbAccesses base a bytes
  | .wrs a text => wrbAccesses base a (text.map (fun c => BitVec.ofNat 8 c.toNat))
  | .rdb a n => (List.range n).map (fun i => .read (base + 0x2000000 + a + i) 1)
  | .wait => [.wait]
  | .run c ie =>
    [ wrAccess base .cmd (encode c.instr), wrAccess base .arg (encodeArg c.version c.prefixByte),
      wrAccess base .inLen c.len, wrAccess base .inOff c.off,
      wrAccess base .ctrl (1 ||| ieBit ie), .wait ]
  | .ack ie => [wrAccess base .ctrl (2 ||| ieBit ie)]

/-- A program's accesses, in order (R88). -/
def hostProgram (base : Nat) (stmts : List HostStmt) : List HostEvent :=
  stmts.flatMap (HostStmt.expand base)

end Sys2Proof.Machine
end

