-- ==== Sys2Proof/Machine/Rebuild.lean ====
section
/-! DEFINITION. From node records to a value: `Rebuild` of R260, which reads the committed records and the
current IN_BUF, and the decoded value of a state. -/

namespace Sys2Proof.Machine

/-- Lexicographic order of byte sequences. -/
def bytesLt : Bytes → Bytes → Bool
  | [], [] => false
  | [], _ :: _ => true
  | _ :: _, [] => false
  | a :: s, b :: t => decide (a.toNat < b.toNat) || (a == b && bytesLt s t)

/-- `m[key] <- v` on entries kept in ascending order of their keys (R260, R202). -/
def putEntry (key : Bytes) (v : Value) : List (Bytes × Value) → List (Bytes × Value)
  | [] => [(key, v)]
  | (k, w) :: rest =>
    if bytesLt key k then (key, v) :: (k, w) :: rest
    else if key = k then (key, v) :: rest
    else (k, w) :: putEntry key v rest

/-- A four-byte field of a record. -/
def recordField (r : Bytes) (off : Nat) : Nat := be (slice r off 4)

/-- `n` bytes of a buffer from an offset on. -/
def bytesAt (mem : Nat → Byte) (off n : Nat) : Bytes :=
  (List.range n).map (fun i => mem (off + i))

/-- The elements of a list: `Rebuild` repeated (R260). -/
def rebuildItems (child : Nat → Option (Value × Nat)) : Nat → Nat → Option (List Value × Nat)
  | 0, j => some ([], j)
  | c + 1, j =>
    match child j with
    | none => none
    | some (v, j1) =>
      match rebuildItems child c j1 with
      | none => none
      | some (vs, j2) => some (v :: vs, j2)

/-- The entries of a tuple: the key located by the value's record, then the value (R260). -/
def rebuildEntries (mem : Nat → Byte) (records : List Bytes) (child : Nat → Option (Value × Nat)) :
    Nat → Nat → List (Bytes × Value) → Option (List (Bytes × Value) × Nat)
  | 0, j, m => some (m, j)
  | c + 1, j, m =>
    match records[j]?, child j with
    | some r, some (v, j1) =>
      rebuildEntries mem records child c j1
        (putEntry (bytesAt mem (recordField r 4) (r.getD 3 0).toNat) v m)
    | _, _ => none

/-- The value of a record whose prefix is known (R260's case distinction). -/
def rebuildRecord (mem : Nat → Byte) (records : List Bytes) (child : Nat → Option (Value × Nat))
    (t : TypePrefix) (x : Bytes) (k : Nat) : Option (Value × Nat) :=
  match t with
  | .int => some (.int (s64 (be (slice x 24 8))), k + 1)
  | .uint => some (.uint (be (slice x 24 8)), k + 1)
  | .buffer => some (.buffer (bytesAt mem (recordField x 20) (recordField x 16)), k + 1)
  | .stringAscii => some (.stringAscii (bytesAt mem (recordField x 20) (recordField x 16)), k + 1)
  | .stringUtf8 =>
    match utf8Split (bytesAt mem (recordField x 20) (recordField x 16)) with
    | .error _ => none
    | .ok groups => some (.stringUtf8 groups, k + 1)
  | .boolTrue => some (.boolTrue, k + 1)
  | .boolFalse => some (.boolFalse, k + 1)
  | .optionalNone => some (.optionalNone, k + 1)
  | .standardPrincipal =>
    some (.standardPrincipal (x.getD 16 0) (bytesAt mem (recordField x 20) principalHashLen), k + 1)
  | .contractPrincipal =>
    some (.contractPrincipal (x.getD 16 0) (bytesAt mem (recordField x 20) principalHashLen)
      (bytesAt mem (recordField x 24) (x.getD 17 0).toNat), k + 1)
  | .responseOk => (child (k + 1)).map (fun r => (.responseOk r.1, r.2))
  | .responseErr => (child (k + 1)).map (fun r => (.responseErr r.1, r.2))
  | .optionalSome => (child (k + 1)).map (fun r => (.optionalSome r.1, r.2))
  | .list =>
    (rebuildItems child (recordField x 16) (k + 1)).map (fun r => (.list r.1, r.2))
  | .tuple =>
    (rebuildEntries mem records child (recordField x 16) (k + 1) []).map
      (fun r => (.tuple r.1, r.2))

/-- `Rebuild(k)`: the value at record k and the index after its subtree (R260). `levels` bounds the
nesting, which is at most MAX_DEPTH + 1; none where the records are no decoder's. -/
def rebuild (mem : Nat → Byte) (records : List Bytes) : Nat → Nat → Option (Value × Nat)
  | 0, _ => none
  | levels + 1, k =>
    match records[k]? with
    | none => none
    | some x =>
      match typePrefixOf (x.getD 0 0xFF) with
      | none => none
      | some t => rebuildRecord mem records (fun j => rebuild mem records levels j) t x k

/-- The records a state's OUT_BUF holds: R[k] = OUT_BUF[32k..32k+32) (R115). -/
def State.records (s : State) : Option (List Bytes) :=
  s.output.map (fun out => (List.range s.nodeCount.toNat).map (fun k => slice out (32 * k) 32))

/-- The decoded value `Rebuild(0)` of a state, on the current IN_BUF (R260, U28). -/
def State.decodedValue (s : State) : Option (Value × Nat) :=
  match s.records with
  | none => none
  | some rs => rebuild s.inByte rs (maxDepth + 1) 0

end Sys2Proof.Machine
end

