-- ==== Sys2Proof/Machine/Wire.lean ====
section
/-! DEFINITION. The wire format read the other way (R230 to R236): the bytes of a value, and the values
the format can carry. SCE has no encoder (R5); this one exists so that claims can say what the
decoder makes of a value's encoding. -/

namespace Sys2Proof.Machine

/-- A 64-bit number in the sixteen bytes of an Int field, sign-extended (R232). -/
def wireInt (i : Int) : Bytes := beField 16 (i % 2 ^ 128).toNat

/-- A name field: one length byte, then the name (R235). -/
def wireName (name : Bytes) : Bytes := BitVec.ofNat 8 name.length :: name

mutual

/-- The serialized form of a value (R230, R231). -/
def wireValue : Value → Bytes
  | .int i => 0x00 :: wireInt i
  | .uint u => 0x01 :: beField 16 u
  | .buffer data => 0x02 :: (beField 4 data.length ++ data)
  | .boolTrue => [0x03]
  | .boolFalse => [0x04]
  | .standardPrincipal version hash => 0x05 :: version :: hash
  | .contractPrincipal version hash name => 0x06 :: version :: (hash ++ wireName name)
  | .responseOk v => 0x07 :: wireValue v
  | .responseErr v => 0x08 :: wireValue v
  | .optionalNone => [0x09]
  | .optionalSome v => 0x0A :: wireValue v
  | .list items => 0x0B :: (beField 4 items.length ++ wireItems items)
  | .tuple entries => 0x0C :: (beField 4 entries.length ++ wireEntries entries)
  | .stringAscii data => 0x0D :: (beField 4 data.length ++ data)
  | .stringUtf8 groups => 0x0E :: (beField 4 groups.flatten.length ++ groups.flatten)

/-- The elements of a list, in order (R236). -/
def wireItems : List Value → Bytes
  | [] => []
  | v :: rest => wireValue v ++ wireItems rest

/-- The entries of a tuple, in order (R236). -/
def wireEntries : List (Bytes × Value) → Bytes
  | [] => []
  | e :: rest => wireEntry e ++ wireEntries rest

/-- One entry: the key's name field, then the value (R236). -/
def wireEntry : Bytes × Value → Bytes
  | (key, v) => wireName key ++ wireValue v

end

/-- A byte sequence that is one well-formed UTF-8 scalar (R201, R207). -/
def isScalar (g : Bytes) : Bool := g != [] && wellFormedLen g == g.length

/-- The keys of a tuple's entries stand in ascending order, each once (R202). -/
def keysAscending : List (Bytes × Value) → Bool
  | [] => true
  | e :: rest => rest.all (fun r => bytesLt e.1 r.1) && keysAscending rest

mutual

/-- A value the wire format can carry with `levels` levels to spare: integers in 64 bits (R200), sizes
up to MAX_DECL (R233, R236), hashes of 20 bytes, names that are ClarityNames (R235), scalars
well-formed (R207), and no value past the depth bound (R241). -/
def fitsWire : Nat → Value → Bool
  | _, .int i => decide (-(2 ^ 63) ≤ i) && decide (i < 2 ^ 63)
  | _, .uint u => decide (u < 2 ^ 64)
  | _, .buffer data => decide (data.length ≤ maxDecl)
  | _, .boolTrue => true
  | _, .boolFalse => true
  | _, .standardPrincipal _ hash => hash.length == principalHashLen
  | _, .contractPrincipal _ hash name => hash.length == principalHashLen && isClarityName name
  | levels, .responseOk v => decide (0 < levels) && fitsWire (levels - 1) v
  | levels, .responseErr v => decide (0 < levels) && fitsWire (levels - 1) v
  | _, .optionalNone => true
  | levels, .optionalSome v => decide (0 < levels) && fitsWire (levels - 1) v
  | levels, .list items =>
    decide (items.length ≤ maxDecl) && (items.isEmpty || decide (0 < levels)) &&
      fitsItems (levels - 1) items
  | levels, .tuple entries =>
    decide (entries.length ≤ maxDecl) && (entries.isEmpty || decide (0 < levels)) &&
      keysAscending entries && fitsEntries (levels - 1) entries
  | _, .stringAscii data => decide (data.length ≤ maxDecl)
  | _, .stringUtf8 groups => decide (groups.flatten.length ≤ maxDecl) && groups.all isScalar

/-- Every element fits. -/
def fitsItems : Nat → List Value → Bool
  | _, [] => true
  | levels, v :: rest => fitsWire levels v && fitsItems levels rest

/-- Every entry fits. -/
def fitsEntries : Nat → List (Bytes × Value) → Bool
  | _, [] => true
  | levels, e :: rest => fitsEntry levels e && fitsEntries levels rest

/-- The key is a ClarityName and the value fits. -/
def fitsEntry : Nat → Bytes × Value → Bool
  | levels, (key, v) => isClarityName key && fitsWire levels v

end

end Sys2Proof.Machine
end

