-- ==== Sys2Proof/Safety.lean ====
section
/-! DEFINITION. The terms claims about runs are stated in: the invariant of reachable states, what a
completion step leaves unchanged, what a successful and a failed command leave behind, which command
may fail with which code (R281), and the spec's grammars and tables (names, UTF-8, node records)
written out apart from the definitions that compute them. -/

namespace Sys2Proof.Machine

/-- Every result register reads 0 and no OUT_BUF byte is specified (R28 to R31, R37). -/
structure ResultsClear (s : State) : Prop where
  outLen : s.outLen = 0
  cursor : s.cursor = 0
  nodeCount : s.nodeCount = 0
  versionOut : s.versionOut = 0
  outBuf : s.outBuf = []

/-- What holds of every reachable state: the parameters are legal (R7), the buffers keep their
canonical form and their bounds, OUT_BUF is specified exactly below OUT_LEN (R37), the result
registers keep their ranges (R28 to R31), and STATE, ERRCODE and the results agree (R39, R282,
R283). -/
structure Inv (s : State) : Prop where
  params : s.params.legal
  inBufWf : Memory.wf s.inBuf = true
  inBufBound : ∀ c ∈ s.inBuf, c.1 < s.params.inBufSize
  outBufExact : s.outBuf.map Prod.fst = List.range s.outLen.toNat
  outLenBound : s.outLen.toNat ≤ s.params.outBufSize
  versionBound : s.versionOut.toNat < 32
  cursorBound : s.cursor.toNat ≤ s.params.inBufSize
  recordsExact : s.nodeCount = 0 ∨ s.outLen.toNat = 32 * s.nodeCount.toNat
  busyClear : s.engine = .busy → ResultsClear s ∧ s.err = none
  doneNoError : s.engine = .done → s.err = none
  errorHasCode : s.engine = .error → s.err ≠ none
  codeClears : s.err ≠ none → ResultsClear s

/-- Everything a completion step may not touch (R55, R115, R282): the host's registers, L, the
parameters, IN_BUF, and the model's own fields. -/
structure SameOperands (s t : State) : Prop where
  ie : t.ie = s.ie
  cmd : t.cmd = s.cmd
  arg : t.arg = s.arg
  inLen : t.inLen = s.inLen
  inOff : t.inOff = s.inOff
  latched : t.latched = s.latched
  params : t.params = s.params
  inByte : ∀ a, t.inByte a = s.inByte a
  inBuf : t.inBuf = s.inBuf
  pending : t.pending = s.pending
  responses : t.responses = s.responses
  waitLeft : t.waitLeft = s.waitLeft
  startCount : t.startCount = s.startCount
  resetCount : t.resetCount = s.resetCount
  freeCount : t.freeCount = s.freeCount

/-- `t` is `s` after a command that succeeded with the output `out` (R115, R37): DONE, ERRCODE as START
left it, OUT_LEN the output's length, OUT_BUF the output below OUT_LEN and unspecified from there
on, and nothing else changed but the registers named apart. -/
structure DoneWith (s t : State) (out : Bytes) : Prop where
  engine : t.engine = .done
  err : t.err = s.err
  outLen : t.outLen.toNat = out.length
  outByte : ∀ a, t.outByte a = out[a]?
  same : SameOperands s t

/-- `t` is `s` after a command that succeeded with a string or byte sequence (R115). -/
structure DoneBytes (s t : State) (out : Bytes) : Prop where
  result : DoneWith s t out
  cursor : t.cursor = s.cursor
  nodeCount : t.nodeCount = s.nodeCount
  versionOut : t.versionOut = s.versionOut

/-- `t` is `s` after a command that succeeded with a payload and a version (R31, R115). -/
structure DoneVersioned (s t : State) (out : Bytes) (version : Nat) : Prop where
  result : DoneWith s t out
  cursor : t.cursor = s.cursor
  nodeCount : t.nodeCount = s.nodeCount
  versionOut : t.versionOut.toNat = version

/-- `t` is `s` after VAL_DEC succeeded with node records and a cursor (R115). -/
structure DoneRecords (s t : State) (records : List Bytes) (q : Nat) : Prop where
  result : DoneWith s t records.flatten
  cursor : t.cursor.toNat = q
  nodeCount : t.nodeCount.toNat = records.length
  versionOut : t.versionOut = s.versionOut

/-- `t` is `s` after a name check passed (R115): only STATE changed. -/
structure DoneCheck (s t : State) : Prop where
  engine : t.engine = .done
  err : t.err = s.err
  outLen : t.outLen = s.outLen
  cursor : t.cursor = s.cursor
  nodeCount : t.nodeCount = s.nodeCount
  versionOut : t.versionOut = s.versionOut
  outBuf : t.outBuf = s.outBuf
  same : SameOperands s t

/-- `t` is `s` after a command failed with `e` (R282): ERROR, the code, every OUT_BUF byte unspecified,
the result registers as START left them, and nothing else changed. -/
structure FailedWith (s t : State) (e : CmdError) : Prop where
  engine : t.engine = .error
  err : t.err = some e
  outByte : ∀ a, t.outByte a = none
  outLen : t.outLen = s.outLen
  cursor : t.cursor = s.cursor
  nodeCount : t.nodeCount = s.nodeCount
  versionOut : t.versionOut = s.versionOut
  same : SameOperands s t

/-- The codes R281's table marks for a command. -/
def errorsOf : Instr → List CmdError
  | .b58Enc => [.badCommand, .badArgument, .outputOverflow]
  | .b58Dec => [.invalidCharacter, .badCommand, .badArgument, .outputOverflow]
  | .b58chkEnc => [.badCommand, .badArgument, .outputOverflow]
  | .b58chkDec =>
    [.invalidCharacter, .checksumMismatch, .tooShort, .badCommand, .badArgument, .outputOverflow]
  | .c32Enc => [.badCommand, .badArgument, .outputOverflow]
  | .c32Dec => [.invalidCharacter, .badCommand, .badArgument, .outputOverflow]
  | .c32chkEnc => [.badCommand, .badArgument, .outputOverflow]
  | .c32chkEncP => [.badCommand, .badArgument, .outputOverflow]
  | .c32chkDec =>
    [.invalidCharacter, .checksumMismatch, .tooShort, .badCommand, .badArgument, .outputOverflow]
  | .c32addrEnc => [.badCommand, .badArgument, .outputOverflow]
  | .c32addrDec =>
    [.invalidCharacter, .checksumMismatch, .tooShort, .badCommand, .badArgument, .outputOverflow]
  | .valDec _ =>
    [.invalidCharacter, .oversizeDeclaration, .depthExceeded, .badTypePrefix, .invalidName,
      .truncatedInput, .badCommand, .badArgument, .outputOverflow]
  | .cnCheck => [.invalidName, .badCommand, .badArgument]
  | .ctnCheck => [.invalidName, .badCommand, .badArgument]

/-- The canonical upper-case symbol of a C32 byte's digit value (R166). -/
def c32Canonical (b : Byte) : Byte := c32Symbol ((c32Rom b).getD 0)

/-- Every piece of SCE's own state is the same: only the model's bookkeeping of the host may differ. -/
structure SameMachine (s t : State) : Prop where
  ie : t.ie = s.ie
  cmd : t.cmd = s.cmd
  arg : t.arg = s.arg
  inLen : t.inLen = s.inLen
  inOff : t.inOff = s.inOff
  engine : t.engine = s.engine
  err : t.err = s.err
  outLen : t.outLen = s.outLen
  cursor : t.cursor = s.cursor
  nodeCount : t.nodeCount = s.nodeCount
  versionOut : t.versionOut = s.versionOut
  latched : t.latched = s.latched
  inByte : ∀ a, t.inByte a = s.inByte a
  inBuf : t.inBuf = s.inBuf
  outBuf : t.outBuf = s.outBuf
  params : t.params = s.params

/-- The accesses that get no bus error (R50, R51, R52), by the offset in the window and the width in
bytes. -/
def LegalAccess (p : Config.Params) (off width : Nat) : Prop :=
  (off < 0x100 ∧ off % 4 = 0 ∧ width = 4) ∨
    (0x1000000 ≤ off ∧ off < 0x1000000 + p.inBufSize ∧ width = 1) ∨
    (0x2000000 ≤ off ∧ off < 0x2000000 + p.outBufSize ∧ width = 1)

/-- A host event that is no reset and addresses the window. -/
def orderlyEvent (s : State) : HostEvent → Bool
  | .read addr _ => s.inWindow addr
  | .write addr _ _ => s.inWindow addr
  | .wait => true
  | .reset => false

/-- A byte is the code of one of the given characters. -/
def IsOneOf (chars : String) (b : Byte) : Prop := ∃ c ∈ chars.toList, c.toNat = b.toNat

/-- The letters of ALPHA (R204). -/
def alphaChars : String := "ABCDEFGHIJKLMNOPQRSTUVWXYZabcdefghijklmnopqrstuvwxyz"

/-- The grammar of R205, written out over characters. -/
def ClarityNameGrammar (n : Bytes) : Prop :=
  (1 ≤ n.length ∧ n.length ≤ 128) ∧
    ((∃ op ∈ ["-", "+", "=", "/", "*", "<", ">", "<=", ">="],
        n = op.toList.map (fun c => BitVec.ofNat 8 c.toNat)) ∨
      ∃ b tail, n = b :: tail ∧ IsOneOf alphaChars b ∧
        ∀ c ∈ tail, IsOneOf alphaChars c ∨ IsOneOf "0123456789" c ∨ IsOneOf "-_!?+<>=/*" c)

/-- The grammar of R206, written out over characters. -/
def ContractNameGrammar (n : Bytes) : Prop :=
  n = "__transient".toList.map (fun c => BitVec.ofNat 8 c.toNat) ∨
    ((1 ≤ n.length ∧ n.length ≤ 40) ∧
      ∃ b tail, n = b :: tail ∧ IsOneOf alphaChars b ∧
        ∀ c ∈ tail, IsOneOf alphaChars c ∨ IsOneOf "0123456789" c ∨ IsOneOf "_-" c)

/-- R207's table: for each row the ranges of a sequence's bytes, first byte first. -/
def utf8Table : List (List (Nat × Nat)) :=
  [ [(0x00, 0x7F)],
    [(0xC2, 0xDF), (0x80, 0xBF)],
    [(0xE0, 0xE0), (0xA0, 0xBF), (0x80, 0xBF)],
    [(0xE1, 0xEC), (0x80, 0xBF), (0x80, 0xBF)],
    [(0xEE, 0xEF), (0x80, 0xBF), (0x80, 0xBF)],
    [(0xED, 0xED), (0x80, 0x9F), (0x80, 0xBF)],
    [(0xF0, 0xF0), (0x90, 0xBF), (0x80, 0xBF), (0x80, 0xBF)],
    [(0xF1, 0xF3), (0x80, 0xBF), (0x80, 0xBF), (0x80, 0xBF)],
    [(0xF4, 0xF4), (0x80, 0x8F), (0x80, 0xBF), (0x80, 0xBF)] ]

/-- A whole well-formed UTF-8 sequence: its bytes lie in the ranges of one row of R207's table. -/
def Utf8Scalar (g : Bytes) : Prop :=
  ∃ row ∈ utf8Table, List.Forall₂ (fun b range => range.1 ≤ b.toNat ∧ b.toNat ≤ range.2) g row

/-- A split of a byte sequence into well-formed UTF-8 sequences (R201). -/
def IsUtf8Split (s : Bytes) (groups : List Bytes) : Prop :=
  groups.flatten = s ∧ ∀ g ∈ groups, Utf8Scalar g

/-- Bytes `off` to `off + 3` of a record hold a number, most significant byte first (R58). -/
def WordAt (record : Nat → Option Byte) (off value : Nat) : Prop :=
  value < 2 ^ 32 ∧
    ∀ j, j < 4 → record (off + j) = some (BitVec.ofNat 8 (value / 256 ^ (3 - j)))

/-- Bytes `off` to `off + n - 1` of a record are 0. -/
def ZerosAt (record : Nat → Option Byte) (off n : Nat) : Prop :=
  ∀ j, j < n → record (off + j) = some 0

/-- PAYLOAD, bytes 16 to 31 of the record of the value whose prefix byte stands at `start` of the input,
by R255's second table. Each field is said through the bytes of the wire format (R232 to R236). -/
def PayloadOf (inp : Bytes) (start : Nat) (record : Nat → Option Byte) : Prop :=
  let tag := (inp.getD start 0).toNat
  let size := be (slice inp (start + 1) 4)
  if tag ≤ 0x01 then ∀ j, j < 16 → record (16 + j) = inp[start + 1 + j]?
  else if tag = 0x02 ∨ tag = 0x0D then
    WordAt record 16 size ∧ WordAt record 20 (start + 5) ∧ ZerosAt record 24 8
  else if tag = 0x0E then
    WordAt record 16 size ∧ WordAt record 20 (start + 5) ∧
      (∃ groups, IsUtf8Split (slice inp (start + 5) size) groups ∧
        WordAt record 24 groups.length) ∧
      ZerosAt record 28 4
  else if tag = 0x05 then
    record 16 = inp[start + 1]? ∧ ZerosAt record 17 3 ∧ WordAt record 20 (start + 2) ∧
      ZerosAt record 24 8
  else if tag = 0x06 then
    record 16 = inp[start + 1]? ∧ record 17 = inp[start + 22]? ∧ ZerosAt record 18 2 ∧
      WordAt record 20 (start + 2) ∧ WordAt record 24 (start + 23) ∧ ZerosAt record 28 4
  else if tag = 0x0B ∨ tag = 0x0C then WordAt record 16 size ∧ ZerosAt record 20 12
  else ZerosAt record 16 16

/-- The 32 bytes of a node's record, by offset (R255). -/
structure RecordOf (cap : Bool) (inp : Bytes) (n : Node) (record : Nat → Option Byte) : Prop where
  /-- Byte 0, PREFIX: the value's prefix byte. -/
  tag : n.spanStart < inp.length ∧ record 0 = inp[n.spanStart]?
  /-- Byte 1, DEPTH. -/
  depth : n.depth ≤ 16 ∧ record 1 = some (BitVec.ofNat 8 n.depth)
  /-- Byte 2, FLAGS: KEYED in bit 0, SPAN in bit 1, bits 7:2 zero. -/
  flags : ∃ b, record 2 = some b ∧ b.getLsbD 0 = n.key.isSome ∧ b.getLsbD 1 = cap ∧
    b.extractLsb' 2 6 = 0
  /-- Bytes 3 to 7 without a key: KEY_LEN and KEY_OFF are 0. -/
  unkeyed : n.key = none → ZerosAt record 3 5
  /-- Bytes 3 to 7 with a key: the length byte in front of the name, and the name's offset. -/
  keyed : ∀ off len, n.key = some (off, len) →
    (1 ≤ len ∧ len ≤ 128 ∧ 1 ≤ off ∧ off + len = n.spanStart) ∧ record 3 = inp[off - 1]? ∧
      record 3 = some (BitVec.ofNat 8 len) ∧ WordAt record 4 off
  /-- Bytes 8 to 15, SPAN_START and SPAN_END. -/
  span : WordAt record 8 (if cap then n.spanStart else 0) ∧
    WordAt record 12 (if cap then n.spanEnd else 0)
  /-- Bytes 16 to 31, PAYLOAD. -/
  payload : PayloadOf inp n.spanStart record

/-- `k` values decode one after the other from cursor `p` to cursor `q`. -/
def ValuesInTurn (inp : Bytes) (levels d : Nat) : Nat → Nat → Nat → Prop
  | 0, p, q => q = p
  | k + 1, p, q =>
    ∃ nodes p', decodeValue inp levels d p = .ok (nodes, p') ∧ ValuesInTurn inp levels d k p' q

/-- Tuple entries with the given keys, each a ClarityName in its name field and a value that decodes,
stand one after the other from cursor `p` to cursor `q` (R236). -/
def EntriesInTurn (inp : Bytes) (levels d : Nat) : List Bytes → Nat → Nat → Prop
  | [], p, q => q = p
  | key :: keys, p, q =>
    isClarityName key = true ∧ slice inp p (key.length + 1) = wireName key ∧
      ∃ nodes p', decodeValue inp levels d (p + 1 + key.length) = .ok (nodes, p') ∧
        EntriesInTurn inp levels d keys p' q

end Sys2Proof.Machine
end

