-- ==== Sys2Proof/Certificates/Slice0/Obligations.lean ====
section
/-! DEFINITION. The statements for the provers. OBLIGATIONS.json lists them, with the rule each one
formalises. -/

open Sys2Proof Sys2Proof.Machine

/-! ## Encoding -/

/-- R80, R84: decoding and encoding are inverse, so each command has one word and each legal word one
command; every bit of a word counts. -/
def Obligations.DecodeAndEncodeAreInverse : Prop :=
  ∀ (w : Word) (i : Instr), decode w = .ok i ↔ w = encode i

/-- R86: every word selects exactly one row or is illegal under R85; the rows have distinct
match[7:0], and each mask covers bits 7:0. -/
def Obligations.EveryWordSelectsOneRowOrIsIllegal : Prop :=
  (∀ w : Word,
    (legalWord w = true ∧ (opcodeTable.filter (fun r => r.selects w)).length = 1 ∧
      ∃ i, decode w = .ok i) ∨
    (legalWord w = false ∧ opcodeTable.filter (fun r => r.selects w) = [] ∧
      ∃ e, decode w = .error e)) ∧
  (opcodeTable.map (fun r => r.matchBits.extractLsb' 0 8)).Nodup ∧
  ∀ r ∈ opcodeTable, r.mask.extractLsb' 0 8 = 0xFF

/-- R84, R87: some words, written out from the opcode map, and the commands they are. -/
def Obligations.OpcodeMapWordsDecode : Prop :=
  decodeTableWord 32 0x00000001 = some .b58Enc ∧ decodeTableWord 32 0x00000004 = some .b58chkDec ∧
    decodeTableWord 32 0x00000010 = some .c32Enc ∧
    decodeTableWord 32 0x00000013 = some .c32chkEncP ∧
    decodeTableWord 32 0x00000016 = some .c32addrDec ∧
    decodeTableWord 32 0x00000020 = some (.valDec false) ∧
    decodeTableWord 32 0x00000120 = some (.valDec true) ∧
    decodeTableWord 32 0x00000022 = some .ctnCheck ∧ decodeTableWord 32 0x00000101 = none

/-- R43, R113: when the completion step is due and the latched word is a command's, the step is that
command's meaning. -/
def Obligations.StepRunsTheLatchedCommand : Prop :=
  ∀ (s : State) (i : Instr),
    s.completionDue = true → decode s.latched.cmd = .ok i → step s = exec i s

/-- R85: a latched word that is illegal (a reserved opcode, RSVD not zero, or CAP on another opcode
than VAL_DEC's) ends in ERROR with BadCommand. -/
def Obligations.IllegalWordEndsInBadCommand : Prop :=
  ∀ s : State, s.completionDue = true → legalWord s.latched.cmd = false →
    ∃ t, step s = .next t ∧ FailedWith s t .badCommand

/-! ## Reset, the host's accesses and the interrupt line -/

/-- R47, R320: the state after reset, as the spec states it; every buffer byte is unspecified. -/
def Obligations.ResetStateHasTheSpecsValues : Prop :=
  State.reset.readReg .ctrl = 0 ∧ State.reset.readReg .cmd = 0 ∧ State.reset.readReg .arg = 0 ∧
    State.reset.readReg .inLen = 0 ∧ State.reset.readReg .inOff = 0 ∧
    State.reset.readReg .status = 0 ∧ State.reset.readReg .outLen = 0 ∧
    State.reset.readReg .cursor = 0 ∧ State.reset.readReg .nodeCount = 0 ∧
    State.reset.readReg .versionOut = 0 ∧
    State.reset.readReg .insz = BitVec.ofNat 32 State.reset.params.inBufSize ∧
    State.reset.readReg .outsz = BitVec.ofNat 32 State.reset.params.outBufSize ∧
    State.reset.engine = .idle ∧ State.reset.irq = false ∧
    (∀ a, Memory.read State.reset.inBuf a = none) ∧ ∀ a, State.reset.outByte a = none

/-- R320, R321: reset in any state, BUSY included, gives the reset values, abandons a running command,
raises no interrupt, leaves both buffers unspecified and the parameters alone. -/
def Obligations.ResetAbandonsAndClears : Prop :=
  ∀ (s : State) (rest : List HostEvent),
    s.completionDue = false → s.pending = .reset :: rest →
    ∃ t, step s = .next t ∧ t.ie = false ∧ t.cmd = 0 ∧ t.arg = 0 ∧ t.inLen = 0 ∧ t.inOff = 0 ∧
      t.engine = .idle ∧ t.err = none ∧ ResultsClear t ∧ t.irq = false ∧ t.params = s.params ∧
      (∀ a, Memory.read t.inBuf a = none) ∧ (∀ a, t.outByte a = none) ∧ t.pending = rest

/-- R41: a write to CTRL with bit 0 set, outside BUSY, latches the four operand registers, clears
ERRCODE and the results, and enters BUSY; bit 1 of the write makes no difference (R22). -/
def Obligations.StartLatchesAndClears : Prop :=
  ∀ (s : State) (v : Word) (rest : List HostEvent),
    s.engine ≠ .busy → s.pending = .write s.params.base 4 v :: rest → v.getLsbD 0 = true →
    ∃ t, step s = .next t ∧ t.latched = ⟨s.cmd, s.arg, s.inLen, s.inOff⟩ ∧ t.err = none ∧
      ResultsClear t ∧ t.engine = .busy ∧ t.ie = v.getLsbD 2 ∧ t.cmd = s.cmd ∧ t.arg = s.arg ∧
      t.inLen = s.inLen ∧ t.inOff = s.inOff ∧ t.params = s.params ∧ t.inBuf = s.inBuf ∧
      (∀ a, t.inByte a = s.inByte a) ∧ t.pending = rest ∧
      t.responses = .accepted :: s.responses

/-- R42: a write to CTRL with bit 1 set and bit 0 clear, in DONE or ERROR, sets STATE to IDLE and
changes nothing else of the machine but IE, which the same write carries (R22); the interrupt line
drops. -/
def Obligations.AckReturnsToIdle : Prop :=
  ∀ (s : State) (v : Word) (rest : List HostEvent),
    (s.engine = .done ∨ s.engine = .error) → s.pending = .write s.params.base 4 v :: rest →
    v.getLsbD 0 = false → v.getLsbD 1 = true →
    ∃ t, step s = .next t ∧
      SameMachine { s with engine := .idle, ie := v.getLsbD 2 } t ∧ t.irq = false ∧
      t.pending = rest ∧ t.responses = .accepted :: s.responses

/-- R332: while BUSY, a write that is no bus error changes nothing of the machine but IE, and gets no
bus error. -/
def Obligations.WritesWhileBusyAreLost : Prop :=
  ∀ (s : State) (off width : Nat) (v : Word) (rest : List HostEvent),
    s.params.legal → s.engine = .busy → s.completionDue = false →
    s.pending = .write (s.params.base + off) width v :: rest → LegalAccess s.params off width →
    ∃ t, step s = .next t ∧
      SameMachine (if off = 0 then { s with ie := v.getLsbD 2 } else s) t ∧
      t.responses = .accepted :: s.responses

/-- R22 to R26, R21, R34, R45, R54: outside BUSY a write to CTRL that neither starts a command nor
acknowledges one sets IE to bit 2 and changes nothing else; a write stores the whole word in CMD, ARG,
IN_LEN or IN_OFF and changes nothing else; a write to a read-only or reserved register or to OUT_BUF
changes nothing; and none of these is a bus error. -/
def Obligations.RegisterWritesStoreOrAreIgnored : Prop :=
  ∀ (s : State) (off width : Nat) (v : Word) (rest : List HostEvent),
    s.params.legal → s.engine ≠ .busy →
    (off = 0x00 → v.getLsbD 0 = false ∧ (v.getLsbD 1 = false ∨ s.engine = .idle)) →
    (off < 0x1000000 ∨ 0x2000000 ≤ off) → LegalAccess s.params off width →
    s.pending = .write (s.params.base + off) width v :: rest →
    ∃ t, step s = .next t ∧ t.responses = .accepted :: s.responses ∧
      SameMachine
        (if off = 0x00 then { s with ie := v.getLsbD 2 }
          else if off = 0x04 then { s with cmd := v }
          else if off = 0x08 then { s with arg := v }
          else if off = 0x0C then { s with inLen := v }
          else if off = 0x10 then { s with inOff := v }
          else s) t

/-- R53: outside BUSY a byte write to IN_BUF stores bits 7:0 at that offset, leaves every other byte
and the rest of the machine alone. -/
def Obligations.InBufWriteStoresOneByte : Prop :=
  ∀ (s : State) (a : Nat) (v : Word) (rest : List HostEvent),
    s.params.legal → s.engine ≠ .busy → a < s.params.inBufSize →
    s.pending = .write (s.params.base + (0x1000000 + a)) 1 v :: rest →
    ∃ t, step s = .next t ∧ t.responses = .accepted :: s.responses ∧
      t.inByte a = v.extractLsb' 0 8 ∧ (∀ x, x ≠ a → t.inByte x = s.inByte x) ∧
      SameMachine { s with inBuf := t.inBuf } t

/-- R22 to R34, R53, R54, R61: what a read returns, register by register and byte by byte, in every
STATE, whose numbers in STATUS are R27's; a read changes nothing of the machine. An OUT_BUF byte whose value is not specified reads
as some byte. -/
def Obligations.ReadsReturnTheStateAndChangeNothing : Prop :=
  ∀ (s : State) (off width : Nat) (rest : List HostEvent),
    s.params.legal → s.completionDue = false →
    s.pending = .read (s.params.base + off) width :: rest → LegalAccess s.params off width →
    ∃ (t : State) (v : Word),
      step s = .next t ∧ t.responses = .data v :: s.responses ∧ SameMachine s t ∧
      (off < 0x100 →
        v = (if off = 0x00 then (if s.ie then 4 else 0)
          else if off = 0x04 then s.cmd
          else if off = 0x08 then s.arg
          else if off = 0x0C then s.inLen
          else if off = 0x10 then s.inOff
          else if off = 0x14 then BitVec.ofNat 32 (256 * s.errCode.toNat +
            (match s.engine with | .idle => 0 | .busy => 1 | .done => 2 | .error => 3))
          else if off = 0x18 then s.outLen
          else if off = 0x1C then s.cursor
          else if off = 0x20 then s.nodeCount
          else if off = 0x24 then BitVec.ofNat 32 s.versionOut.toNat
          else if off = 0x28 then BitVec.ofNat 32 s.params.inBufSize
          else if off = 0x2C then BitVec.ofNat 32 s.params.outBufSize
          else 0)) ∧
      (0x1000000 ≤ off → off < 0x2000000 → v = (s.inByte (off - 0x1000000)).zeroExtend 32) ∧
      (0x2000000 ≤ off →
        ∃ b : Byte, v = b.zeroExtend 32 ∧
          ∀ x, s.outByte (off - 0x2000000) = some x → b = x)

/-- R287: an access of the wrong width, a misaligned register access and an access to an unmapped
offset get a bus error and change nothing of the machine; every other access gets none. -/
def Obligations.BusErrorsAreExactlyTheRejectedAccesses : Prop :=
  ∀ (s : State) (off width : Nat) (v : Word) (rest : List HostEvent),
    s.completionDue = false → off < 2 ^ 26 →
    (s.pending = .read (s.params.base + off) width :: rest ∨
      s.pending = .write (s.params.base + off) width v :: rest) →
    ∃ (t : State) (r : BusResponse), step s = .next t ∧ t.responses = r :: s.responses ∧
      (¬ LegalAccess s.params off width → r = .busError ∧ SameMachine s t) ∧
      (LegalAccess s.params off width → r ≠ .busError)

/-- R45: the interrupt line is IE and (DONE or ERROR). It rises only at a completion step with IE set,
or when IE is set in DONE or ERROR; it falls only on START, on ACK, on clearing IE, or on reset. And it
does so: after a completion step it is IE; after a write to CTRL in DONE or ERROR it is high exactly if
the write sets IE and neither starts nor acknowledges; after a reset it is low. -/
def Obligations.InterruptLineRisesAndFalls : Prop :=
  (∀ s : State, s.irq = true ↔ s.ie = true ∧ (s.engine = .done ∨ s.engine = .error)) ∧
  (∀ s t : State, step s = .next t → s.irq = false → t.irq = true →
    (s.completionDue = true ∧ s.ie = true) ∨
    (∃ v rest, s.pending = .write s.params.base 4 v :: rest ∧ v.getLsbD 2 = true ∧
      (s.engine = .done ∨ s.engine = .error))) ∧
  (∀ s t : State, step s = .next t → s.irq = true → t.irq = false →
    (∃ rest, s.pending = .reset :: rest) ∨
    (∃ v rest, s.pending = .write s.params.base 4 v :: rest ∧
      (v.getLsbD 0 = true ∨ v.getLsbD 1 = true ∨ v.getLsbD 2 = false))) ∧
  (∀ s : State, s.completionDue = true → ∃ t, step s = .next t ∧ t.irq = s.ie) ∧
  (∀ (s : State) (v : Word) (rest : List HostEvent), s.engine = .done ∨ s.engine = .error →
    s.pending = .write s.params.base 4 v :: rest →
    ∃ t, step s = .next t ∧
      (t.irq = true ↔ v.getLsbD 0 = false ∧ v.getLsbD 1 = false ∧ v.getLsbD 2 = true)) ∧
  ∀ (s : State) (rest : List HostEvent), s.completionDue = false → s.pending = .reset :: rest →
    ∃ t, step s = .next t ∧ t.irq = false

/-- R89: the accesses of RUN, arriving outside BUSY, leave the engine BUSY with the command's word and
operands latched, the host's IE and an input buffer that has not changed; the poll is next. -/
def Obligations.RunStatementStartsTheCommand : Prop :=
  ∀ (s : State) (c : Command) (ie : Bool),
    s.engine ≠ .busy → s.pending = HostStmt.expand s.params.base (.run c ie) →
    ∃ t, Host.Core.run Sys2Proof.core 5 s = .next t ∧ t.engine = .busy ∧
      t.latched = ⟨encode c.instr, encodeArg c.version c.prefixByte, c.len, c.off⟩ ∧
      t.ie = ie ∧ ResultsClear t ∧ t.err = none ∧ t.pending = [.wait] ∧ t.inBuf = s.inBuf ∧
      t.params = s.params

/-! ## Every reachable state -/

/-- R47: the state after reset satisfies the invariant. Its parameters are the model's choice (log entry
1). -/
def Obligations.ResetSatisfiesTheInvariant : Prop := Inv State.reset

/-- R28 to R31, R37, R39, R282: every step keeps the invariant. -/
def Obligations.EveryStepKeepsTheInvariant : Prop :=
  ∀ s t : State, Inv s → step s = .next t → Inv t

/-- R334: a running command completes after at most `waitLeft` further host accesses, if the host makes
accesses to SCE and the platform does not reset it. `waitLeft` is the model's counter for the latency the
spec leaves free (log entry 2). -/
def Obligations.RunningCommandCompletes : Prop :=
  ∀ s : State, s.engine = .busy → (∀ e ∈ s.pending, orderlyEvent s e = true) →
    ∃ (k : Nat) (t : State), k ≤ s.waitLeft + 1 ∧ Host.Core.run Sys2Proof.core k s = .next t ∧
      (t.engine = .done ∨ t.engine = .error)

/-! ## The command framework -/

/-- R282: a command that ends in ERROR leaves its code, no result, OUT_BUF unspecified, and its inputs
exactly as they were; after a START the result registers read 0. -/
def Obligations.FailureLeavesOnlyTheCode : Prop :=
  ∀ (i : Instr) (s t : State), s.engine = .busy → exec i s = .next t → t.engine = .error →
    ∃ e, FailedWith s t e ∧ t.errCode = e.code ∧ (Inv s → ResultsClear t)

/-- R280, R281: a command never ends with a code its row does not mark, a decoding command ends with
OutputOverflow only when OUT_BUF is smaller than IN_BUF, and STATUS shows the code's number beside
STATE = ERROR. -/
def Obligations.ErrorCodesOfEachCommand : Prop :=
  ∀ (i : Instr) (s t : State) (e : CmdError), s.engine = .busy → s.err = none →
    exec i s = .next t → t.err = some e →
    e ∈ errorsOf i ∧
      (e = .outputOverflow →
        i ∈ [Instr.b58Dec, .c32Dec, .b58chkDec, .c32chkDec, .c32addrDec] →
        s.params.outBufSize < s.params.inBufSize) ∧
      ∃ n, (e, n) ∈ [(CmdError.invalidCharacter, 1), (.checksumMismatch, 2), (.tooShort, 3),
          (.oversizeDeclaration, 4), (.depthExceeded, 5), (.badTypePrefix, 6), (.invalidName, 7),
          (.truncatedInput, 8), (.badCommand, 9), (.badArgument, 10), (.outputOverflow, 11)] ∧
        t.statusWord = BitVec.ofNat 32 (256 * n + 3)

/-- R283: a running command ends in exactly one of two ways: DONE, with ERRCODE 0 and an output that is
specified from its first to its last byte, or ERROR, with one code and no result. -/
def Obligations.CommandEndsInDoneOrOneError : Prop :=
  ∀ (i : Instr) (s : State), Inv s → s.engine = .busy →
    ∃ t, exec i s = .next t ∧
      ((t.engine = .done ∧ t.err = none ∧ ∃ out, t.output = some out) ∨
        (t.engine = .error ∧ (∃ e, t.err = some e) ∧ ResultsClear t))

/-- R114: the argument checks come before any input is read, whatever the input is; each failure is
BadArgument. -/
def Obligations.ArgumentChecksComeFirst : Prop :=
  ∀ (i : Instr) (s : State), s.engine = .busy →
    (s.params.inBufSize < s.latched.inLen.toNat ∨
      (i.usesOffset = true ∧ s.latched.inLen.toNat < s.latched.inOff.toNat) ∨
      (i.usesVersion = true ∧ 32 ≤ s.latched.arg.toNat % 256)) →
    ∃ t, exec i s = .next t ∧ FailedWith s t .badArgument

/-- R89, R114: a well-formed command, latched, never ends with BadCommand or BadArgument. -/
def Obligations.WellFormedCommandsPassTheChecks : Prop :=
  ∀ (c : Command) (s t : State), s.completionDue = true → s.err = none →
    c.wellFormed s.params.inBufSize = true →
    s.latched = ⟨encode c.instr, encodeArg c.version c.prefixByte, c.len, c.off⟩ →
    step s = .next t → t.err ≠ some .badCommand ∧ t.err ≠ some .badArgument

/-- R113: an encoder whose output does not fit in OUT_BUF ends in OutputOverflow. -/
def Obligations.EncodersOverflow : Prop :=
  ∀ (s : State), s.engine = .busy → s.latched.inLen.toNat ≤ s.params.inBufSize →
    (s.params.outBufSize < (b58EncodeAlg s.input).length →
      ∃ t, exec .b58Enc s = .next t ∧ FailedWith s t .outputOverflow) ∧
    (s.params.outBufSize < (b58EncodeAlg (s.input ++ checksum s.input)).length →
      ∃ t, exec .b58chkEnc s = .next t ∧ FailedWith s t .outputOverflow) ∧
    (s.params.outBufSize < (c32EncodeAlg s.input).length →
      ∃ t, exec .c32Enc s = .next t ∧ FailedWith s t .outputOverflow) ∧
    (s.version.toNat < 32 →
      s.params.outBufSize <
        (c32EncodeAlg (s.input ++ checksum (s.version :: s.input))).length + 1 →
      ∃ t, exec .c32chkEnc s = .next t ∧ FailedWith s t .outputOverflow) ∧
    (s.version.toNat < 32 →
      s.params.outBufSize <
        (c32EncodeAlg (s.input ++ checksum (s.version :: s.input))).length + 2 →
      ∃ t u, exec .c32chkEncP s = .next t ∧ FailedWith s t .outputOverflow ∧
        exec .c32addrEnc s = .next u ∧ FailedWith s u .outputOverflow)

/-- R3, R55: what a command leaves is a function of the latched operands, the buffer sizes and the
input bytes below L.IN_LEN: two machines that agree on these end alike, whatever else they hold. -/
def Obligations.CommandsArePureFunctionsOfTheirInputs : Prop :=
  ∀ (i : Instr) (s u : State), Inv s → Inv u → s.engine = .busy → u.engine = .busy →
    s.latched = u.latched → s.params = u.params →
    (∀ a, a < s.latched.inLen.toNat → s.inByte a = u.inByte a) →
    ∃ t v, exec i s = .next t ∧ exec i u = .next v ∧ t.engine = v.engine ∧ t.err = v.err ∧
      t.outLen = v.outLen ∧ t.cursor = v.cursor ∧ t.nodeCount = v.nodeCount ∧
      t.versionOut = v.versionOut ∧ t.outBuf = v.outBuf

/-! ## Numbers, alphabets and the UTF-8 split -/

/-- R101, R102: the digits of a number are the unique list without a leading zero whose digits are below
the base and whose value is the number; the shortest bytes likewise, and none shorter has that
value. -/
def Obligations.DigitsAndShortestBytesAreUnique : Prop :=
  (∀ base n : Nat, 2 ≤ base →
    ofDigits base (digits base n) = n ∧ (∀ d ∈ digits base n, d < base) ∧
      (digits base n).head? ≠ some 0 ∧
      ∀ l : List Nat, ofDigits base l = n → (∀ d ∈ l, d < base) → l.head? ≠ some 0 →
        l = digits base n) ∧
  (∀ n : Nat,
    be (bytesMin n) = n ∧ (bytesMin n).head? ≠ some 0 ∧
      (∀ s : Bytes, be s = n → (bytesMin n).length ≤ s.length) ∧
      ∀ s : Bytes, be s = n → s.head? ≠ some 0 → s = bytesMin n)

/-- R106, R107, R109: B58_MAP gives a symbol's value and is INVALID on the 198 bytes that are no symbol.
C32_MAP gives value v to the symbol of v in either case, to `O` and `o` for 0 and to `I`, `i`, `L` and
`l` for 1, and is INVALID on the 196 other bytes. The symbols are the spec's. -/
def Obligations.LookupRomsMatchTheAlphabets : Prop :=
  (b58Alphabet =
    "123456789ABCDEFGHJKLMNPQRSTUVWXYZabcdefghijkmnopqrstuvwxyz".toList.map
      (fun c => BitVec.ofNat 8 c.toNat)) ∧
  (∀ (x : Byte) (v : Nat), b58Rom x = some v ↔ v < 58 ∧ b58Symbol v = x) ∧
  ((List.range 256).filter (fun n => (b58Rom (BitVec.ofNat 8 n)).isNone)).length = 198 ∧
  (c32Alphabet =
    "0123456789ABCDEFGHJKMNPQRSTVWXYZ".toList.map (fun c => BitVec.ofNat 8 c.toNat)) ∧
  (∀ (x : Byte) (v : Nat), c32Rom x = some v ↔
    v < 32 ∧ (x = c32Symbol v ∨ (0x41 ≤ (c32Symbol v).toNat ∧ x = c32Symbol v + 0x20) ∨
      (v = 0 ∧ x ∈ ([0x4F, 0x6F] : Bytes)) ∨
      (v = 1 ∧ x ∈ ([0x49, 0x69, 0x4C, 0x6C] : Bytes)))) ∧
  ((List.range 256).filter (fun n => (c32Rom (BitVec.ofNat 8 n)).isNone)).length = 196

/-- R201, R207: the UTF-8 split, where it succeeds, is the unique list of sequences of R207's table
whose concatenation is the string; it succeeds wherever there is one, and ends in InvalidCharacter
wherever there is none, so on overlong forms, surrogates and values above U+10FFFF too. -/
def Obligations.Utf8SplitIsTheUniqueSplit : Prop :=
  (∀ (s : Bytes) (gs : List Bytes), utf8Split s = .ok gs ↔ IsUtf8Split s gs) ∧
  ∀ s : Bytes, (¬ ∃ gs, IsUtf8Split s gs) → utf8Split s = .error .invalidCharacter

/-- R202: a tuple's value does not depend on the order its entries were decoded in. -/
def Obligations.TupleValueIgnoresEntryOrder : Prop :=
  ∀ l m : List (Bytes × Value), l.Perm m → (l.map Prod.fst).Nodup →
    l.foldl (fun acc e => putEntry e.1 e.2 acc) [] =
      m.foldl (fun acc e => putEntry e.1 e.2 acc) []

/-! ## The text codecs -/

/-- R135: Base58 is a bijection between byte sequences and strings over the alphabet. -/
def Obligations.Base58RoundTrips : Prop :=
  (∀ b : Bytes, b58Decode (b58Encode b) = .ok b) ∧
  (∀ s b : Bytes, b58Decode s = .ok b → b58Encode b = s) ∧
  (∀ b : Bytes, ∀ c ∈ b58Encode b, c ∈ b58Alphabet) ∧
  ∀ s : Bytes, (∀ c ∈ s, c ∈ b58Alphabet) → ∃ b, b58Decode s = .ok b

/-- R131: the long-division algorithm computes the Base58 encoding. Whatever bytes a pass has read, with
the next byte its accumulator fits in 14 bits and the quotient digit in a byte; and each pass divides
the number by 58. -/
def Obligations.Base58LongDivisionEncodes : Prop :=
  (∀ b : Bytes, b58EncodeAlg b = b58Encode b) ∧
  (∀ (num : List Nat) (x : Nat), x < 256 →
    (b58DivPass 0 num []).2 * 256 + x ≤ 14847 ∧
      ((b58DivPass 0 num []).2 * 256 + x) / 58 ≤ 255) ∧
  ∀ num : List Nat,
    ofDigits 256 (b58DivPass 0 num []).1 = ofDigits 256 num / 58 ∧
      (b58DivPass 0 num []).1.head? ≠ some 0 ∧
      (b58DivPass 0 num []).2 = ofDigits 256 num % 58

/-- R133: the multiply-and-accumulate algorithm computes the Base58 decoding, errors included. Whatever
bytes the inner loop has passed, with the next byte its sum fits in 14 bits and its carry is at most
57; and the accumulator never has a most significant zero byte. -/
def Obligations.Base58MultiplyAccumulateDecodes : Prop :=
  (∀ s : Bytes, b58DecodeAlg s = b58Decode s) ∧
  (∀ (v : Nat) (acc : List Nat) (x : Nat), v ≤ 57 → (∀ y ∈ acc, y < 256) → x < 256 →
    (b58MulAdd v acc).2 + x * 58 ≤ 14847 ∧ ((b58MulAdd v acc).2 + x * 58) / 256 ≤ 57) ∧
  ∀ (s : Bytes) (acc : List Nat), b58DecodeLoop [] s = .ok acc →
    acc.getLast? ≠ some 0 ∧
      ∃ d, lookupAll b58Rom s = some d ∧
        acc.reverse.map (BitVec.ofNat 8) = bytesMin (ofDigits 58 d)

/-- R138, its bound on the encoding's length, in whole numbers: with z leading zero bytes and m bytes
in all, L = length − z satisfies 58^(L−1) < 256^(m−z) unless L is 0. And its consequence for the
commands: no OutputOverflow of the three whose input is what R138 counts when OUT_BUF is as large as
R138 asks, and none of B58CHK_ENC when it is that large for the four bytes more that R136 encodes. -/
def Obligations.Base58LengthBound : Prop :=
  (∀ b : Bytes,
    (b58Encode b).length = lead b 0 ∨
      58 ^ ((b58Encode b).length - lead b 0 - 1) < 256 ^ (b.length - lead b 0)) ∧
  (∀ (i : Instr) (s t : State), i ∈ [Instr.b58Enc, .b58Dec, .b58chkDec] → s.engine = .busy →
    s.err = none → 13658 * s.params.inBufSize + 40000 ≤ 10000 * s.params.outBufSize →
    exec i s = .next t → t.err ≠ some .outputOverflow) ∧
  ∀ s t : State, s.engine = .busy → s.err = none →
    13658 * (s.params.inBufSize + 4) + 10000 ≤ 10000 * s.params.outBufSize →
    exec .b58chkEnc s = .next t → t.err ≠ some .outputOverflow

/-- R138's last claim as it stands, for every Base58 command. It does not hold of B58CHK_ENC, which
appends four bytes before it encodes (R136): see log entry 9. -/
def Obligations.Base58OverflowBoundAsWritten : Prop :=
  ∀ (i : Instr) (s t : State), i ∈ [Instr.b58Enc, .b58Dec, .b58chkEnc, .b58chkDec] →
    s.params.legal → s.engine = .busy → s.err = none →
    13658 * s.params.inBufSize + 40000 ≤ 10000 * s.params.outBufSize →
    exec i s = .next t → t.err ≠ some .outputOverflow

/-- R166: C32 decoding inverts encoding, and encoding what a string decodes to gives the string with
each byte replaced by the canonical symbol of its digit. -/
def Obligations.C32RoundTrips : Prop :=
  (∀ b : Bytes, c32Decode (c32Encode b) = .ok b) ∧
  ∀ s b : Bytes, c32Decode s = .ok b → c32Encode b = s.map c32Canonical

/-- R161: the bit-packing algorithm computes the C32 encoding, and its invariants hold before each byte
and within its step. -/
def Obligations.C32BitPackingEncodes : Prop :=
  (∀ b : Bytes, c32EncodeAlg b = c32Encode b) ∧
  ∀ b : Bytes,
    (b.foldl c32EncodeStep ⟨[], 0, 0⟩).carryBits ≤ 4 ∧
      (b.foldl c32EncodeStep ⟨[], 0, 0⟩).carry <
        2 ^ (b.foldl c32EncodeStep ⟨[], 0, 0⟩).carryBits ∧
      (∀ g ∈ (b.foldl c32EncodeStep ⟨[], 0, 0⟩).out, g < 32) ∧
      ∀ v : Byte, v.toNat >>> (8 - ((b.foldl c32EncodeStep ⟨[], 0, 0⟩).carryBits + 3)) < 2 ^ 7

/-- R164: the bit-unpacking algorithm computes the C32 decoding, errors included, and its accumulator
fits in 12 bits. -/
def Obligations.C32BitUnpackingDecodes : Prop :=
  (∀ s : Bytes, c32DecodeAlg s = c32Decode s) ∧
  ∀ (d : List Nat) (x : Nat), (∀ y ∈ d, y < 32) → x < 32 →
    (d.foldl c32DecodeStep ⟨[], 0, 0⟩).carryBits ≤ 7 ∧
      (d.foldl c32DecodeStep ⟨[], 0, 0⟩).carry +
        (x <<< (d.foldl c32DecodeStep ⟨[], 0, 0⟩).carryBits) < 2 ^ 12

/-- R175, its round trips: the checksummed form and the address form decode to what was encoded. -/
def Obligations.C32ChecksummedRoundTrips : Prop :=
  ∀ (v : Byte) (p : Bytes), v.toNat < 32 →
    c32CheckDecode (c32CheckEncode v p) = .ok (v.toNat, p) ∧
      c32AddressDecode (c32AddressEncode v p) = .ok (v.toNat, p)

/-- R175, its bounds on lengths. -/
def Obligations.C32LengthBounds : Prop :=
  (∀ b : Bytes,
    (c32Encode b).length ≤ lead b 0 + (8 * (b.length - lead b 0) + 4) / 5 ∧
      lead b 0 + (8 * (b.length - lead b 0) + 4) / 5 ≤ (8 * b.length + 4) / 5) ∧
  (∀ (v : Byte) (p : Bytes), (c32CheckEncode v p).length ≤ 1 + (8 * (p.length + 4) + 4) / 5) ∧
  ∀ b : Bytes, 4 ≤ b.length → 4 ≤ (c32Encode b).length

/-! ## Completion of the text commands -/

/-- R132, R136, R162: B58_ENC, B58CHK_ENC and C32_ENC complete with the string the spec's byte-array
algorithms compute, if it fits. -/
def Obligations.PlainEncodersComplete : Prop :=
  ∀ s : State, s.params.legal → s.latched.inLen.toNat ≤ s.params.inBufSize →
    ((b58EncodeAlg s.input).length ≤ s.params.outBufSize →
      ∃ t, exec .b58Enc s = .next t ∧ DoneBytes s t (b58EncodeAlg s.input)) ∧
    ((b58EncodeAlg (s.input ++ checksum s.input)).length ≤ s.params.outBufSize →
      ∃ t, exec .b58chkEnc s = .next t ∧
        DoneBytes s t (b58EncodeAlg (s.input ++ checksum s.input))) ∧
    ((c32EncodeAlg s.input).length ≤ s.params.outBufSize →
      ∃ t, exec .c32Enc s = .next t ∧ DoneBytes s t (c32EncodeAlg s.input))

/-- R134, R165: B58_DEC and C32_DEC complete on every string over their alphabets, with the byte
sequence that the string (for C32: its canonical form) is the encoding of, if it fits. -/
def Obligations.PlainDecodersComplete : Prop :=
  ∀ (s : State) (out : Bytes), s.params.legal →
    s.latched.inLen.toNat ≤ s.params.inBufSize → out.length ≤ s.params.outBufSize →
    (s.input = b58Encode out → ∃ t, exec .b58Dec s = .next t ∧ DoneBytes s t out) ∧
    ((∀ c ∈ s.input, (c32Rom c).isSome = true) → s.input.map c32Canonical = c32Encode out →
      ∃ t, exec .c32Dec s = .next t ∧ DoneBytes s t out)

/-- R137: B58CHK_DEC completes on every string that encodes a payload with its checksum, with the
payload. -/
def Obligations.Base58CheckDecoderCompletes : Prop :=
  ∀ (s : State) (p : Bytes), s.params.legal → s.latched.inLen.toNat ≤ s.params.inBufSize →
    p.length ≤ s.params.outBufSize → s.input = b58Encode (p ++ checksum p) →
    ∃ t, exec .b58chkDec s = .next t ∧ DoneBytes s t p

/-- R168, R169, R173: the three C32 check encoders complete for a version below 32, with the version
character, the packed payload and checksum, and the prefix byte or `S` in front. -/
def Obligations.C32CheckEncodersComplete : Prop :=
  ∀ (s : State) (v x : Byte) (text : Bytes), s.params.legal →
    s.latched.inLen.toNat ≤ s.params.inBufSize →
    v = s.latched.arg.extractLsb' 0 8 → v.toNat < 32 → x = s.latched.arg.extractLsb' 8 8 →
    text = c32Symbol v.toNat :: c32EncodeAlg (s.input ++ checksum (v :: s.input)) →
    (text.length ≤ s.params.outBufSize →
      ∃ t, exec .c32chkEnc s = .next t ∧ DoneBytes s t text) ∧
    (text.length + 1 ≤ s.params.outBufSize →
      (∃ t, exec .c32chkEncP s = .next t ∧ DoneBytes s t (x :: text)) ∧
      ∃ t, exec .c32addrEnc s = .next t ∧ DoneBytes s t (0x53 :: text))

/-- R171, R174: C32CHK_DEC completes on every string, in any case and spelling of its digits, whose
canonical form is a checksummed encoding, with the payload and the version; C32ADDR_DEC likewise
behind a first byte that is not examined. -/
def Obligations.C32CheckDecodersComplete : Prop :=
  ∀ (s : State) (v : Byte) (p text : Bytes), s.params.legal →
    s.latched.inLen.toNat ≤ s.params.inBufSize → p.length ≤ s.params.outBufSize →
    v.toNat < 32 → (∀ c ∈ text, (c32Rom c).isSome = true) →
    text.map c32Canonical = c32CheckEncode v p →
    (s.input = text →
      ∃ t, exec .c32chkDec s = .next t ∧ DoneVersioned s t p v.toNat) ∧
    ∀ tag : Byte, s.input = tag :: text →
      ∃ t, exec .c32addrDec s = .next t ∧ DoneVersioned s t p v.toNat

/-- R208, R209, with the grammars of R205 and R206: a name that matches completes and changes STATE
alone; any other ends in InvalidName. -/
def Obligations.NameChecksDecideTheGrammars : Prop :=
  ∀ s : State, s.engine = .busy → s.latched.inLen.toNat ≤ s.params.inBufSize →
    (ClarityNameGrammar s.input → ∃ t, exec .cnCheck s = .next t ∧ DoneCheck s t) ∧
    (¬ ClarityNameGrammar s.input →
      ∃ t, exec .cnCheck s = .next t ∧ FailedWith s t .invalidName) ∧
    (ContractNameGrammar s.input → ∃ t, exec .ctnCheck s = .next t ∧ DoneCheck s t) ∧
    (¬ ContractNameGrammar s.input →
      ∃ t, exec .ctnCheck s = .next t ∧ FailedWith s t .invalidName)

/-! ## Failures of the text commands -/

/-- R134, R137, R165: one byte outside the alphabet anywhere in the input ends B58_DEC, B58CHK_DEC and
C32_DEC in InvalidCharacter, whatever else is wrong with the input. -/
def Obligations.PlainDecodersRejectForeignBytes : Prop :=
  ∀ s : State, s.engine = .busy → s.latched.inLen.toNat ≤ s.params.inBufSize →
    ((∃ c ∈ s.input, c ∉ b58Alphabet) →
      ∃ t u, exec .b58Dec s = .next t ∧ FailedWith s t .invalidCharacter ∧
        exec .b58chkDec s = .next u ∧ FailedWith s u .invalidCharacter) ∧
    ((∃ c ∈ s.input, ∀ row ∈ c32Rows, c ∉ row) →
      ∃ t, exec .c32Dec s = .next t ∧ FailedWith s t .invalidCharacter)

/-- R137, R170, R172, R285: the order of the checksummed decoders' own errors. -/
def Obligations.ChecksumDecodersReportInOrder : Prop :=
  ∀ s : State, s.engine = .busy → s.latched.inLen.toNat ≤ s.params.inBufSize →
    (∀ d : Bytes, s.input = b58Encode d →
      (d.length < 4 → ∃ t, exec .b58chkDec s = .next t ∧ FailedWith s t .tooShort) ∧
      ∀ p c : Bytes, d = p ++ c → c.length = 4 → checksum p ≠ c →
        ∃ t, exec .b58chkDec s = .next t ∧ FailedWith s t .checksumMismatch) ∧
    (s.input.length < 2 → ∃ t, exec .c32chkDec s = .next t ∧ FailedWith s t .tooShort) ∧
    (s.input.length ≤ 5 → ∃ t, exec .c32addrDec s = .next t ∧ FailedWith s t .tooShort) ∧
    (∀ (i : Instr) (text : Bytes),
      (i = .c32chkDec ∧ s.input = text ∧ 2 ≤ text.length) ∨
        (i = .c32addrDec ∧ s.input.drop 1 = text ∧ 5 ≤ text.length) →
      ((∃ c ∈ text, c32Rom c = none) →
        ∃ t, exec i s = .next t ∧ FailedWith s t .invalidCharacter) ∧
      ∀ (first : Byte) (rest body : Bytes), text = first :: rest →
        (∀ c ∈ text, (c32Rom c).isSome = true) → rest.map c32Canonical = c32Encode body →
        (body.length < 4 → ∃ t, exec i s = .next t ∧ FailedWith s t .tooShort) ∧
        ∀ p c : Bytes, body = p ++ c → c.length = 4 →
          checksum (BitVec.ofNat 8 ((c32Rom first).getD 0) :: p) ≠ c →
          ∃ t, exec i s = .next t ∧ FailedWith s t .checksumMismatch)

/-! ## The value decoder -/

/-- R250, R255: VAL_DEC completes wherever the decoder accepts the value at L.IN_OFF and its records fit:
the records in OUT_BUF, NODE_COUNT, CURSOR, at least one node, and a cursor past the start and within
the input. Each record has R255's fields at R255's offsets. -/
def Obligations.ValDecCompletes : Prop :=
  ∀ (cap : Bool) (s : State) (nodes : List Node) (q : Nat), s.params.legal →
    s.latched.inLen.toNat ≤ s.params.inBufSize →
    s.latched.inOff.toNat ≤ s.latched.inLen.toNat →
    decodeTop s.input s.latched.inOff.toNat = .ok (nodes, q) →
    32 * nodes.length ≤ s.params.outBufSize →
    ∃ t, exec (.valDec cap) s = .next t ∧ DoneRecords s t (nodes.map (emitNode cap)) q ∧
      (1 ≤ nodes.length ∧ s.latched.inOff.toNat < q ∧ q ≤ s.latched.inLen.toNat) ∧
      ∀ (k : Nat) (n : Node), nodes[k]? = some n →
        RecordOf cap s.input n (fun j => t.outByte (32 * k + j))

/-- R248, R261, R285: VAL_DEC ends with the decoder's own error, even where the records would not have
fitted; and in OutputOverflow where the decoder accepts the value and its records do not fit. -/
def Obligations.ValDecReportsDecodeErrorsBeforeOverflow : Prop :=
  ∀ (cap : Bool) (s : State), s.engine = .busy →
    s.latched.inLen.toNat ≤ s.params.inBufSize →
    s.latched.inOff.toNat ≤ s.latched.inLen.toNat →
    (∀ e, decodeTop s.input s.latched.inOff.toNat = .error e →
      ∃ t, exec (.valDec cap) s = .next t ∧ FailedWith s t e) ∧
    ∀ nodes q, decodeTop s.input s.latched.inOff.toNat = .ok (nodes, q) →
      s.params.outBufSize < 32 * nodes.length →
      ∃ t, exec (.valDec cap) s = .next t ∧ FailedWith s t .outputOverflow

/-- R231 to R235, R238, R240: the wire form of every variant without nested values, at any place of the
input and any depth, and the node it gives; and how a value fails at its prefix or in its own fixed
fields: a missing prefix, the prefixes 0x0F to 0xFF, a short Int, UInt or principal field, and every
way a ContractPrincipal's name field can fail. -/
def Obligations.LeafValuesDecode : Prop :=
  ∀ (pre post : Bytes) (levels d : Nat),
    (∀ r : Bytes, r.length = 16 →
      decodeValue (pre ++ 0x00 :: r ++ post) (levels + 1) d pre.length =
        .ok ([⟨.int, d, none, pre.length, pre.length + 17, .raw r⟩], pre.length + 17) ∧
      decodeValue (pre ++ 0x01 :: r ++ post) (levels + 1) d pre.length =
        .ok ([⟨.uint, d, none, pre.length, pre.length + 17, .raw r⟩], pre.length + 17)) ∧
    (∀ data : Bytes, data.length ≤ 1048576 →
      decodeValue (pre ++ 0x02 :: (beField 4 data.length ++ data) ++ post) (levels + 1) d
          pre.length =
        .ok ([⟨.buffer, d, none, pre.length, pre.length + 5 + data.length,
          .data data.length (pre.length + 5)⟩], pre.length + 5 + data.length) ∧
      decodeValue (pre ++ 0x0D :: (beField 4 data.length ++ data) ++ post) (levels + 1) d
          pre.length =
        .ok ([⟨.stringAscii, d, none, pre.length, pre.length + 5 + data.length,
          .data data.length (pre.length + 5)⟩], pre.length + 5 + data.length) ∧
      decodeValue (pre ++ 0x0E :: (beField 4 data.length ++ data) ++ post) (levels + 1) d
          pre.length =
        (match utf8Split data with
          | .error _ => .error .invalidCharacter
          | .ok groups =>
            .ok ([⟨.stringUtf8, d, none, pre.length, pre.length + 5 + data.length,
              .utf8 data.length (pre.length + 5) groups.length⟩],
              pre.length + 5 + data.length))) ∧
    (decodeValue (pre ++ 0x03 :: post) (levels + 1) d pre.length =
        .ok ([⟨.boolTrue, d, none, pre.length, pre.length + 1, .empty⟩], pre.length + 1) ∧
      decodeValue (pre ++ 0x04 :: post) (levels + 1) d pre.length =
        .ok ([⟨.boolFalse, d, none, pre.length, pre.length + 1, .empty⟩], pre.length + 1) ∧
      decodeValue (pre ++ 0x09 :: post) (levels + 1) d pre.length =
        .ok ([⟨.optionalNone, d, none, pre.length, pre.length + 1, .empty⟩], pre.length + 1)) ∧
    (∀ (version : Byte) (hash : Bytes), hash.length = 20 →
      decodeValue (pre ++ 0x05 :: version :: hash ++ post) (levels + 1) d pre.length =
        .ok ([⟨.standardPrincipal, d, none, pre.length, pre.length + 22,
          .principal version (pre.length + 2)⟩], pre.length + 22) ∧
      ∀ name : Bytes, name.length ≤ 128 →
        decodeValue
            (pre ++ 0x06 :: version :: (hash ++ BitVec.ofNat 8 name.length :: name) ++ post)
            (levels + 1) d pre.length =
          (if isClarityName name then
            .ok ([⟨.contractPrincipal, d, none, pre.length, pre.length + 23 + name.length,
              .contract version (pre.length + 2) (pre.length + 23) name.length⟩],
              pre.length + 23 + name.length)
          else .error .invalidName)) ∧
    (decodeValue pre (levels + 1) d pre.length = .error .truncatedInput ∧
      (∀ b : Byte, 0x0F ≤ b.toNat →
        decodeValue (pre ++ b :: post) (levels + 1) d pre.length = .error .badTypePrefix) ∧
      (∀ r : Bytes, r.length < 16 → ∀ tag ∈ ([0x00, 0x01] : Bytes),
        decodeValue (pre ++ tag :: r) (levels + 1) d pre.length = .error .truncatedInput) ∧
      (∀ r : Bytes, r.length < 21 → ∀ tag ∈ ([0x05, 0x06] : Bytes),
        decodeValue (pre ++ tag :: r) (levels + 1) d pre.length = .error .truncatedInput)) ∧
    ∀ principal : Bytes, principal.length = 21 →
      decodeValue (pre ++ 0x06 :: principal) (levels + 1) d pre.length = .error .truncatedInput ∧
      (∀ k : Byte, k.toNat = 0 ∨ 128 < k.toNat →
        decodeValue (pre ++ 0x06 :: (principal ++ k :: post)) (levels + 1) d pre.length =
          .error .invalidName) ∧
      ∀ (k : Byte) (name : Bytes), k.toNat ≤ 128 → name.length < k.toNat →
        decodeValue (pre ++ 0x06 :: (principal ++ k :: name)) (levels + 1) d pre.length =
          .error .truncatedInput

/-- R230 to R236, R241, R255, R260: decoding inverts the model's encoder of values. Its encoding of any
value the wire format can carry, at any place of the input and whatever follows it, decodes to records
whose Rebuild is that value, and the cursor stops at its end. The encoder is the model's choice (log
entry 16: R5 leaves encoding out), and so is the order of a tuple's entries in a value and in its
encoding (log entry 15): Ints with other high bytes, which R232 accepts, and tuples in another wire
order are not among its encodings. -/
def Obligations.DecodingInvertsTheWireFormat : Prop :=
  ∀ (v : Value) (pre post : Bytes) (cap : Bool), fitsWire 16 v = true →
    (pre ++ wireValue v ++ post).length ≤ 2 ^ 24 →
    ∃ nodes,
      decodeTop (pre ++ wireValue v ++ post) pre.length =
        .ok (nodes, pre.length + (wireValue v).length) ∧
      rebuild (fun a => (pre ++ wireValue v ++ post).getD a 0) (nodes.map (emitNode cap)) 17 0 =
        some (v, nodes.length)

/-- R241, R242: sixteen one-child wrappers around a leaf decode, each at its own depth; seventeen fail
with DepthExceeded, whatever follows them, even nothing. -/
def Obligations.DepthBoundIsSixteen : Prop :=
  ∀ pre wrappers post : Bytes, (∀ b ∈ wrappers, b ∈ ([0x07, 0x08, 0x0A] : Bytes)) →
    (wrappers.length = 17 →
      decodeTop (pre ++ wrappers ++ post) pre.length = .error .depthExceeded) ∧
    (wrappers.length ≤ 16 →
      ∃ nodes,
        decodeTop (pre ++ wrappers ++ 0x03 :: post) pre.length =
          .ok (nodes, pre.length + wrappers.length + 1) ∧
        nodes.map Node.depth = List.range (wrappers.length + 1))

/-- R239, R240, R245: a length or count above MAX_DECL fails with OversizeDeclaration whatever follows
it, and one up to MAX_DECL, itself included, passes the check whatever follows it; so a Buffer or a
string that declares more than follows is then truncated, whatever its bytes are. A length or count
field that is cut off is truncated. -/
def Obligations.OversizeIsDecidedBeforeTheData : Prop :=
  ∀ (pre post w : Bytes) (tag : Byte) (levels d : Nat),
    tag ∈ ([0x02, 0x0B, 0x0C, 0x0D, 0x0E] : Bytes) →
    (w.length < 4 →
      decodeValue (pre ++ tag :: w) (levels + 1) d pre.length = .error .truncatedInput) ∧
    (w.length = 4 →
      (1048576 < be w →
        decodeValue (pre ++ tag :: w ++ post) (levels + 1) d pre.length =
          .error .oversizeDeclaration) ∧
      (be w ≤ 1048576 →
        readSize (pre ++ tag :: w ++ post) (pre.length + 1) = .ok (be w, pre.length + 5)) ∧
      (be w ≤ 1048576 → tag ∈ ([0x02, 0x0D, 0x0E] : Bytes) → post.length < be w →
        decodeValue (pre ++ tag :: w ++ post) (levels + 1) d pre.length =
          .error .truncatedInput))

/-- R238, R240, R241, R243, R246: a value with nested values fails where its decode first goes wrong, with
the error found there. A one-child value fails with its child's error. A list fails with the error of
its first element that does not decode, and with TruncatedInput if the input ends before its count. A
tuple, after any number of entries that decode, reads the next key before the depth of its value is
checked: a name length of 0 or above 128, a key that is no ClarityName and a key that repeats any
earlier one of the tuple are InvalidName, a cut off name field is TruncatedInput, and behind a good key
the error is the value's, DepthExceeded where no level is left. -/
def Obligations.ContainersFailAtTheirFirstBadPart : Prop :=
  ∀ (inp : Bytes) (levels d start : Nat),
    (∀ e, ∀ tag ∈ ([0x07, 0x08, 0x0A] : Bytes), inp[start]? = some tag →
      decodeValue inp levels (d + 1) (start + 1) = .error e →
      decodeValue inp (levels + 1) d start = .error e) ∧
    ∀ c q : Nat, slice inp (start + 1) 4 = beField 4 c → c ≤ 1048576 →
      (inp[start]? = some 0x0B → ∀ k, k < c →
        ValuesInTurn inp levels (d + 1) k (start + 5) q →
        (∀ e, decodeValue inp levels (d + 1) q = .error e →
          decodeValue inp (levels + 1) d start = .error e) ∧
        (q = inp.length → 1 ≤ levels →
          decodeValue inp (levels + 1) d start = .error .truncatedInput)) ∧
      (inp[start]? = some 0x0C → ∀ keys : List Bytes, keys.length < c → keys.Nodup →
        EntriesInTurn inp levels (d + 1) keys (start + 5) q →
        (q = inp.length → decodeValue inp (levels + 1) d start = .error .truncatedInput) ∧
        (∀ k : Byte, inp[q]? = some k → k.toNat = 0 ∨ 128 < k.toNat →
          decodeValue inp (levels + 1) d start = .error .invalidName) ∧
        (∀ (k : Byte) (name : Bytes), inp.drop q = k :: name → k.toNat ≤ 128 →
          name.length < k.toNat →
          decodeValue inp (levels + 1) d start = .error .truncatedInput) ∧
        ∀ key rest : Bytes, inp.drop q = wireName key ++ rest → 1 ≤ key.length →
          key.length ≤ 128 →
          (isClarityName key = false →
            decodeValue inp (levels + 1) d start = .error .invalidName) ∧
          (key ∈ keys → decodeValue inp (levels + 1) d start = .error .invalidName) ∧
          (isClarityName key = true → key ∉ keys →
            ∀ e, decodeValue inp levels (d + 1) (q + 1 + key.length) = .error e →
              decodeValue inp (levels + 1) d start = .error e))

/-- R240, R247, R253: a decode that succeeds at p ends at a q with p < q ≤ the input's length, gives
between one and q − p nodes, the first at depth 0 and each other at depth 1 to 16, and depends on
the bytes from p up to q alone. -/
def Obligations.DecoderConsumesExactlyItsBytes : Prop :=
  ∀ (inp : Bytes) (p : Nat) (nodes : List Node) (q : Nat), decodeTop inp p = .ok (nodes, q) →
    (p < q ∧ q ≤ inp.length) ∧ (1 ≤ nodes.length ∧ nodes.length ≤ q - p) ∧
    (nodes.map Node.depth).head? = some 0 ∧
    (∀ n ∈ nodes.drop 1, 1 ≤ n.depth ∧ n.depth ≤ 16) ∧
    ∀ other : Bytes, q ≤ other.length → slice other p (q - p) = slice inp p (q - p) →
      decodeTop other p = .ok (nodes, q)

/-- R55, R240: the decoder reads nothing before its start cursor: two inputs of one length that agree
from there on give the same result, an error included. -/
def Obligations.DecoderReadsNothingBeforeItsStart : Prop :=
  ∀ (inp other : Bytes) (start : Nat), inp.length = other.length →
    inp.drop start = other.drop start → decodeTop inp start = decodeTop other start

/-- R256, R259: decoding again from a node's span start, at the node's depth, gives the node and its
subtree again (the nodes after it up to the first that is no deeper) and ends at its span end. -/
def Obligations.SpansDecodeToTheirSubtrees : Prop :=
  ∀ (inp : Bytes) (start q k : Nat) (nodes : List Node) (node : Node),
    decodeTop inp start = .ok (nodes, q) → nodes[k]? = some node →
    decodeValue inp (17 - node.depth) node.depth node.spanStart =
      .ok (⟨node.tag, node.depth, none, node.spanStart, node.spanEnd, node.payload⟩ ::
        (nodes.drop (k + 1)).takeWhile (fun x => node.depth < x.depth), node.spanEnd)

/-- R258: CAP changes nothing but the span bytes 8 to 15 and bit 1 of FLAGS: the outcome, the number of
records, the cursor and every other byte are the same; without CAP the span bytes are 0; with it
record 0's span is the value's, and every record's span is its node's. -/
def Obligations.CaptureChangesOnlySpanFields : Prop :=
  (∀ (inp : Bytes) (start : Nat) (e : CmdError),
    fValDec true start inp = .error e ↔ fValDec false start inp = .error e) ∧
  ∀ (inp : Bytes) (start q : Nat) (rs : List Bytes),
    fValDec true start inp = .ok (.records rs q) →
    ∃ plain, fValDec false start inp = .ok (.records plain q) ∧ plain.length = rs.length ∧
      (∃ r, rs[0]? = some r ∧ slice r 8 8 = beField 4 start ++ beField 4 q) ∧
      (∃ nodes, decodeTop inp start = .ok (nodes, q) ∧ nodes.length = rs.length ∧
        ∀ (k : Nat) (n : Node) (r : Bytes), nodes[k]? = some n → rs[k]? = some r →
          slice r 8 8 = beField 4 n.spanStart ++ beField 4 n.spanEnd) ∧
      ∀ (k : Nat) (r r0 : Bytes), rs[k]? = some r → plain[k]? = some r0 →
        (r.length = 32 ∧ r0.length = 32) ∧ slice r0 8 8 = List.replicate 8 0 ∧
        (∀ j, j ≠ 2 → j < 8 ∨ 16 ≤ j → r[j]? = r0[j]?) ∧
        r.getD 2 0 = r0.getD 2 0 ||| 2 ∧ r0.getD 2 0 &&& 2 = 0

/-- R260: after a VAL_DEC that succeeded, Rebuild of the committed records over the unchanged IN_BUF
gives exactly one value and uses every record. -/
def Obligations.CommittedRecordsRebuildToOneValue : Prop :=
  ∀ (cap : Bool) (s t : State), Inv s → s.engine = .busy → exec (.valDec cap) s = .next t →
    t.engine = .done → ∃ v, t.decodedValue = some (v, t.nodeCount.toNat)
end

