-- ==== Sys2Proof/Laws/Memory.lean ====
section
/-! SUPPORT. The laws of the buffers: read after write, the canonical form is kept by every operation,
and what the cells of a byte sequence read as. -/

namespace Sys2Proof.Machine

@[simp] theorem Memory.read_nil (a : Nat) : Memory.read [] a = none := rfl

theorem Memory.read_cons (k : Nat) (v : Byte) (m : Memory) (a : Nat) :
    Memory.read ((k, v) :: m) a = if k = a then some v else Memory.read m a := rfl

/-- A write puts its byte where it says. -/
@[simp] theorem Memory.read_write_same (m : Memory) (a : Nat) (b : Byte) :
    Memory.read (Memory.write m a b) a = some b := by
  induction m with
  | nil => simp [Memory.write, Memory.read]
  | cons c m ih =>
    obtain ⟨k, v⟩ := c
    simp only [Memory.write]
    split
    · simp [Memory.read]
    · split
      · simp [Memory.read]
      · rename_i h
        simp [Memory.read, Ne.symm h, ih]

/-- A write leaves every other offset alone. -/
theorem Memory.read_write_other (m : Memory) (a x : Nat) (b : Byte) (h : x ≠ a) :
    Memory.read (Memory.write m a b) x = Memory.read m x := by
  induction m with
  | nil => simp [Memory.write, Memory.read, Ne.symm h]
  | cons c m ih =>
    obtain ⟨k, v⟩ := c
    simp only [Memory.write]
    split
    · simp [Memory.read, Ne.symm h]
    · split
      · rename_i hk
        subst hk
        simp [Memory.read, Ne.symm h]
      · simp only [Memory.read, ih]

/-- What a cell of a written buffer can be: the one written, or one that stood there. -/
theorem Memory.mem_write {m : Memory} {a : Nat} {b : Byte} {c : Host.Cell}
    (h : c ∈ Memory.write m a b) : c = (a, b) ∨ c ∈ m := by
  induction m with
  | nil => simpa [Memory.write] using h
  | cons d m ih =>
    obtain ⟨k, v⟩ := d
    simp only [Memory.write] at h
    split at h
    · simpa using h
    · split at h
      · simp only [List.mem_cons] at h ⊢
        tauto
      · simp only [List.mem_cons] at h ⊢
        rcases h with h | h
        · tauto
        · rcases ih h with h | h <;> tauto

/-- The canonical form as a fact about lists: offsets strictly rising. -/
theorem Memory.wf_cons (k : Nat) (v : Byte) (m : Memory) :
    Memory.wf ((k, v) :: m) = true ↔ (∀ c ∈ m, k < c.1) ∧ Memory.wf m = true := by
  simp [Memory.wf]

@[simp] theorem Memory.wf_nil : Memory.wf [] = true := rfl

/-- Writing keeps the canonical form. -/
theorem Memory.wf_write (m : Memory) (a : Nat) (b : Byte) (h : Memory.wf m = true) :
    Memory.wf (Memory.write m a b) = true := by
  induction m with
  | nil => simp [Memory.write, Memory.wf]
  | cons d m ih =>
    obtain ⟨k, v⟩ := d
    obtain ⟨hk, hm⟩ := (Memory.wf_cons k v m).1 h
    simp only [Memory.write]
    split
    · rename_i ha
      refine (Memory.wf_cons _ _ _).2 ⟨?_, h⟩
      intro c hc
      rcases List.mem_cons.1 hc with rfl | hc
      · exact ha
      · exact lt_trans ha (hk c hc)
    · split
      · rename_i ha
        subst ha
        exact (Memory.wf_cons _ _ _).2 ⟨hk, hm⟩
      · rename_i h1 h2
        refine (Memory.wf_cons _ _ _).2 ⟨?_, ih hm⟩
        intro c hc
        rcases Memory.mem_write hc with rfl | hc
        · exact lt_of_le_of_ne (not_lt.1 h1) (Ne.symm h2)
        · exact hk c hc

/-- A cell of a byte sequence lies at or past its start. -/
theorem Memory.cells_ge {c : Host.Cell} : ∀ {out : Bytes} {a : Nat},
    c ∈ Memory.cells a out → a ≤ c.1 ∧ c.1 < a + out.length
  | [], _, h => by simp [Memory.cells] at h
  | b :: rest, a, h => by
    simp only [Memory.cells, List.mem_cons] at h
    rcases h with rfl | h
    · simp
    · have := Memory.cells_ge h
      simp only [List.length_cons]
      omega

/-- The cells of a byte sequence have the canonical form. -/
theorem Memory.wf_cells : ∀ (out : Bytes) (a : Nat), Memory.wf (Memory.cells a out) = true
  | [], _ => rfl
  | b :: rest, a => by
    refine (Memory.wf_cons _ _ _).2 ⟨?_, Memory.wf_cells rest (a + 1)⟩
    intro c hc
    have := (Memory.cells_ge hc).1
    omega

/-- Reading the cells of a byte sequence gives its bytes. -/
theorem Memory.read_cells : ∀ (out : Bytes) (a x : Nat),
    Memory.read (Memory.cells a out) (a + x) = out[x]?
  | [], a, x => by simp [Memory.cells]
  | b :: rest, a, 0 => by simp [Memory.cells, Memory.read]
  | b :: rest, a, x + 1 => by
    have := Memory.read_cells rest (a + 1) x
    rw [show a + 1 + x = a + (x + 1) by omega] at this
    simp [Memory.cells, Memory.read, this]

/-- Reading the cells of a byte sequence that starts at offset 0. -/
@[simp] theorem Memory.read_cells_zero (out : Bytes) (x : Nat) :
    Memory.read (Memory.cells 0 out) x = out[x]? := by
  simpa using Memory.read_cells out 0 x

/-- The offsets of the cells of a byte sequence. -/
theorem Memory.cells_offsets : ∀ (out : Bytes) (a : Nat),
    (Memory.cells a out).map Prod.fst = List.range' a out.length
  | [], _ => rfl
  | b :: rest, a => by
    simp [Memory.cells, Memory.cells_offsets rest (a + 1), List.range'_succ]

/-- The offsets of the cells from 0 on are all those below the length. -/
theorem Memory.cells_offsets_zero (out : Bytes) :
    (Memory.cells 0 out).map Prod.fst = List.range out.length := by
  rw [Memory.cells_offsets, List.range_eq_range']

/-- Both buffers of the reset state have the canonical form. -/
theorem Memory.wf_reset :
    Memory.wf State.reset.inBuf = true ∧ Memory.wf State.reset.outBuf = true := ⟨rfl, rfl⟩

end Sys2Proof.Machine
end

