-- ==== Sys2Proof/Laws/Primitives.lean ====
section
/-! SUPPORT. Small laws of the number and byte-sequence helpers, the cursor primitive and the hash. -/

namespace Sys2Proof.Machine

@[simp] theorem be_nil : be [] = 0 := rfl

/-- R100's equation for `be`. -/
theorem be_append_singleton (s : Bytes) (b : Byte) : be (s ++ [b]) = 256 * be s + b.toNat := by
  simp [be]

@[simp] theorem be_singleton (b : Byte) : be [b] = b.toNat := by simp [be]

/-- `be` from any starting value. -/
theorem foldl_be (s : Bytes) (n : Nat) :
    s.foldl (fun n b => 256 * n + b.toNat) n = n * 256 ^ s.length + be s := by
  induction s generalizing n with
  | nil => simp
  | cons b s ih =>
    simp only [List.foldl_cons, List.length_cons, be]
    rw [ih, ih (256 * 0 + b.toNat)]
    ring

theorem be_cons (b : Byte) (s : Bytes) : be (b :: s) = b.toNat * 256 ^ s.length + be s := by
  simpa [be] using foldl_be s (256 * 0 + b.toNat)

theorem be_append (s t : Bytes) : be (s ++ t) = be s * 256 ^ t.length + be t := by
  simpa [be] using foldl_be t (be s)

/-- A byte sequence's value has at most eight bits a byte. -/
theorem be_lt (s : Bytes) : be s < 256 ^ s.length := by
  induction s with
  | nil => simp
  | cons b s ih =>
    rw [be_cons, List.length_cons, pow_succ]
    have hb : b.toNat < 256 := b.isLt
    calc b.toNat * 256 ^ s.length + be s < b.toNat * 256 ^ s.length + 256 ^ s.length := by omega
      _ = (b.toNat + 1) * 256 ^ s.length := by ring
      _ ≤ 256 * 256 ^ s.length := Nat.mul_le_mul_right _ hb
      _ = 256 ^ s.length * 256 := by ring

@[simp] theorem beField_length (w v : Nat) : (beField w v).length = w := by
  induction w with
  | zero => rfl
  | succ w ih => simp [beField, ih]

/-- A big-endian field reads back as the value, up to its width. -/
theorem be_beField (w v : Nat) : be (beField w v) = v % 256 ^ w := by
  induction w with
  | zero => simp [beField, Nat.mod_one]
  | succ w ih =>
    rw [beField, be_cons, ih, beField_length, BitVec.toNat_ofNat]
    have h : v % (256 ^ w * 256) = v % 256 ^ w + 256 ^ w * (v / 256 ^ w % 256) := Nat.mod_mul
    rw [pow_succ (256 : Nat) w, h, mul_comm]
    exact Nat.add_comm _ _

@[simp] theorem slice_zero (s : Bytes) (off : Nat) : slice s off 0 = [] := by simp [slice]

theorem slice_length (s : Bytes) (off n : Nat) (h : off + n ≤ s.length) :
    (slice s off n).length = n := by
  simp [slice]; omega

/-- The bytes of a part in the middle of a sequence. -/
theorem slice_middle (a b c : Bytes) : slice (a ++ b ++ c) a.length b.length = b := by
  simp [slice, List.append_assoc]

/-- Everything `Take` can answer (R111). -/
theorem takeBytes_cases (inp : Bytes) (p n : Nat) :
    (p + n ≤ inp.length ∧ takeBytes inp p n = .ok (slice inp p n, p + n)) ∨
      (inp.length < p + n ∧ takeBytes inp p n = .error .truncatedInput) := by
  unfold takeBytes
  by_cases h : inp.length < p + n
  · exact .inr ⟨h, by simp [h]⟩
  · exact .inl ⟨by omega, by simp [h]⟩

/-- If `Take` answers, it answers the bytes at the cursor and advances past them (R111). -/
theorem takeBytes_ok {inp : Bytes} {p n q : Nat} {b : Bytes} (h : takeBytes inp p n = .ok (b, q)) :
    p + n ≤ inp.length ∧ b = slice inp p n ∧ q = p + n ∧ b.length = n := by
  rcases takeBytes_cases inp p n with ⟨hle, he⟩ | ⟨_, he⟩
  · rw [he] at h
    simp only [Except.ok.injEq, Prod.mk.injEq] at h
    obtain ⟨rfl, rfl⟩ := h
    exact ⟨hle, rfl, rfl, slice_length inp p n hle⟩
  · rw [he] at h
    cases h

/-- If `Take` fails, it is TruncatedInput (R111, R240). -/
theorem takeBytes_error {inp : Bytes} {p n : Nat} {e : CmdError}
    (h : takeBytes inp p n = .error e) : e = .truncatedInput ∧ inp.length < p + n := by
  rcases takeBytes_cases inp p n with ⟨_, he⟩ | ⟨hlt, he⟩
  · rw [he] at h
    cases h
  · rw [he] at h
    exact ⟨(Except.error.inj h).symm, hlt⟩

@[simp] theorem lookupAll_nil (rom : Byte → Option Nat) : lookupAll rom [] = some [] := rfl

/-- A lookup of a whole string succeeds exactly when it does byte by byte. -/
theorem lookupAll_cons (rom : Byte → Option Nat) (b : Byte) (s : Bytes) :
    lookupAll rom (b :: s) = (rom b).bind (fun v => (lookupAll rom s).map (v :: ·)) := by
  simp only [lookupAll]
  cases rom b <;> cases lookupAll rom s <;> rfl

/-- A lookup that succeeds gives one digit per byte. -/
theorem lookupAll_length {rom : Byte → Option Nat} : ∀ {s : Bytes} {d : List Nat},
    lookupAll rom s = some d → d.length = s.length
  | [], d, h => by cases h; rfl
  | b :: s, d, h => by
    rw [lookupAll_cons] at h
    cases hb : rom b with
    | none => simp [hb] at h
    | some v =>
      cases hs : lookupAll rom s with
      | none => simp [hb, hs] at h
      | some vs =>
        simp only [hb, hs, Option.map_some, Option.bind_some, Option.some.injEq] at h
        subst h
        simp [lookupAll_length hs]

/-- A lookup fails exactly when some byte is INVALID. -/
theorem lookupAll_eq_none {rom : Byte → Option Nat} (s : Bytes) :
    lookupAll rom s = none ↔ ∃ c ∈ s, rom c = none := by
  induction s with
  | nil => simp
  | cons b s ih =>
    rw [lookupAll_cons]
    cases hb : rom b with
    | none => simp [hb]
    | some v =>
      cases hs : lookupAll rom s with
      | none =>
        have := ih.1 hs
        simp [hb, this]
      | some vs =>
        have : ¬ ∃ c ∈ s, rom c = none := fun h => by simp [ih.2 h] at hs
        simpa [hb] using this

@[simp] theorem sha256_length (m : Bytes) : (sha256 m).length = 32 := by
  simp [sha256, ShaState.digest]

@[simp] theorem checksum_length (m : Bytes) : (checksum m).length = 4 := by
  simp [checksum, checksumLen]

end Sys2Proof.Machine
end

