-- ==== Sys2Proof/Laws/State.lean ====
section
/-! SUPPORT. What each named update of the state does to each field, one lemma per field, so that no
proof unfolds a record update. -/

namespace Sys2Proof.Machine

/-! ### `start`: START (R41) -/

@[simp] theorem State.start_ie (s : State) : (s.start).ie = s.ie := rfl
@[simp] theorem State.start_cmd (s : State) : (s.start).cmd = s.cmd := rfl
@[simp] theorem State.start_arg (s : State) : (s.start).arg = s.arg := rfl
@[simp] theorem State.start_inLen (s : State) : (s.start).inLen = s.inLen := rfl
@[simp] theorem State.start_inOff (s : State) : (s.start).inOff = s.inOff := rfl
@[simp] theorem State.start_engine (s : State) : (s.start).engine = .busy := rfl
@[simp] theorem State.start_err (s : State) : (s.start).err = none := rfl
@[simp] theorem State.start_outLen (s : State) : (s.start).outLen = 0 := rfl
@[simp] theorem State.start_cursor (s : State) : (s.start).cursor = 0 := rfl
@[simp] theorem State.start_nodeCount (s : State) : (s.start).nodeCount = 0 := rfl
@[simp] theorem State.start_versionOut (s : State) : (s.start).versionOut = 0 := rfl
@[simp] theorem State.start_latched (s : State) :
    (s.start).latched = ⟨s.cmd, s.arg, s.inLen, s.inOff⟩ := rfl
@[simp] theorem State.start_inBuf (s : State) : (s.start).inBuf = s.inBuf := rfl
@[simp] theorem State.start_outBuf (s : State) : (s.start).outBuf = [] := rfl
@[simp] theorem State.start_params (s : State) : (s.start).params = s.params := rfl
@[simp] theorem State.start_pending (s : State) : (s.start).pending = s.pending := rfl
@[simp] theorem State.start_responses (s : State) : (s.start).responses = s.responses := rfl
@[simp] theorem State.start_waitLeft (s : State) :
    (s.start).waitLeft = Config.latency s.startCount := rfl
@[simp] theorem State.start_startCount (s : State) : (s.start).startCount = s.startCount + 1 := rfl
@[simp] theorem State.start_resetCount (s : State) : (s.start).resetCount = s.resetCount := rfl
@[simp] theorem State.start_freeCount (s : State) : (s.start).freeCount = s.freeCount := rfl

/-! ### `ack`: ACK (R42) -/

@[simp] theorem State.ack_ie (s : State) : (s.ack).ie = s.ie := rfl
@[simp] theorem State.ack_cmd (s : State) : (s.ack).cmd = s.cmd := rfl
@[simp] theorem State.ack_arg (s : State) : (s.ack).arg = s.arg := rfl
@[simp] theorem State.ack_inLen (s : State) : (s.ack).inLen = s.inLen := rfl
@[simp] theorem State.ack_inOff (s : State) : (s.ack).inOff = s.inOff := rfl
@[simp] theorem State.ack_engine (s : State) : (s.ack).engine = .idle := rfl
@[simp] theorem State.ack_err (s : State) : (s.ack).err = s.err := rfl
@[simp] theorem State.ack_outLen (s : State) : (s.ack).outLen = s.outLen := rfl
@[simp] theorem State.ack_cursor (s : State) : (s.ack).cursor = s.cursor := rfl
@[simp] theorem State.ack_nodeCount (s : State) : (s.ack).nodeCount = s.nodeCount := rfl
@[simp] theorem State.ack_versionOut (s : State) : (s.ack).versionOut = s.versionOut := rfl
@[simp] theorem State.ack_latched (s : State) : (s.ack).latched = s.latched := rfl
@[simp] theorem State.ack_inBuf (s : State) : (s.ack).inBuf = s.inBuf := rfl
@[simp] theorem State.ack_outBuf (s : State) : (s.ack).outBuf = s.outBuf := rfl
@[simp] theorem State.ack_params (s : State) : (s.ack).params = s.params := rfl
@[simp] theorem State.ack_pending (s : State) : (s.ack).pending = s.pending := rfl
@[simp] theorem State.ack_responses (s : State) : (s.ack).responses = s.responses := rfl
@[simp] theorem State.ack_waitLeft (s : State) : (s.ack).waitLeft = s.waitLeft := rfl
@[simp] theorem State.ack_startCount (s : State) : (s.ack).startCount = s.startCount := rfl
@[simp] theorem State.ack_resetCount (s : State) : (s.ack).resetCount = s.resetCount := rfl
@[simp] theorem State.ack_freeCount (s : State) : (s.ack).freeCount = s.freeCount := rfl

/-! ### `applyReset`: reset (R320) -/

@[simp] theorem State.applyReset_ie (s : State) : (s.applyReset).ie = false := rfl
@[simp] theorem State.applyReset_cmd (s : State) : (s.applyReset).cmd = 0 := rfl
@[simp] theorem State.applyReset_arg (s : State) : (s.applyReset).arg = 0 := rfl
@[simp] theorem State.applyReset_inLen (s : State) : (s.applyReset).inLen = 0 := rfl
@[simp] theorem State.applyReset_inOff (s : State) : (s.applyReset).inOff = 0 := rfl
@[simp] theorem State.applyReset_engine (s : State) : (s.applyReset).engine = .idle := rfl
@[simp] theorem State.applyReset_err (s : State) : (s.applyReset).err = none := rfl
@[simp] theorem State.applyReset_outLen (s : State) : (s.applyReset).outLen = 0 := rfl
@[simp] theorem State.applyReset_cursor (s : State) : (s.applyReset).cursor = 0 := rfl
@[simp] theorem State.applyReset_nodeCount (s : State) : (s.applyReset).nodeCount = 0 := rfl
@[simp] theorem State.applyReset_versionOut (s : State) : (s.applyReset).versionOut = 0 := rfl
@[simp] theorem State.applyReset_latched (s : State) : (s.applyReset).latched = ⟨0, 0, 0, 0⟩ := rfl
@[simp] theorem State.applyReset_inBuf (s : State) : (s.applyReset).inBuf = [] := rfl
@[simp] theorem State.applyReset_outBuf (s : State) : (s.applyReset).outBuf = [] := rfl
@[simp] theorem State.applyReset_params (s : State) : (s.applyReset).params = s.params := rfl
@[simp] theorem State.applyReset_pending (s : State) : (s.applyReset).pending = s.pending := rfl
@[simp] theorem State.applyReset_responses (s : State) :
    (s.applyReset).responses = s.responses := rfl
@[simp] theorem State.applyReset_waitLeft (s : State) : (s.applyReset).waitLeft = 0 := rfl
@[simp] theorem State.applyReset_startCount (s : State) :
    (s.applyReset).startCount = s.startCount := rfl
@[simp] theorem State.applyReset_resetCount (s : State) :
    (s.applyReset).resetCount = s.resetCount + 1 := rfl
@[simp] theorem State.applyReset_freeCount (s : State) :
    (s.applyReset).freeCount = s.freeCount := rfl

/-! ### `commitBytes`: commit of a byte sequence (R115) -/

@[simp] theorem State.commitBytes_ie (s : State) (out : Bytes) :
    (s.commitBytes out).ie = s.ie := rfl
@[simp] theorem State.commitBytes_cmd (s : State) (out : Bytes) :
    (s.commitBytes out).cmd = s.cmd := rfl
@[simp] theorem State.commitBytes_arg (s : State) (out : Bytes) :
    (s.commitBytes out).arg = s.arg := rfl
@[simp] theorem State.commitBytes_inLen (s : State) (out : Bytes) :
    (s.commitBytes out).inLen = s.inLen := rfl
@[simp] theorem State.commitBytes_inOff (s : State) (out : Bytes) :
    (s.commitBytes out).inOff = s.inOff := rfl
@[simp] theorem State.commitBytes_engine (s : State) (out : Bytes) :
    (s.commitBytes out).engine = .done := rfl
@[simp] theorem State.commitBytes_err (s : State) (out : Bytes) :
    (s.commitBytes out).err = s.err := rfl
@[simp] theorem State.commitBytes_outLen (s : State) (out : Bytes) :
    (s.commitBytes out).outLen = BitVec.ofNat 32 out.length := rfl
@[simp] theorem State.commitBytes_cursor (s : State) (out : Bytes) :
    (s.commitBytes out).cursor = s.cursor := rfl
@[simp] theorem State.commitBytes_nodeCount (s : State) (out : Bytes) :
    (s.commitBytes out).nodeCount = s.nodeCount := rfl
@[simp] theorem State.commitBytes_versionOut (s : State) (out : Bytes) :
    (s.commitBytes out).versionOut = s.versionOut := rfl
@[simp] theorem State.commitBytes_latched (s : State) (out : Bytes) :
    (s.commitBytes out).latched = s.latched := rfl
@[simp] theorem State.commitBytes_inBuf (s : State) (out : Bytes) :
    (s.commitBytes out).inBuf = s.inBuf := rfl
@[simp] theorem State.commitBytes_outBuf (s : State) (out : Bytes) :
    (s.commitBytes out).outBuf = Memory.cells 0 out := rfl
@[simp] theorem State.commitBytes_params (s : State) (out : Bytes) :
    (s.commitBytes out).params = s.params := rfl
@[simp] theorem State.commitBytes_pending (s : State) (out : Bytes) :
    (s.commitBytes out).pending = s.pending := rfl
@[simp] theorem State.commitBytes_responses (s : State) (out : Bytes) :
    (s.commitBytes out).responses = s.responses := rfl
@[simp] theorem State.commitBytes_waitLeft (s : State) (out : Bytes) :
    (s.commitBytes out).waitLeft = s.waitLeft := rfl
@[simp] theorem State.commitBytes_startCount (s : State) (out : Bytes) :
    (s.commitBytes out).startCount = s.startCount := rfl
@[simp] theorem State.commitBytes_resetCount (s : State) (out : Bytes) :
    (s.commitBytes out).resetCount = s.resetCount := rfl
@[simp] theorem State.commitBytes_freeCount (s : State) (out : Bytes) :
    (s.commitBytes out).freeCount = s.freeCount := rfl

/-! ### `commitVersioned`: commit of a payload with its version (R115) -/

@[simp] theorem State.commitVersioned_ie (s : State) (out : Bytes) (version : Nat) :
    (s.commitVersioned out version).ie = s.ie := rfl
@[simp] theorem State.commitVersioned_cmd (s : State) (out : Bytes) (version : Nat) :
    (s.commitVersioned out version).cmd = s.cmd := rfl
@[simp] theorem State.commitVersioned_arg (s : State) (out : Bytes) (version : Nat) :
    (s.commitVersioned out version).arg = s.arg := rfl
@[simp] theorem State.commitVersioned_inLen (s : State) (out : Bytes) (version : Nat) :
    (s.commitVersioned out version).inLen = s.inLen := rfl
@[simp] theorem State.commitVersioned_inOff (s : State) (out : Bytes) (version : Nat) :
    (s.commitVersioned out version).inOff = s.inOff := rfl
@[simp] theorem State.commitVersioned_engine (s : State) (out : Bytes) (version : Nat) :
    (s.commitVersioned out version).engine = .done := rfl
@[simp] theorem State.commitVersioned_err (s : State) (out : Bytes) (version : Nat) :
    (s.commitVersioned out version).err = s.err := rfl
@[simp] theorem State.commitVersioned_outLen (s : State) (out : Bytes) (version : Nat) :
    (s.commitVersioned out version).outLen = BitVec.ofNat 32 out.length := rfl
@[simp] theorem State.commitVersioned_cursor (s : State) (out : Bytes) (version : Nat) :
    (s.commitVersioned out version).cursor = s.cursor := rfl
@[simp] theorem State.commitVersioned_nodeCount (s : State) (out : Bytes) (version : Nat) :
    (s.commitVersioned out version).nodeCount = s.nodeCount := rfl
@[simp] theorem State.commitVersioned_versionOut (s : State) (out : Bytes) (version : Nat) :
    (s.commitVersioned out version).versionOut = BitVec.ofNat 8 version := rfl
@[simp] theorem State.commitVersioned_latched (s : State) (out : Bytes) (version : Nat) :
    (s.commitVersioned out version).latched = s.latched := rfl
@[simp] theorem State.commitVersioned_inBuf (s : State) (out : Bytes) (version : Nat) :
    (s.commitVersioned out version).inBuf = s.inBuf := rfl
@[simp] theorem State.commitVersioned_outBuf (s : State) (out : Bytes) (version : Nat) :
    (s.commitVersioned out version).outBuf = Memory.cells 0 out := rfl
@[simp] theorem State.commitVersioned_params (s : State) (out : Bytes) (version : Nat) :
    (s.commitVersioned out version).params = s.params := rfl
@[simp] theorem State.commitVersioned_pending (s : State) (out : Bytes) (version : Nat) :
    (s.commitVersioned out version).pending = s.pending := rfl
@[simp] theorem State.commitVersioned_responses (s : State) (out : Bytes) (version : Nat) :
    (s.commitVersioned out version).responses = s.responses := rfl
@[simp] theorem State.commitVersioned_waitLeft (s : State) (out : Bytes) (version : Nat) :
    (s.commitVersioned out version).waitLeft = s.waitLeft := rfl
@[simp] theorem State.commitVersioned_startCount (s : State) (out : Bytes) (version : Nat) :
    (s.commitVersioned out version).startCount = s.startCount := rfl
@[simp] theorem State.commitVersioned_resetCount (s : State) (out : Bytes) (version : Nat) :
    (s.commitVersioned out version).resetCount = s.resetCount := rfl
@[simp] theorem State.commitVersioned_freeCount (s : State) (out : Bytes) (version : Nat) :
    (s.commitVersioned out version).freeCount = s.freeCount := rfl

/-! ### `commitRecords`: commit of node records (R115) -/

@[simp] theorem State.commitRecords_ie (s : State) (records : List Bytes) (q : Nat) :
    (s.commitRecords records q).ie = s.ie := rfl
@[simp] theorem State.commitRecords_cmd (s : State) (records : List Bytes) (q : Nat) :
    (s.commitRecords records q).cmd = s.cmd := rfl
@[simp] theorem State.commitRecords_arg (s : State) (records : List Bytes) (q : Nat) :
    (s.commitRecords records q).arg = s.arg := rfl
@[simp] theorem State.commitRecords_inLen (s : State) (records : List Bytes) (q : Nat) :
    (s.commitRecords records q).inLen = s.inLen := rfl
@[simp] theorem State.commitRecords_inOff (s : State) (records : List Bytes) (q : Nat) :
    (s.commitRecords records q).inOff = s.inOff := rfl
@[simp] theorem State.commitRecords_engine (s : State) (records : List Bytes) (q : Nat) :
    (s.commitRecords records q).engine = .done := rfl
@[simp] theorem State.commitRecords_err (s : State) (records : List Bytes) (q : Nat) :
    (s.commitRecords records q).err = s.err := rfl
@[simp] theorem State.commitRecords_outLen (s : State) (records : List Bytes) (q : Nat) :
    (s.commitRecords records q).outLen = BitVec.ofNat 32 (32 * records.length) := rfl
@[simp] theorem State.commitRecords_cursor (s : State) (records : List Bytes) (q : Nat) :
    (s.commitRecords records q).cursor = BitVec.ofNat 32 q := rfl
@[simp] theorem State.commitRecords_nodeCount (s : State) (records : List Bytes) (q : Nat) :
    (s.commitRecords records q).nodeCount = BitVec.ofNat 32 records.length := rfl
@[simp] theorem State.commitRecords_versionOut (s : State) (records : List Bytes) (q : Nat) :
    (s.commitRecords records q).versionOut = s.versionOut := rfl
@[simp] theorem State.commitRecords_latched (s : State) (records : List Bytes) (q : Nat) :
    (s.commitRecords records q).latched = s.latched := rfl
@[simp] theorem State.commitRecords_inBuf (s : State) (records : List Bytes) (q : Nat) :
    (s.commitRecords records q).inBuf = s.inBuf := rfl
@[simp] theorem State.commitRecords_outBuf (s : State) (records : List Bytes) (q : Nat) :
    (s.commitRecords records q).outBuf = Memory.cells 0 records.flatten := rfl
@[simp] theorem State.commitRecords_params (s : State) (records : List Bytes) (q : Nat) :
    (s.commitRecords records q).params = s.params := rfl
@[simp] theorem State.commitRecords_pending (s : State) (records : List Bytes) (q : Nat) :
    (s.commitRecords records q).pending = s.pending := rfl
@[simp] theorem State.commitRecords_responses (s : State) (records : List Bytes) (q : Nat) :
    (s.commitRecords records q).responses = s.responses := rfl
@[simp] theorem State.commitRecords_waitLeft (s : State) (records : List Bytes) (q : Nat) :
    (s.commitRecords records q).waitLeft = s.waitLeft := rfl
@[simp] theorem State.commitRecords_startCount (s : State) (records : List Bytes) (q : Nat) :
    (s.commitRecords records q).startCount = s.startCount := rfl
@[simp] theorem State.commitRecords_resetCount (s : State) (records : List Bytes) (q : Nat) :
    (s.commitRecords records q).resetCount = s.resetCount := rfl
@[simp] theorem State.commitRecords_freeCount (s : State) (records : List Bytes) (q : Nat) :
    (s.commitRecords records q).freeCount = s.freeCount := rfl

/-! ### `commitCheck`: commit of a passed name check (R115) -/

@[simp] theorem State.commitCheck_ie (s : State) : (s.commitCheck).ie = s.ie := rfl
@[simp] theorem State.commitCheck_cmd (s : State) : (s.commitCheck).cmd = s.cmd := rfl
@[simp] theorem State.commitCheck_arg (s : State) : (s.commitCheck).arg = s.arg := rfl
@[simp] theorem State.commitCheck_inLen (s : State) : (s.commitCheck).inLen = s.inLen := rfl
@[simp] theorem State.commitCheck_inOff (s : State) : (s.commitCheck).inOff = s.inOff := rfl
@[simp] theorem State.commitCheck_engine (s : State) : (s.commitCheck).engine = .done := rfl
@[simp] theorem State.commitCheck_err (s : State) : (s.commitCheck).err = s.err := rfl
@[simp] theorem State.commitCheck_outLen (s : State) : (s.commitCheck).outLen = s.outLen := rfl
@[simp] theorem State.commitCheck_cursor (s : State) : (s.commitCheck).cursor = s.cursor := rfl
@[simp] theorem State.commitCheck_nodeCount (s : State) :
    (s.commitCheck).nodeCount = s.nodeCount := rfl
@[simp] theorem State.commitCheck_versionOut (s : State) :
    (s.commitCheck).versionOut = s.versionOut := rfl
@[simp] theorem State.commitCheck_latched (s : State) : (s.commitCheck).latched = s.latched := rfl
@[simp] theorem State.commitCheck_inBuf (s : State) : (s.commitCheck).inBuf = s.inBuf := rfl
@[simp] theorem State.commitCheck_outBuf (s : State) : (s.commitCheck).outBuf = s.outBuf := rfl
@[simp] theorem State.commitCheck_params (s : State) : (s.commitCheck).params = s.params := rfl
@[simp] theorem State.commitCheck_pending (s : State) : (s.commitCheck).pending = s.pending := rfl
@[simp] theorem State.commitCheck_responses (s : State) :
    (s.commitCheck).responses = s.responses := rfl
@[simp] theorem State.commitCheck_waitLeft (s : State) :
    (s.commitCheck).waitLeft = s.waitLeft := rfl
@[simp] theorem State.commitCheck_startCount (s : State) :
    (s.commitCheck).startCount = s.startCount := rfl
@[simp] theorem State.commitCheck_resetCount (s : State) :
    (s.commitCheck).resetCount = s.resetCount := rfl
@[simp] theorem State.commitCheck_freeCount (s : State) :
    (s.commitCheck).freeCount = s.freeCount := rfl

/-! ### `commitError`: taking an error (R282) -/

@[simp] theorem State.commitError_ie (s : State) (e : CmdError) : (s.commitError e).ie = s.ie := rfl
@[simp] theorem State.commitError_cmd (s : State) (e : CmdError) :
    (s.commitError e).cmd = s.cmd := rfl
@[simp] theorem State.commitError_arg (s : State) (e : CmdError) :
    (s.commitError e).arg = s.arg := rfl
@[simp] theorem State.commitError_inLen (s : State) (e : CmdError) :
    (s.commitError e).inLen = s.inLen := rfl
@[simp] theorem State.commitError_inOff (s : State) (e : CmdError) :
    (s.commitError e).inOff = s.inOff := rfl
@[simp] theorem State.commitError_engine (s : State) (e : CmdError) :
    (s.commitError e).engine = .error := rfl
@[simp] theorem State.commitError_err (s : State) (e : CmdError) :
    (s.commitError e).err = some e := rfl
@[simp] theorem State.commitError_outLen (s : State) (e : CmdError) :
    (s.commitError e).outLen = s.outLen := rfl
@[simp] theorem State.commitError_cursor (s : State) (e : CmdError) :
    (s.commitError e).cursor = s.cursor := rfl
@[simp] theorem State.commitError_nodeCount (s : State) (e : CmdError) :
    (s.commitError e).nodeCount = s.nodeCount := rfl
@[simp] theorem State.commitError_versionOut (s : State) (e : CmdError) :
    (s.commitError e).versionOut = s.versionOut := rfl
@[simp] theorem State.commitError_latched (s : State) (e : CmdError) :
    (s.commitError e).latched = s.latched := rfl
@[simp] theorem State.commitError_inBuf (s : State) (e : CmdError) :
    (s.commitError e).inBuf = s.inBuf := rfl
@[simp] theorem State.commitError_outBuf (s : State) (e : CmdError) :
    (s.commitError e).outBuf = [] := rfl
@[simp] theorem State.commitError_params (s : State) (e : CmdError) :
    (s.commitError e).params = s.params := rfl
@[simp] theorem State.commitError_pending (s : State) (e : CmdError) :
    (s.commitError e).pending = s.pending := rfl
@[simp] theorem State.commitError_responses (s : State) (e : CmdError) :
    (s.commitError e).responses = s.responses := rfl
@[simp] theorem State.commitError_waitLeft (s : State) (e : CmdError) :
    (s.commitError e).waitLeft = s.waitLeft := rfl
@[simp] theorem State.commitError_startCount (s : State) (e : CmdError) :
    (s.commitError e).startCount = s.startCount := rfl
@[simp] theorem State.commitError_resetCount (s : State) (e : CmdError) :
    (s.commitError e).resetCount = s.resetCount := rfl
@[simp] theorem State.commitError_freeCount (s : State) (e : CmdError) :
    (s.commitError e).freeCount = s.freeCount := rfl

/-! ### `respond`: recording a bus response -/

@[simp] theorem State.respond_ie (s : State) (r : BusResponse) : (s.respond r).ie = s.ie := rfl
@[simp] theorem State.respond_cmd (s : State) (r : BusResponse) : (s.respond r).cmd = s.cmd := rfl
@[simp] theorem State.respond_arg (s : State) (r : BusResponse) : (s.respond r).arg = s.arg := rfl
@[simp] theorem State.respond_inLen (s : State) (r : BusResponse) :
    (s.respond r).inLen = s.inLen := rfl
@[simp] theorem State.respond_inOff (s : State) (r : BusResponse) :
    (s.respond r).inOff = s.inOff := rfl
@[simp] theorem State.respond_engine (s : State) (r : BusResponse) :
    (s.respond r).engine = s.engine := rfl
@[simp] theorem State.respond_err (s : State) (r : BusResponse) : (s.respond r).err = s.err := rfl
@[simp] theorem State.respond_outLen (s : State) (r : BusResponse) :
    (s.respond r).outLen = s.outLen := rfl
@[simp] theorem State.respond_cursor (s : State) (r : BusResponse) :
    (s.respond r).cursor = s.cursor := rfl
@[simp] theorem State.respond_nodeCount (s : State) (r : BusResponse) :
    (s.respond r).nodeCount = s.nodeCount := rfl
@[simp] theorem State.respond_versionOut (s : State) (r : BusResponse) :
    (s.respond r).versionOut = s.versionOut := rfl
@[simp] theorem State.respond_latched (s : State) (r : BusResponse) :
    (s.respond r).latched = s.latched := rfl
@[simp] theorem State.respond_inBuf (s : State) (r : BusResponse) :
    (s.respond r).inBuf = s.inBuf := rfl
@[simp] theorem State.respond_outBuf (s : State) (r : BusResponse) :
    (s.respond r).outBuf = s.outBuf := rfl
@[simp] theorem State.respond_params (s : State) (r : BusResponse) :
    (s.respond r).params = s.params := rfl
@[simp] theorem State.respond_pending (s : State) (r : BusResponse) :
    (s.respond r).pending = s.pending := rfl
@[simp] theorem State.respond_responses (s : State) (r : BusResponse) :
    (s.respond r).responses = r :: s.responses := rfl
@[simp] theorem State.respond_waitLeft (s : State) (r : BusResponse) :
    (s.respond r).waitLeft = s.waitLeft := rfl
@[simp] theorem State.respond_startCount (s : State) (r : BusResponse) :
    (s.respond r).startCount = s.startCount := rfl
@[simp] theorem State.respond_resetCount (s : State) (r : BusResponse) :
    (s.respond r).resetCount = s.resetCount := rfl
@[simp] theorem State.respond_freeCount (s : State) (r : BusResponse) :
    (s.respond r).freeCount = s.freeCount := rfl

/-! ### `withCommand`: a running command whose completion is next -/

@[simp] theorem State.withCommand_ie (s : State) (w : Word) : (s.withCommand w).ie = s.ie := rfl
@[simp] theorem State.withCommand_cmd (s : State) (w : Word) : (s.withCommand w).cmd = s.cmd := rfl
@[simp] theorem State.withCommand_arg (s : State) (w : Word) : (s.withCommand w).arg = s.arg := rfl
@[simp] theorem State.withCommand_inLen (s : State) (w : Word) :
    (s.withCommand w).inLen = s.inLen := rfl
@[simp] theorem State.withCommand_inOff (s : State) (w : Word) :
    (s.withCommand w).inOff = s.inOff := rfl
@[simp] theorem State.withCommand_engine (s : State) (w : Word) :
    (s.withCommand w).engine = .busy := rfl
@[simp] theorem State.withCommand_err (s : State) (w : Word) : (s.withCommand w).err = s.err := rfl
@[simp] theorem State.withCommand_outLen (s : State) (w : Word) :
    (s.withCommand w).outLen = s.outLen := rfl
@[simp] theorem State.withCommand_cursor (s : State) (w : Word) :
    (s.withCommand w).cursor = s.cursor := rfl
@[simp] theorem State.withCommand_nodeCount (s : State) (w : Word) :
    (s.withCommand w).nodeCount = s.nodeCount := rfl
@[simp] theorem State.withCommand_versionOut (s : State) (w : Word) :
    (s.withCommand w).versionOut = s.versionOut := rfl
@[simp] theorem State.withCommand_latched (s : State) (w : Word) :
    (s.withCommand w).latched = { s.latched with cmd := w } := rfl
@[simp] theorem State.withCommand_inBuf (s : State) (w : Word) :
    (s.withCommand w).inBuf = s.inBuf := rfl
@[simp] theorem State.withCommand_outBuf (s : State) (w : Word) :
    (s.withCommand w).outBuf = s.outBuf := rfl
@[simp] theorem State.withCommand_params (s : State) (w : Word) :
    (s.withCommand w).params = s.params := rfl
@[simp] theorem State.withCommand_pending (s : State) (w : Word) :
    (s.withCommand w).pending = s.pending := rfl
@[simp] theorem State.withCommand_responses (s : State) (w : Word) :
    (s.withCommand w).responses = s.responses := rfl
@[simp] theorem State.withCommand_waitLeft (s : State) (w : Word) :
    (s.withCommand w).waitLeft = 0 := rfl
@[simp] theorem State.withCommand_startCount (s : State) (w : Word) :
    (s.withCommand w).startCount = s.startCount := rfl
@[simp] theorem State.withCommand_resetCount (s : State) (w : Word) :
    (s.withCommand w).resetCount = s.resetCount := rfl
@[simp] theorem State.withCommand_freeCount (s : State) (w : Word) :
    (s.withCommand w).freeCount = s.freeCount := rfl

end Sys2Proof.Machine
end

