-- ==== Sys2Proof/Laws/Framework.lean ====
section
/-! SUPPORT. What the shared operations of the command framework can do, said once: the argument checks,
Execute, Commit, and a meaning as a whole. -/

namespace Sys2Proof.Machine

/-- Two states that agree on the fields a completion step may not write agree on them as operands. -/
theorem SameOperands.refl (s : State) : SameOperands s s :=
  ⟨rfl, rfl, rfl, rfl, rfl, rfl, rfl, fun _ => rfl, rfl, rfl, rfl, rfl, rfl, rfl, rfl⟩

theorem SameMachine.refl (s : State) : SameMachine s s :=
  ⟨rfl, rfl, rfl, rfl, rfl, rfl, rfl, rfl, rfl, rfl, rfl, rfl, fun _ => rfl, rfl, rfl, rfl⟩

/-- IN_BUF's bytes depend on the bytes written and on the reset count alone. -/
theorem inByte_congr {s t : State} (h1 : t.inBuf = s.inBuf) (h2 : t.resetCount = s.resetCount)
    (a : Nat) : t.inByte a = s.inByte a := by
  simp [State.inByte, h1, h2]

@[simp] theorem State.input_length (s : State) :
    s.input.length = s.latched.inLen.toNat := by simp [State.input]

/-- The input's byte at an offset below L.IN_LEN is IN_BUF's. -/
theorem State.input_getElem? (s : State) (a : Nat) (h : a < s.latched.inLen.toNat) :
    s.input[a]? = some (s.inByte a) := by
  simp [State.input, List.getElem?_map, List.getElem?_range h]

/-- Everything the argument checks can answer (R114). -/
theorem checkArgs_cases (s : State) (i : Instr) :
    s.checkArgs i = .ok () ∨ s.checkArgs i = .error .badArgument := by
  unfold State.checkArgs
  split
  · exact .inr rfl
  · split
    · exact .inr rfl
    · split
      · exact .inr rfl
      · exact .inl rfl

/-- When the argument checks pass (R114). -/
theorem checkArgs_ok_iff (s : State) (i : Instr) :
    s.checkArgs i = .ok () ↔
      s.latched.inLen.toNat ≤ s.params.inBufSize ∧
      (opcode i = 0x20 → s.latched.inOff.toNat ≤ s.latched.inLen.toNat) ∧
      (needsVersion i = true → s.version.toNat < 32) := by
  have hn (p q : Bool) : (p && q) = true ↔ (p = true ∧ q = true) := Bool.and_eq_true_iff
  unfold State.checkArgs
  simp only [hn, beq_iff_eq, decide_eq_true_eq]
  split_ifs with h1 h2 h3
  · exact ⟨(fun h => nomatch h), fun h => absurd h.1 (by omega)⟩
  · exact ⟨(fun h => nomatch h), fun h => absurd (h.2.1 h2.1) (by omega)⟩
  · exact ⟨(fun h => nomatch h), fun h => absurd (h.2.2 h3.1) (by omega)⟩
  · refine ⟨fun _ => ⟨by omega, fun h => ?_, fun h => ?_⟩, fun _ => rfl⟩
    · exact Nat.le_of_not_lt (fun hlt => h2 ⟨h, hlt⟩)
    · exact Nat.lt_of_not_le (fun hle => h3 ⟨h, hle⟩)

/-- Everything Execute can answer, with the reason for each answer (R113). -/
theorem execute_cases (s : State) (i : Instr) (f : Bytes → Except CmdError CmdResult) :
    (s.checkArgs i = .error .badArgument ∧ s.execute i f = .error .badArgument) ∨
      (s.checkArgs i = .ok () ∧ ∃ e, f s.input = .error e ∧ s.execute i f = .error e) ∨
      (s.checkArgs i = .ok () ∧ ∃ r, f s.input = .ok r ∧ s.params.outBufSize < resultSize r ∧
        s.execute i f = .error .outputOverflow) ∨
      (s.checkArgs i = .ok () ∧ ∃ r, f s.input = .ok r ∧ resultSize r ≤ s.params.outBufSize ∧
        s.execute i f = .ok r) := by
  rcases checkArgs_cases s i with h | h
  · cases hf : f s.input with
    | error e => exact .inr (.inl ⟨h, e, rfl, by simp [State.execute, h, hf]⟩)
    | ok r =>
      by_cases hr : s.params.outBufSize < resultSize r
      · exact .inr (.inr (.inl ⟨h, r, rfl, hr, by simp [State.execute, h, hf, hr]⟩))
      · exact .inr (.inr (.inr ⟨h, r, rfl, by omega, by simp [State.execute, h, hf, hr]⟩))
  · exact .inl ⟨h, by simp [State.execute, h]⟩

/-- A commit that fails is the taking of its error (R115, R282). -/
@[simp] theorem commit_error (s : State) (e : CmdError) :
    s.commit (.error e) = s.commitError e := rfl

@[simp] theorem commit_bytes (s : State) (out : Bytes) :
    s.commit (.ok (.bytes out)) = s.commitBytes out := rfl

@[simp] theorem commit_versioned (s : State) (out : Bytes) (v : Nat) :
    s.commit (.ok (.versioned out v)) = s.commitVersioned out v := rfl

@[simp] theorem commit_records (s : State) (rs : List Bytes) (q : Nat) :
    s.commit (.ok (.records rs q)) = s.commitRecords rs q := rfl

@[simp] theorem commit_check (s : State) : s.commit (.ok .check) = s.commitCheck := rfl

/-- A commit leaves the operands of the command alone (R55, R115). -/
theorem commit_sameOperands (s : State) (r : Except CmdError CmdResult) :
    SameOperands s (s.commit r) := by
  rcases r with e | r
  · exact ⟨rfl, rfl, rfl, rfl, rfl, rfl, rfl, fun _ => rfl, rfl, rfl, rfl, rfl, rfl, rfl, rfl⟩
  · cases r <;>
      exact ⟨rfl, rfl, rfl, rfl, rfl, rfl, rfl, fun _ => rfl, rfl, rfl, rfl, rfl, rfl, rfl, rfl⟩

/-- Whether a commit ends in DONE or in ERROR, and with which ERRCODE (R115). -/
theorem commit_engine (s : State) (r : Except CmdError CmdResult) :
    ((∃ x, r = .ok x) ∧ (s.commit r).engine = .done ∧ (s.commit r).err = s.err) ∨
      (∃ e, r = .error e ∧ (s.commit r).engine = .error ∧ (s.commit r).err = some e) := by
  rcases r with e | x
  · exact .inr ⟨e, rfl, rfl, rfl⟩
  · refine .inl ⟨⟨x, rfl⟩, ?_⟩
    cases x <;> exact ⟨rfl, rfl⟩

/-- Taking an error leaves what R282 says. -/
theorem commitError_failedWith (s : State) (e : CmdError) : FailedWith s (s.commitError e) e where
  engine := rfl
  err := rfl
  outByte := fun a => by simp [State.outByte]
  outLen := rfl
  cursor := rfl
  nodeCount := rfl
  versionOut := rfl
  same := commit_sameOperands s (.error e)

/-- The committed output as OUT_BUF shows it (R37, R115). -/
theorem outByte_of_cells {t : State} {out : Bytes} (hb : t.engine ≠ .busy)
    (hm : t.outBuf = Memory.cells 0 out) (hl : t.outLen.toNat = out.length) (a : Nat) :
    t.outByte a = out[a]? := by
  by_cases h : out.length ≤ a
  · simp [State.outByte, hl, h]
  · simp [State.outByte, hb, hl, h, hm]

/-- Committing a byte sequence that a 32-bit length can count (R115). -/
theorem commitBytes_doneBytes (s : State) (out : Bytes) (h : out.length < 2 ^ 32) :
    DoneBytes s (s.commitBytes out) out where
  result :=
    { engine := rfl
      err := rfl
      outLen := by simp; omega
      outByte := fun a => outByte_of_cells (by simp) rfl (by simp; omega) a
      same := commit_sameOperands s (.ok (.bytes out)) }
  cursor := rfl
  nodeCount := rfl
  versionOut := rfl

/-- Committing a payload with its version (R115). -/
theorem commitVersioned_doneVersioned (s : State) (out : Bytes) (v : Nat)
    (h : out.length < 2 ^ 32) (hv : v < 256) :
    DoneVersioned s (s.commitVersioned out v) out v where
  result :=
    { engine := rfl
      err := rfl
      outLen := by simp; omega
      outByte := fun a => outByte_of_cells (by simp) rfl (by simp; omega) a
      same := commit_sameOperands s (.ok (.versioned out v)) }
  cursor := rfl
  nodeCount := rfl
  versionOut := by simp; omega

/-- Committing 32-byte records (R115). -/
theorem commitRecords_doneRecords (s : State) (rs : List Bytes) (q : Nat)
    (hr : ∀ r ∈ rs, r.length = 32) (h : 32 * rs.length < 2 ^ 32) (hq : q < 2 ^ 32) :
    DoneRecords s (s.commitRecords rs q) rs q := by
  have hl : rs.flatten.length = 32 * rs.length := by
    clear h
    induction rs with
    | nil => rfl
    | cons r rs ih =>
      have h1 := hr r (by simp)
      have h2 := ih (fun x hx => hr x (List.mem_cons_of_mem _ hx))
      simp only [List.flatten_cons, List.length_append, List.length_cons, h1, h2]
      omega
  have ho : (s.commitRecords rs q).outLen.toNat = rs.flatten.length := by
    simp only [State.commitRecords_outLen, BitVec.toNat_ofNat, hl]
    omega
  exact
    { result :=
        { engine := rfl
          err := rfl
          outLen := ho
          outByte := fun a => outByte_of_cells (by simp) rfl ho a
          same := commit_sameOperands s (.ok (.records rs q)) }
      cursor := by
        simp only [State.commitRecords_cursor, BitVec.toNat_ofNat]
        omega
      nodeCount := by
        simp only [State.commitRecords_nodeCount, BitVec.toNat_ofNat]
        omega
      versionOut := rfl }

/-- Committing a name check that passed (R115). -/
theorem commitCheck_doneCheck (s : State) : DoneCheck s s.commitCheck where
  engine := rfl
  err := rfl
  outLen := rfl
  cursor := rfl
  nodeCount := rfl
  versionOut := rfl
  outBuf := rfl
  same := commit_sameOperands s (.ok .check)

/-- The function each command runs on its input (R113). -/
def commandFunction (s : State) : Instr → Bytes → Except CmdError CmdResult
  | .b58Enc => fB58Enc
  | .b58Dec => fB58Dec
  | .b58chkEnc => fB58chkEnc
  | .b58chkDec => fB58chkDec
  | .c32Enc => fC32Enc
  | .c32Dec => fC32Dec
  | .c32chkEnc => fC32chkEnc s.version
  | .c32chkEncP => fC32chkEncP s.prefixByte s.version
  | .c32chkDec => fC32chkDec
  | .c32addrEnc => fC32addrEnc s.version
  | .c32addrDec => fC32addrDec
  | .valDec cap => fValDec cap s.startCursor
  | .cnCheck => fCnCheck
  | .ctnCheck => fCtnCheck

/-- Every meaning is Execute, then Commit (R43, R113). -/
theorem exec_eq (i : Instr) (s : State) :
    exec i s = .next (s.commit (s.execute i (commandFunction s i))) := by
  cases i <;> rfl

/-- The same as an inversion: what a next state of `exec` is. -/
theorem exec_next {i : Instr} {s t : State} (h : exec i s = .next t) :
    t = s.commit (s.execute i (commandFunction s i)) := by
  rw [exec_eq] at h
  exact (Host.Outcome.next.inj h).symm

/-- The operands of a command survive it (R55, R282). -/
theorem exec_sameOperands {i : Instr} {s t : State} (h : exec i s = .next t) :
    SameOperands s t := by
  rw [exec_next h]
  exact commit_sameOperands s _

end Sys2Proof.Machine
end

