-- ==== Sys2Proof/Laws/Bus.lean ====
section
/-! SUPPORT. What a host access and a step can do, said once: which accesses are mapped, what a read and a
write leave, and the cases of `hostStep` and `step`. -/

namespace Sys2Proof.Machine

/-- The address map and the access rules together say exactly which accesses get no bus error (R50 to
R52). The size bound of R7 keeps IN_BUF below OUT_BUF. -/
theorem accessible_iff_legalAccess {p : Config.Params} (hp : p.inBufSize ≤ 2 ^ 24) (off width : Nat) :
    accessible (regionAt p off) width = true ↔ LegalAccess p off width := by
  unfold regionAt LegalAccess
  split_ifs with h1 h2 h3 <;>
    simp only [accessible, Bool.and_eq_true, beq_iff_eq, Bool.false_eq_true,
      false_iff] <;> omega

/-- Recording a response is no change of the machine. -/
theorem respond_sameMachine (s : State) (r : BusResponse) : SameMachine s (s.respond r) :=
  ⟨rfl, rfl, rfl, rfl, rfl, rfl, rfl, rfl, rfl, rfl, rfl, rfl, fun _ => rfl, rfl, rfl, rfl⟩

/-- Counting an access is no change of the machine. -/
theorem tick_sameMachine (s : State) : SameMachine s s.tick := by
  unfold State.tick
  split
  · exact ⟨rfl, rfl, rfl, rfl, rfl, rfl, rfl, rfl, rfl, rfl, rfl, rfl, fun _ => rfl, rfl, rfl, rfl⟩
  · exact SameMachine.refl s

/-- Everything a read of an OUT_BUF byte can answer (R54). -/
theorem readOutByte_cases (s : State) (a : Nat) :
    (∃ b, s.outByte a = some b ∧
        s.readOutByte a = s.respond (.data (b.zeroExtend 32))) ∨
      (s.outByte a = none ∧
        s.readOutByte a = { s with freeCount := s.freeCount + 1 }.respond
          (.data ((Config.outBufByte s.freeCount).zeroExtend 32))) := by
  unfold State.readOutByte
  cases h : s.outByte a with
  | none => exact .inr ⟨rfl, rfl⟩
  | some b => exact .inl ⟨b, rfl, rfl⟩

/-- A read adds one response and changes nothing of the machine (R61). -/
theorem hostRead_spec (s : State) (off width : Nat) :
    SameMachine s (s.hostRead off width) ∧
      (∃ r, (s.hostRead off width).responses = r :: s.responses ∧
        (r = .busError ↔ accessible (regionAt s.params off) width = false)) ∧
      (s.hostRead off width).pending = s.pending := by
  unfold State.hostRead
  by_cases ha : accessible (regionAt s.params off) width = true
  · rw [if_pos ha]
    cases hr : regionAt s.params off with
    | register o => exact ⟨respond_sameMachine _ _, ⟨_, rfl, by rw [hr] at ha; simp [ha]⟩, rfl⟩
    | inBuf a => exact ⟨respond_sameMachine _ _, ⟨_, rfl, by rw [hr] at ha; simp [ha]⟩, rfl⟩
    | outBuf a =>
      rw [hr] at ha
      rcases readOutByte_cases s a with ⟨b, _, he⟩ | ⟨_, he⟩
      · simp only [he]
        exact ⟨respond_sameMachine _ _, ⟨_, rfl, by simp [ha]⟩, rfl⟩
      · simp only [he]
        exact ⟨⟨rfl, rfl, rfl, rfl, rfl, rfl, rfl, rfl, rfl, rfl, rfl, rfl, fun _ => rfl, rfl, rfl,
          rfl⟩, ⟨_, rfl, by simp [ha]⟩, rfl⟩
    | unmapped => rw [hr] at ha; simp [accessible] at ha
  · rw [if_neg ha]
    exact ⟨respond_sameMachine _ _, ⟨_, rfl, by simpa using ha⟩, rfl⟩

/-- Everything a write to CTRL can do (R22, R41, R42). -/
theorem writeCtrl_cases (s : State) (v : Word) :
    (v.getLsbD 0 = true ∧ s.engine ≠ .busy ∧
        s.writeCtrl v = { s with ie := v.getLsbD 2 }.start) ∨
      (v.getLsbD 0 = false ∧ v.getLsbD 1 = true ∧ (s.engine = .done ∨ s.engine = .error) ∧
        s.writeCtrl v = { s with ie := v.getLsbD 2 }.ack) ∨
      ((s.engine = .busy ∨
          v.getLsbD 0 = false ∧ (v.getLsbD 1 = false ∨ s.engine = .idle)) ∧
        s.writeCtrl v = { s with ie := v.getLsbD 2 }) := by
  unfold State.writeCtrl
  cases h0 : v.getLsbD 0 <;> cases h1 : v.getLsbD 1 <;> cases he : s.engine <;> simp

/-- A register write while BUSY changes IE at most (R44, R332). -/
theorem writeReg_busy (s : State) (r : Reg) (v : Word) (h : s.engine = .busy) :
    s.writeReg r v = if r = .ctrl then { s with ie := v.getLsbD 2 } else s := by
  cases r <;> simp [State.writeReg, State.writeCtrl, h]

/-- Outside BUSY a register write other than to CTRL stores the word in an operand register or does
nothing (R23 to R26, R21). -/
theorem writeReg_idle (s : State) (r : Reg) (v : Word) (h : s.engine ≠ .busy) (hr : r ≠ .ctrl) :
    s.writeReg r v =
      (if r = .cmd then { s with cmd := v }
        else if r = .arg then { s with arg := v }
        else if r = .inLen then { s with inLen := v }
        else if r = .inOff then { s with inOff := v }
        else s) := by
  cases r <;> simp_all [State.writeReg]

/-- Everything a write at an offset can do. -/
theorem hostWrite_cases (s : State) (off width : Nat) (v : Word) :
    (accessible (regionAt s.params off) width = false ∧
        s.hostWrite off width v = s.respond .busError) ∨
      (accessible (regionAt s.params off) width = true ∧
        ((regionAt s.params off = .register off ∧
            s.hostWrite off width v = (s.writeReg (regAt off) v).respond .accepted) ∨
          (∃ a, regionAt s.params off = .inBuf a ∧ off = 0x1000000 + a ∧
            a < s.params.inBufSize ∧
            s.hostWrite off width v =
              (s.writeInByte a (v.extractLsb' 0 8)).respond .accepted) ∨
          (∃ a, regionAt s.params off = .outBuf a ∧ off = 0x2000000 + a ∧
            s.hostWrite off width v = s.respond .accepted))) := by
  by_cases ha : accessible (regionAt s.params off) width = true
  · refine .inr ⟨ha, ?_⟩
    unfold State.hostWrite
    rw [if_pos ha]
    revert ha
    unfold regionAt
    split_ifs with h1 h2 h3 <;> intro ha
    · exact .inl ⟨rfl, rfl⟩
    · exact .inr (.inl ⟨_, rfl, by omega, by omega, rfl⟩)
    · exact .inr (.inr ⟨_, rfl, by omega, rfl⟩)
    · simp [accessible] at ha
  · refine .inl ⟨by simpa using ha, ?_⟩
    unfold State.hostWrite
    rw [if_neg ha]

/-- When the completion step is due (R43, R334). -/
theorem completionDue_iff (s : State) :
    s.completionDue = true ↔ s.engine = .busy ∧ (s.pending = [] ∨ s.waitLeft = 0) := by
  simp [State.completionDue, Bool.and_eq_true, Bool.or_eq_true]

/-- The window of a machine's own base. -/
theorem inWindow_add (s : State) (off : Nat) :
    s.inWindow (s.params.base + off) = decide (off < windowSize) := by
  simp [State.inWindow]

/-- Everything the completion step can do: BadCommand on an illegal word, else the command's
meaning. -/
theorem complete_cases (s : State) :
    (∃ e, decode s.latched.cmd = .error e ∧ s.complete = .next (s.commitError .badCommand)) ∨
      (∃ i, decode s.latched.cmd = .ok i ∧
        s.complete = .next (s.commit (s.execute i (commandFunction s i)))) := by
  unfold State.complete
  cases h : decode s.latched.cmd with
  | error e => exact .inl ⟨e, rfl, rfl⟩
  | ok i => exact .inr ⟨i, rfl, exec_eq i s⟩

/-- Everything one host event can do, as an inversion of a next state. -/
theorem hostStep_cases {s t : State} (h : s.hostStep = .next t) :
    (s.pending = [] ∧ t = s) ∨
      (∃ rest, s.pending = .reset :: rest ∧ t = { s with pending := rest }.applyReset) ∨
      (∃ rest, s.pending = .wait :: rest ∧
        t = (if s.engine = .busy then s else { s with pending := rest }).tick.respond
          (.data s.statusWord)) ∨
      (∃ addr width rest, s.pending = .read addr width :: rest ∧ s.inWindow addr = true ∧
        t = { s with pending := rest }.tick.hostRead (addr - s.params.base) width) ∨
      (∃ addr width v rest, s.pending = .write addr width v :: rest ∧ s.inWindow addr = true ∧
        t = { s with pending := rest }.tick.hostWrite (addr - s.params.base) width v) := by
  unfold State.hostStep at h
  split at h
  · rename_i hp
    exact .inl ⟨hp, (Host.Outcome.next.inj h).symm⟩
  · rename_i rest hp
    exact .inr (.inl ⟨rest, hp, (Host.Outcome.next.inj h).symm⟩)
  · rename_i rest hp
    exact .inr (.inr (.inl ⟨rest, hp, (Host.Outcome.next.inj h).symm⟩))
  · rename_i addr width rest hp
    split at h
    · rename_i hw
      exact .inr (.inr (.inr (.inl ⟨addr, width, rest, hp, hw, (Host.Outcome.next.inj h).symm⟩)))
    · cases h
  · rename_i addr width v rest hp
    split at h
    · rename_i hw
      exact .inr (.inr (.inr (.inr ⟨addr, width, v, rest, hp, hw,
        (Host.Outcome.next.inj h).symm⟩)))
    · cases h

/-- Everything one step can do, as an inversion of a next state: the completion step where it is due,
one host event elsewhere. -/
theorem step_cases {s t : State} (h : step s = .next t) :
    (s.completionDue = true ∧
        ((∃ e, decode s.latched.cmd = .error e ∧ t = s.commitError .badCommand) ∨
          ∃ i, decode s.latched.cmd = .ok i ∧
            t = s.commit (s.execute i (commandFunction s i)))) ∨
      (s.completionDue = false ∧ s.hostStep = .next t) := by
  unfold step at h
  by_cases hd : s.completionDue = true
  · rw [if_pos hd] at h
    refine .inl ⟨hd, ?_⟩
    rcases complete_cases s with ⟨e, he, hc⟩ | ⟨i, hi, hc⟩
    · exact .inl ⟨e, he, (Host.Outcome.next.inj (hc.symm.trans h)).symm⟩
    · exact .inr ⟨i, hi, (Host.Outcome.next.inj (hc.symm.trans h)).symm⟩
  · rw [if_neg hd] at h
    exact .inr ⟨by simpa using hd, h⟩

end Sys2Proof.Machine
end

