-- ==== Sys2Proof/Laws/Decoder.lean ====
section
/-! SUPPORT. What the value decoder's shared parts can answer, said once: size fields, name fields, one
level of `decodeValue`, and the size of a record. -/

namespace Sys2Proof.Machine

/-- Everything a size field can answer (R233, R236, R239). -/
theorem readSize_cases (inp : Bytes) (p : Nat) :
    (p + 4 ≤ inp.length ∧ be (slice inp p 4) ≤ maxDecl ∧
        readSize inp p = .ok (be (slice inp p 4), p + 4)) ∨
      (p + 4 ≤ inp.length ∧ maxDecl < be (slice inp p 4) ∧
        readSize inp p = .error .oversizeDeclaration) ∨
      (inp.length < p + 4 ∧ readSize inp p = .error .truncatedInput) := by
  unfold readSize
  rcases takeBytes_cases inp p 4 with ⟨hle, he⟩ | ⟨hlt, he⟩
  · simp only [he]
    by_cases h : maxDecl < be (slice inp p 4)
    · exact .inr (.inl ⟨hle, h, by rw [if_pos h]⟩)
    · exact .inl ⟨hle, by omega, by rw [if_neg h]⟩
  · exact .inr (.inr ⟨hlt, by simp only [he]⟩)

theorem readSize_ok {inp : Bytes} {p n q : Nat} (h : readSize inp p = .ok (n, q)) :
    p + 4 ≤ inp.length ∧ n = be (slice inp p 4) ∧ n ≤ maxDecl ∧ q = p + 4 := by
  rcases readSize_cases inp p with ⟨hle, hm, he⟩ | ⟨_, _, he⟩ | ⟨_, he⟩ <;> rw [he] at h
  · simp only [Except.ok.injEq, Prod.mk.injEq] at h
    exact ⟨hle, h.1.symm, h.1 ▸ hm, h.2.symm⟩
  · cases h
  · cases h

/-- When a name field decodes, and to what (R235, R238). -/
theorem readName_ok {inp : Bytes} {p q : Nat} {name : Nat × Nat}
    (h : readName inp p = .ok (name, q)) :
    name = (p + 1, be (slice inp p 1)) ∧ q = p + 1 + be (slice inp p 1) ∧ q ≤ inp.length ∧
      1 ≤ be (slice inp p 1) ∧ be (slice inp p 1) ≤ nameMax ∧
      isClarityName (slice inp name.1 name.2) = true := by
  unfold readName at h
  rcases takeBytes_cases inp p 1 with ⟨_, he⟩ | ⟨_, he⟩ <;> simp only [he] at h
  · split_ifs at h with hr
    rcases takeBytes_cases inp (p + 1) (be (slice inp p 1)) with ⟨hle, he2⟩ | ⟨_, he2⟩ <;>
      simp only [he2] at h
    · split_ifs at h with hc
      simp only [Except.ok.injEq, Prod.mk.injEq] at h
      obtain ⟨rfl, rfl⟩ := h
      exact ⟨rfl, rfl, hle, by omega, by omega, hc⟩
    · cases h
  · cases h

/-- Which errors a name field can end in (R238). -/
theorem readName_error {inp : Bytes} {p : Nat} {e : CmdError} (h : readName inp p = .error e) :
    e = .truncatedInput ∨ e = .invalidName := by
  unfold readName at h
  rcases takeBytes_cases inp p 1 with ⟨_, he⟩ | ⟨_, he⟩ <;> simp only [he] at h
  · split_ifs at h with hr
    · exact .inr (Except.error.inj h).symm
    · rcases takeBytes_cases inp (p + 1) (be (slice inp p 1)) with ⟨_, he2⟩ | ⟨_, he2⟩ <;>
        simp only [he2] at h
      · split_ifs at h
        exact .inr (Except.error.inj h).symm
      · exact .inl (Except.error.inj h).symm
  · exact .inl (Except.error.inj h).symm

/-- No value is entered past the last level (R241). -/
@[simp] theorem decodeValue_zero (inp : Bytes) (d p : Nat) :
    decodeValue inp 0 d p = .error .depthExceeded := rfl

/-- What one level of a decode that succeeds has done (R237): the prefix byte it read, the payload, and
its own node in front of its children's. -/
theorem decodeValue_ok {inp : Bytes} {levels d start q : Nat} {nodes : List Node}
    (h : decodeValue inp (levels + 1) d start = .ok (nodes, q)) :
    start + 1 ≤ inp.length ∧
      ∃ t payload children, typePrefixOf ((slice inp start 1).headD 0) = some t ∧
        decodePayload inp (fun p => decodeValue inp levels (d + 1) p) t (start + 1) =
          .ok (payload, children, q) ∧
        nodes = ⟨t, d, none, start, q, payload⟩ :: children := by
  unfold decodeValue at h
  rcases takeBytes_cases inp start 1 with ⟨hle, he⟩ | ⟨_, he⟩ <;> simp only [he] at h
  · refine ⟨hle, ?_⟩
    split at h
    · cases h
    · rename_i t ht
      split at h
      · cases h
      · rename_i payload children q' hp
        simp only [Except.ok.injEq, Prod.mk.injEq] at h
        obtain ⟨rfl, rfl⟩ := h
        exact ⟨t, payload, children, ht, hp, rfl⟩
  · cases h

/-- A node's own key is no key until its tuple gives it one (R241). -/
@[simp] theorem setKey_length (key : Nat × Nat) (ns : List Node) :
    (setKey key ns).length = ns.length := by
  cases ns <;> rfl

/-- Only a raw payload's size depends on its data (R255). -/
theorem emitPayload_length (p : Payload) (h : ∀ r, p = .raw r → r.length = 16) :
    (emitPayload p).length = 16 := by
  cases p <;> simp [emitPayload]
  exact h _ rfl

/-- Every record is 32 bytes (R255). -/
theorem emitNode_length (cap : Bool) (n : Node) (h : ∀ r, n.payload = .raw r → r.length = 16) :
    (emitNode cap n).length = 32 := by
  simp [emitNode, emitPayload_length n.payload h]

/-- Every prefix's byte decodes to it (R231). -/
@[simp] theorem typePrefixOf_byte (t : TypePrefix) : typePrefixOf (typePrefixByte t) = some t := by
  cases t <;> rfl

/-- Only 0x00 to 0x0E are prefixes (R231). -/
theorem typePrefixOf_eq_none (b : Byte) : typePrefixOf b = none ↔ 15 ≤ b.toNat := by
  simp [typePrefixOf, typePrefixes]

end Sys2Proof.Machine
end

