-- ==== Sys2Proof/Laws/PerInstr.lean ====
section
/-! SUPPORT. Facts about every command, one lemma per constructor. -/

namespace Sys2Proof.Laws

/-- The word of a command is legal by R85's list, carries its opcode and its CAP bit, and the
opcode decides which argument checks of R114 apply. -/
def EncodedWordIsLegal.Statement (i : Instr) : Prop :=
  legalWord (encode i) = true ∧ opcOf (encode i) = opcode i ∧ capOf (encode i) = captureBit i ∧
    (i.usesOffset = true ↔ opcode i = 0x20) ∧
    (i.usesVersion = true ↔ opcode i = 0x12 ∨ opcode i = 0x13 ∨ opcode i = 0x15)

theorem EncodedWordIsLegal.b58Enc : EncodedWordIsLegal.Statement .b58Enc := by
  unfold EncodedWordIsLegal.Statement; decide

theorem EncodedWordIsLegal.b58Dec : EncodedWordIsLegal.Statement .b58Dec := by
  unfold EncodedWordIsLegal.Statement; decide

theorem EncodedWordIsLegal.b58chkEnc : EncodedWordIsLegal.Statement .b58chkEnc := by
  unfold EncodedWordIsLegal.Statement; decide

theorem EncodedWordIsLegal.b58chkDec : EncodedWordIsLegal.Statement .b58chkDec := by
  unfold EncodedWordIsLegal.Statement; decide

theorem EncodedWordIsLegal.c32Enc : EncodedWordIsLegal.Statement .c32Enc := by
  unfold EncodedWordIsLegal.Statement; decide

theorem EncodedWordIsLegal.c32Dec : EncodedWordIsLegal.Statement .c32Dec := by
  unfold EncodedWordIsLegal.Statement; decide

theorem EncodedWordIsLegal.c32chkEnc : EncodedWordIsLegal.Statement .c32chkEnc := by
  unfold EncodedWordIsLegal.Statement; decide

theorem EncodedWordIsLegal.c32chkEncP : EncodedWordIsLegal.Statement .c32chkEncP := by
  unfold EncodedWordIsLegal.Statement; decide

theorem EncodedWordIsLegal.c32chkDec : EncodedWordIsLegal.Statement .c32chkDec := by
  unfold EncodedWordIsLegal.Statement; decide

theorem EncodedWordIsLegal.c32addrEnc : EncodedWordIsLegal.Statement .c32addrEnc := by
  unfold EncodedWordIsLegal.Statement; decide

theorem EncodedWordIsLegal.c32addrDec : EncodedWordIsLegal.Statement .c32addrDec := by
  unfold EncodedWordIsLegal.Statement; decide

theorem EncodedWordIsLegal.valDec (cap : Bool) : EncodedWordIsLegal.Statement (.valDec cap) := by
  unfold EncodedWordIsLegal.Statement; revert cap; decide

theorem EncodedWordIsLegal.cnCheck : EncodedWordIsLegal.Statement .cnCheck := by
  unfold EncodedWordIsLegal.Statement; decide

theorem EncodedWordIsLegal.ctnCheck : EncodedWordIsLegal.Statement .ctnCheck := by
  unfold EncodedWordIsLegal.Statement; decide

end Sys2Proof.Laws
end

