-- ==== Sys2Proof/Tests/Slice0.lean ====
section
/-! SUPPORT. Tests: the well-formedness smoke tests, the words of the opcode map, vectors of
95_test_vectors.md (their numbers stand in the names), and for each statement with hypotheses a state
and operands that meet them. -/

namespace Sys2Proof.Tests

-- One theorem after the other: many kernel evaluations at once would need a thread each.
set_option Elab.async false

open Sys2Proof Sys2Proof.Machine

/-! ## Helpers -/

/-- The ASCII codes of a text. -/
def ascii (text : String) : Bytes := text.toList.map (fun c => BitVec.ofNat 8 c.toNat)

/-- A running command whose completion is the next step: its word, ARG and input bytes. -/
def running (w arg : Word) (inp : Bytes) : State :=
  { State.reset with
    engine := .busy
    inBuf := Memory.cells 0 inp
    latched := ⟨w, arg, BitVec.ofNat 32 inp.length, 0⟩ }

/-- The same with the host making one access before the completion step. -/
def accessed (s : State) (e : HostEvent) : State := { s with pending := [e], waitLeft := 1 }

/-- What one step ends in: STATE, ERRCODE, OUT_BUF below OUT_LEN, VERSION_OUT. -/
def outcome (s : State) : Option (EngineState × Option CmdError × Option Bytes × Nat) :=
  match step s with
  | .next t => some (t.engine, t.err, t.output, t.versionOut.toNat)
  | .fault _ => none
  | .refused _ => none

/-- NODE_COUNT, CURSOR and the first record's bytes after one step. -/
def decoded (s : State) : Option (Nat × Nat × Option Bytes) :=
  match step s with
  | .next t => some (t.nodeCount.toNat, t.cursor.toNat, (t.records.map (fun rs => rs.headD [])))
  | .fault _ => none
  | .refused _ => none

/-- The bus responses after one step. -/
def answered (s : State) : Option (List BusResponse) :=
  match step s with
  | .next t => some t.responses
  | .fault _ => none
  | .refused _ => none

/-- STATE and STATUS after one step. -/
def statusAfter (s : State) : Option (EngineState × Word) :=
  match step s with
  | .next t => some (t.engine, t.statusWord)
  | .fault _ => none
  | .refused _ => none

/-- A command that ended with a text. -/
def doneText (text : String) : Option (EngineState × Option CmdError × Option Bytes × Nat) :=
  some (.done, none, some (ascii text), 0)

/-- A command that ended with bytes and a version. -/
def doneBytes (out : Bytes) (v : Nat) :
    Option (EngineState × Option CmdError × Option Bytes × Nat) :=
  some (.done, none, some out, v)

/-- A command that ended in an error. -/
def failed (e : CmdError) : Option (EngineState × Option CmdError × Option Bytes × Nat) :=
  some (.error, some e, some [], 0)

/-- The 21 bytes of V1. -/
def payload1 : Bytes :=
  [0x00, 0xf8, 0x91, 0x73, 0x03, 0xbf, 0xa8, 0xef, 0x24, 0xf2, 0x92, 0xe8, 0xfa, 0x14, 0x19, 0xb2,
    0x04, 0x60, 0xba, 0x06, 0x4d]

/-- The 20 bytes of V2. -/
def hash2 : Bytes :=
  [0xa4, 0x6f, 0xf8, 0x88, 0x86, 0xc2, 0xef, 0x97, 0x62, 0xd9, 0x70, 0xb4, 0xd2, 0xc6, 0x36, 0x78,
    0x83, 0x5b, 0xd3, 0x9d]

/-! ## Well-formedness refuses ill-formed words and operands -/

theorem test_wf_reserved_opcode_zero : legalWord 0x00000000 = false := by decide
theorem test_wf_reserved_opcode_05 : legalWord 0x00000005 = false := by decide
theorem test_wf_reserved_opcode_0f : legalWord 0x0000000F = false := by decide
theorem test_wf_reserved_opcode_17 : legalWord 0x00000017 = false := by decide
theorem test_wf_reserved_opcode_1f : legalWord 0x0000001F = false := by decide
theorem test_wf_reserved_opcode_23 : legalWord 0x00000023 = false := by decide
theorem test_wf_reserved_opcode_ff : legalWord 0x000000FF = false := by decide
theorem test_wf_rsvd_bit9 : legalWord 0x00000201 = false := by decide
theorem test_wf_rsvd_bit31 : legalWord 0x80000020 = false := by decide
theorem test_wf_cap_elsewhere : legalWord 0x00000101 = false := by decide
theorem test_wf_cap_valdec : legalWord 0x00000120 = true := by decide
theorem test_wf_len_too_long :
    Command.wellFormed 4096 ⟨.b58Enc, 4097, 0, 0, 0⟩ = false := by decide
theorem test_wf_len_at_bound :
    Command.wellFormed 4096 ⟨.b58Enc, 4096, 0xFF, 0, 5000⟩ = true := by decide
theorem test_wf_offset_past_len :
    Command.wellFormed 4096 ⟨.valDec true, 8, 0, 0, 9⟩ = false := by decide
theorem test_wf_offset_at_len :
    Command.wellFormed 4096 ⟨.valDec false, 8, 0xFF, 0, 8⟩ = true := by decide
theorem test_wf_version_32 :
    Command.wellFormed 4096 ⟨.c32chkEnc, 0, 32, 0, 0⟩ = false := by decide
theorem test_wf_version_32_prefixed :
    Command.wellFormed 4096 ⟨.c32chkEncP, 0, 32, 0x53, 0⟩ = false := by decide
theorem test_wf_version_32_address :
    Command.wellFormed 4096 ⟨.c32addrEnc, 0, 32, 0, 0⟩ = false := by decide
theorem test_wf_version_31 :
    Command.wellFormed 4096 ⟨.c32addrEnc, 0, 31, 0, 9⟩ = true := by decide

/-! ## The words of R84, written out bit by bit, decode to their commands -/

theorem test_decode_b58Enc :
    decode 0b00000000000000000000000000000001 = .ok .b58Enc := by decide
theorem test_decode_b58Dec :
    decode 0b00000000000000000000000000000010 = .ok .b58Dec := by decide
theorem test_decode_b58chkEnc :
    decode 0b00000000000000000000000000000011 = .ok .b58chkEnc := by decide
theorem test_decode_b58chkDec :
    decode 0b00000000000000000000000000000100 = .ok .b58chkDec := by decide
theorem test_decode_c32Enc :
    decode 0b00000000000000000000000000010000 = .ok .c32Enc := by decide
theorem test_decode_c32Dec :
    decode 0b00000000000000000000000000010001 = .ok .c32Dec := by decide
theorem test_decode_c32chkEnc :
    decode 0b00000000000000000000000000010010 = .ok .c32chkEnc := by decide
theorem test_decode_c32chkEncP :
    decode 0b00000000000000000000000000010011 = .ok .c32chkEncP := by decide
theorem test_decode_c32chkDec :
    decode 0b00000000000000000000000000010100 = .ok .c32chkDec := by decide
theorem test_decode_c32addrEnc :
    decode 0b00000000000000000000000000010101 = .ok .c32addrEnc := by decide
theorem test_decode_c32addrDec :
    decode 0b00000000000000000000000000010110 = .ok .c32addrDec := by decide
theorem test_decode_valDec :
    decode 0b00000000000000000000000000100000 = .ok (.valDec false) := by decide
theorem test_decode_valDec_cap :
    decode 0b00000000000000000000000100100000 = .ok (.valDec true) := by decide
theorem test_decode_cnCheck :
    decode 0b00000000000000000000000000100001 = .ok .cnCheck := by decide
theorem test_decode_ctnCheck :
    decode 0b00000000000000000000000000100010 = .ok .ctnCheck := by decide
theorem test_refuse_reserved_opcode : decode 0x23 = .error (.reservedOpcode 0x23) := by decide
theorem test_refuse_reserved_bits : decode 0x201 = .error (.reservedBits 1) := by decide
theorem test_refuse_capture_bit : decode 0x101 = .error (.captureBit 0x01) := by decide

/-! ## SHA-256 has the properties R104 names -/

theorem test_sha_1 : checksum payload1 = [0x18, 0x59, 0x68, 0x90] := by decide +kernel
theorem test_sha_2 : checksum (0x16 :: hash2) = [0x71, 0xb4, 0xba, 0x47] := by decide +kernel
theorem test_sha_3 : sha256 [] =
    [0xe3, 0xb0, 0xc4, 0x42, 0x98, 0xfc, 0x1c, 0x14, 0x9a, 0xfb, 0xf4, 0xc8, 0x99, 0x6f, 0xb9, 0x24,
      0x27, 0xae, 0x41, 0xe4, 0x64, 0x9b, 0x93, 0x4c, 0xa4, 0x95, 0x99, 0x1b, 0x78, 0x52, 0xb8,
      0x55] := by decide +kernel

/-! ## Base58 -/

theorem test_b58Enc_T5 : outcome (running 0x01 0 [0x00, 0xff]) = doneText "15Q" := by
  decide +kernel
theorem test_b58Enc_T11 : outcome (running 0x01 0xFFFFFFFF (ascii "hello world")) =
    doneText "StV1DL6CwTryKyV" := by decide +kernel
theorem test_b58Dec_T16 : outcome (running 0x02 0 (ascii "1z")) =
    doneBytes [0x00, 0x39] 0 := by decide +kernel
theorem test_b58Dec_T22 : outcome (running 0x02 0 (ascii "1 ")) = failed .invalidCharacter := by
  decide +kernel
theorem test_b58chkEnc_V1 : outcome (running 0x03 0 payload1) =
    doneText "1PfJpZsjreyVrqeoAfabrRwwjQyoSQMmHH" := by decide +kernel
theorem test_b58chkEnc_T24 : outcome (running 0x03 0 []) = doneText "3QJmnh" := by decide +kernel
theorem test_b58chkDec_V1 :
    outcome (running 0x04 0 (ascii "1PfJpZsjreyVrqeoAfabrRwwjQyoSQMmHH")) =
      doneBytes payload1 0 := by decide +kernel
theorem test_b58chkDec_T32 :
    outcome (running 0x04 0 (ascii "1PfJpZsjreyVrqeoAfabrRwwjQyoSQMmHJ")) =
      failed .checksumMismatch := by decide +kernel

/-- R138's last claim fails for B58CHK_ENC: IN_BUF_SIZE 1, OUT_BUF_SIZE 6 ≥ 1.3658·1 + 4, and the one
byte of T27 gives seven characters. -/
theorem test_b58chkEnc_overflows_R138 :
    13658 * 1 + 40000 ≤ 10000 * 6 ∧
      outcome { running 0x03 0 [0x61] with params := ⟨1, 6, 0⟩ } = failed .outputOverflow := by
  decide +kernel

/-! ## C32 -/

theorem test_c32Enc_T48 : outcome (running 0x10 0 (ascii "hello")) = doneText "D1JPRV3F" := by
  decide +kernel
theorem test_c32Enc_T49 : outcome (running 0x10 0 [0, 0, 0, 1]) = doneText "0001" := by
  decide +kernel
theorem test_c32Dec_T57 : outcome (running 0x11 0 (ascii "o7z")) = doneBytes [0x00, 0xff] 0 := by
  decide +kernel
theorem test_c32Dec_T58 : outcome (running 0x11 0 (ascii "U")) = failed .invalidCharacter := by
  decide +kernel
theorem test_c32chkEnc_T66 : outcome (running 0x12 0x10016 hash2) =
    doneText "P2J6ZY48GV1EZ5V2V5RB9MP66SW86PYKKNRV9EJ7" := by decide +kernel
theorem test_c32chkEnc_T65 : outcome (running 0x12 0x20 hash2) = failed .badArgument := by
  decide +kernel
theorem test_c32chkEncP_T68 : outcome (running 0x13 0xFF16 hash2) =
    doneBytes (0xff :: ascii "P2J6ZY48GV1EZ5V2V5RB9MP66SW86PYKKNRV9EJ7") 0 := by decide +kernel
theorem test_c32chkEncP_T69 : outcome (running 0x13 0x5320 hash2) = failed .badArgument := by
  decide +kernel
theorem test_c32chkDec_T73 :
    outcome (running 0x14 0 (ascii "p2j6zy48gv1ez5v2v5rb9mp66sw86pykknrv9ej7")) =
      doneBytes hash2 22 := by decide +kernel
theorem test_c32chkDec_T76 : outcome (running 0x14 0 (ascii "U")) = failed .tooShort := by
  decide +kernel
theorem test_c32addrEnc_V2 : outcome (running 0x15 0x16 hash2) =
    doneText "SP2J6ZY48GV1EZ5V2V5RB9MP66SW86PYKKNRV9EJ7" := by decide +kernel
theorem test_c32addrEnc_T85 : outcome (running 0x15 0xFF hash2) = failed .badArgument := by
  decide +kernel
theorem test_c32addrDec_T87 :
    outcome (running 0x16 0 (ascii "XP2J6ZY48GV1EZ5V2V5RB9MP66SW86PYKKNRV9EJ7")) =
      doneBytes hash2 22 := by decide +kernel
theorem test_c32addrDec_T90 : outcome (running 0x16 0 (ascii "SU")) = failed .tooShort := by
  decide +kernel

/-! ## Names -/

theorem test_cnCheck_T104 : outcome (running 0x21 0 (ascii "<=")) = doneBytes [] 0 := by
  decide +kernel
theorem test_cnCheck_T110 : outcome (running 0x21 0 (ascii "__transient")) =
    failed .invalidName := by decide +kernel
theorem test_ctnCheck_T112 : outcome (running 0x22 0 (ascii "__transient")) = doneBytes [] 0 := by
  decide +kernel
theorem test_ctnCheck_T116 : outcome (running 0x22 0 (ascii "a!")) = failed .invalidName := by
  decide +kernel

/-! ## The value decoder -/

/-- T192: a keyed value at depth 16. -/
def depth16 : Bytes := List.replicate 15 0x0A ++ [0x0C, 0, 0, 0, 1, 1, 0x61, 0x03]

theorem test_valDec_T192 : decoded (running 0x20 0 depth16) =
    some (17, 23, some (0x0A :: List.replicate 31 0)) := by decide +kernel
theorem test_valDec_cap_T185 :
    decoded { running 0x120 0 [0xff, 0x04, 0x03] with latched := ⟨0x120, 0, 3, 1⟩ } =
      some (1, 2, some ([0x04, 0, 2, 0, 0, 0, 0, 0, 0, 0, 0, 1, 0, 0, 0, 2] ++
        List.replicate 16 0)) := by decide +kernel
theorem test_valDec_V4_rebuild :
    (match step (running 0x20 0 [0x0b, 0, 0, 0, 2, 0x03, 0x0a, 0x03]) with
      | .next t => t.decodedValue.map (fun r => (wireValue r.1, r.2))
      | .fault _ => none
      | .refused _ => none) = some ([0x0b, 0, 0, 0, 2, 0x03, 0x0a, 0x03], 4) := by decide +kernel
theorem test_valDec_T190 : outcome (running 0x20 0
    (List.replicate 16 0x0A ++ [0x0C, 0, 0, 0, 1, 1, 0x31, 0x03])) = failed .invalidName := by
  decide +kernel

/-! ## The engine and the bus -/

theorem test_bad_command_T205 :
    statusAfter { running 0 0 [] with latched := ⟨0, 0, 5000, 0⟩ } =
      some (.error, 0x0903) := by decide +kernel
theorem test_ack_T212 :
    statusAfter (accessed { State.reset with engine := .error, err := some .badCommand }
      (.write 0x40000000 4 2)) = some (.idle, 0x0900) := by decide +kernel
theorem test_start_wins_T213 :
    statusAfter (accessed { State.reset with engine := .done } (.write 0x40000000 4 3)) =
      some (.busy, 0x0001) := by decide +kernel
theorem test_read_reserved_T216 :
    answered (accessed State.reset (.read 0x40000030 4)) = some [.data 0] := by decide +kernel
theorem test_wide_buffer_read_T217 :
    answered (accessed State.reset (.read 0x41000000 4)) = some [.busError] := by decide +kernel
theorem test_byte_register_read_T218 :
    answered (accessed State.reset (.read 0x40000004 1)) = some [.busError] := by decide +kernel
theorem test_read_insz_T219 :
    answered (accessed State.reset (.read 0x40000028 4)) = some [.data 0x1000] := by decide +kernel

/-! ## Witnesses: states and operands that meet the statements' hypotheses -/

/-- A running command with an input that fits satisfies the invariant. -/
theorem running_inv (w arg : Word) (inp : Bytes) (h : inp.length ≤ 4096) :
    Inv (running w arg inp) where
  params := show State.reset.params.legal by decide
  inBufWf := Memory.wf_cells inp 0
  inBufBound := by
    intro c hc
    have hm : c.1 ∈ (Memory.cells 0 inp).map Prod.fst := List.mem_map_of_mem hc
    rw [Memory.cells_offsets_zero, List.mem_range] at hm
    exact Nat.lt_of_lt_of_le hm h
  outBufExact := rfl
  outLenBound := Nat.zero_le _
  versionBound := show (0 : Byte).toNat < 32 by decide
  cursorBound := Nat.zero_le _
  recordsExact := .inl rfl
  busyClear := fun _ => ⟨⟨rfl, rfl, rfl, rfl, rfl⟩, rfl⟩
  doneNoError := fun _ => rfl
  errorHasCode := fun h => nomatch h
  codeClears := fun h => absurd rfl h

theorem witness_StepRunsTheLatchedCommand :
    (running 0x120 0 [0x03]).completionDue = true ∧
      decode (running 0x120 0 [0x03]).latched.cmd = .ok (.valDec true) := by decide

/-- R85's three cases, and the case of an access still pending when no more may come. -/
theorem witness_IllegalWordEndsInBadCommand :
    ((running 0x23 0 []).completionDue = true ∧
        legalWord (running 0x23 0 []).latched.cmd = false) ∧
      ((running 0x80000020 0 []).completionDue = true ∧
        legalWord (running 0x80000020 0 []).latched.cmd = false) ∧
      ({ running 0x121 0 [] with pending := [.wait] }.completionDue = true ∧
        legalWord { running 0x121 0 [] with pending := [.wait] }.latched.cmd = false) := by
  decide

theorem witness_ResetAbandonsAndClears :
    (accessed (running 0x01 0 [1]) .reset).completionDue = false ∧
      (accessed (running 0x01 0 [1]) .reset).pending = [.reset] ∧
      (accessed (running 0x01 0 [1]) .reset).engine = .busy := by decide

/-- A state whose next event is the host's write of a word to CTRL. -/
def requested (e : EngineState) (v : Word) : State :=
  accessed { State.reset with engine := e } (.write State.reset.params.base 4 v)

/-- START in IDLE, DONE and ERROR, with and without ACK in the same write. -/
theorem witness_StartLatchesAndClears :
    ((requested .idle 1).engine ≠ .busy ∧
        (requested .idle 1).pending = [.write (requested .idle 1).params.base 4 1] ∧
        (1 : Word).getLsbD 0 = true) ∧
      ((requested .done 3).engine ≠ .busy ∧
        (requested .done 3).pending = [.write (requested .done 3).params.base 4 3] ∧
        (3 : Word).getLsbD 0 = true) ∧
      ((requested .error 7).engine ≠ .busy ∧
        (requested .error 7).pending = [.write (requested .error 7).params.base 4 7] ∧
        (7 : Word).getLsbD 0 = true) :=
  ⟨⟨by decide, rfl, by decide⟩, ⟨by decide, rfl, by decide⟩, ⟨by decide, rfl, by decide⟩⟩

/-- ACK in DONE and in ERROR, with IE cleared and with IE kept. -/
theorem witness_AckReturnsToIdle :
    (((requested .done 2).engine = .done ∨ (requested .done 2).engine = .error) ∧
        (requested .done 2).pending = [.write (requested .done 2).params.base 4 2] ∧
        (2 : Word).getLsbD 0 = false ∧ (2 : Word).getLsbD 1 = true) ∧
      (((requested .error 6).engine = .done ∨ (requested .error 6).engine = .error) ∧
        (requested .error 6).pending = [.write (requested .error 6).params.base 4 6] ∧
        (6 : Word).getLsbD 0 = false ∧ (6 : Word).getLsbD 1 = true) :=
  ⟨⟨by decide, rfl, by decide⟩, ⟨by decide, rfl, by decide⟩⟩

/-- Accesses that get no bus error, at the ends of each range. -/
theorem legal_accesses :
    ∀ x ∈ [((0 : Nat), (4 : Nat)), (4, 4), (0x10, 4), (0x14, 4), (0xFC, 4), (0x1000000, 1),
        (0x1000FFF, 1), (0x2000000, 1), (0x2000FFF, 1)],
      LegalAccess Config.exampleParams x.1 x.2 := by
  unfold LegalAccess
  decide

theorem witness_WritesWhileBusyAreLost :
    ∀ x ∈ [((0 : Nat), (4 : Nat)), (4, 4), (0xFC, 4), (0x1000000, 1), (0x1000FFF, 1),
        (0x2000000, 1), (0x2000FFF, 1)],
      let s := accessed (running 0x01 0 [1]) (.write (0x40000000 + x.1) x.2 5)
      s.params.legal ∧ s.engine = .busy ∧ s.completionDue = false ∧
        s.pending = [.write (s.params.base + x.1) x.2 5] := by decide

/-- Every clause of the register writes: CTRL without START and ACK, the four operand registers, a
read-only register, a reserved one at the end of the file, and both ends of OUT_BUF. -/
theorem witness_RegisterWritesStoreOrAreIgnored :
    (∀ x ∈ [((4 : Nat), (4 : Nat)), (8, 4), (0xC, 4), (0x10, 4), (0x14, 4), (0xFC, 4),
        (0x2000000, 1), (0x2000FFF, 1)],
      let s := accessed State.reset (.write (0x40000000 + x.1) x.2 0xFFFFFFFF)
      s.params.legal ∧ s.engine ≠ .busy ∧ x.1 ≠ 0 ∧ (x.1 < 0x1000000 ∨ 0x2000000 ≤ x.1) ∧
        s.pending = [.write (s.params.base + x.1) x.2 0xFFFFFFFF]) ∧
    ∀ x ∈ [(EngineState.idle, (6 : Word)), (.idle, 0), (.done, 4), (.error, 0xFFFFFFF8)],
      let s := requested x.1 x.2
      s.params.legal ∧ s.engine ≠ .busy ∧ x.2.getLsbD 0 = false ∧
        (x.2.getLsbD 1 = false ∨ s.engine = .idle) ∧
        s.pending = [.write (s.params.base + 0) 4 x.2] := by decide

/-- T214: a write with bit 1 set in IDLE sets IE and leaves STATE alone. -/
theorem test_ack_in_idle_T214 :
    (match step (requested .idle 6) with
      | .next t => some (t.engine, t.ie, t.irq)
      | .fault _ => none
      | .refused _ => none) = some (.idle, true, false) := by decide

theorem witness_InBufWriteStoresOneByte :
    ∀ a ∈ [(0 : Nat), 4095],
      let s := accessed State.reset (.write (0x41000000 + a) 1 0x1FF)
      s.params.legal ∧ s.engine ≠ .busy ∧ a < s.params.inBufSize ∧
        s.pending = [.write (s.params.base + (0x1000000 + a)) 1 0x1FF] := by decide

/-- A read of each register, of both ends of each buffer, in IDLE and in BUSY. -/
theorem witness_ReadsReturnTheStateAndChangeNothing :
    ∀ x ∈ [((0 : Nat), (4 : Nat)), (4, 4), (8, 4), (0xC, 4), (0x10, 4), (0x14, 4), (0x18, 4),
        (0x1C, 4), (0x20, 4), (0x24, 4), (0x28, 4), (0x2C, 4), (0x30, 4), (0xFC, 4),
        (0x1000000, 1), (0x1000FFF, 1), (0x2000000, 1), (0x2000FFF, 1)],
      ∀ s0 ∈ [State.reset, running 0x01 0 [1]],
        let s := accessed s0 (.read (0x40000000 + x.1) x.2)
        s.params.legal ∧ s.completionDue = false ∧
          s.pending = [.read (s.params.base + x.1) x.2] := by decide

/-- Rejected accesses: a wrong width, a misaligned register, the ends of the unmapped gaps. -/
theorem rejected_accesses :
    ∀ x ∈ [((4 : Nat), (1 : Nat)), (2, 4), (0x100, 4), (0xFFFFFF, 1), (0x1000000, 4),
        (0x1001000, 1), (0x2001000, 1), (0x3FFFFFF, 1)],
      ¬ LegalAccess Config.exampleParams x.1 x.2 := by
  unfold LegalAccess
  decide

theorem witness_BusErrorsAreExactlyTheRejectedAccesses :
    ∀ x ∈ [((4 : Nat), (1 : Nat)), (0x3FFFFFF, 1), (0, 4), (0x2000FFF, 1)],
      let s := accessed State.reset (.read (0x40000000 + x.1) x.2)
      let u := accessed State.reset (.write (0x40000000 + x.1) x.2 0)
      s.completionDue = false ∧ u.completionDue = false ∧ x.1 < 2 ^ 26 ∧
        s.pending = [.read (s.params.base + x.1) x.2] ∧
        u.pending = [.write (u.params.base + x.1) x.2 0] := by decide

/-- The line rises at a completion step, and when IE is set in DONE. -/
theorem witness_InterruptLineRises :
    (∃ t, step { running 0x21 0 (ascii "a") with ie := true } = .next t ∧
      { running 0x21 0 (ascii "a") with ie := true }.irq = false ∧ t.irq = true) ∧
    ∃ t, step (accessed { State.reset with engine := .done } (.write 0x40000000 4 4)) = .next t ∧
      (accessed { State.reset with engine := .done } (.write 0x40000000 4 4)).irq = false ∧
      t.irq = true :=
  ⟨⟨_, rfl, rfl, rfl⟩, ⟨_, rfl, rfl, rfl⟩⟩

/-- The line falls on START, on ACK, on clearing IE and on reset. -/
theorem witness_InterruptLineFalls :
    let s := { State.reset with engine := .done, ie := true }
    s.irq = true ∧
      (∃ t, step (accessed s (.write 0x40000000 4 5)) = .next t ∧ t.irq = false) ∧
      (∃ t, step (accessed s (.write 0x40000000 4 6)) = .next t ∧ t.irq = false) ∧
      (∃ t, step (accessed s (.write 0x40000000 4 0)) = .next t ∧ t.irq = false) ∧
      ∃ t, step (accessed s .reset) = .next t ∧ t.irq = false :=
  ⟨rfl, ⟨_, rfl, rfl⟩, ⟨_, rfl, rfl⟩, ⟨_, rfl, rfl⟩, ⟨_, rfl, rfl⟩⟩

/-- A completion step, writes to CTRL that raise the line and that drop it, and a reset. -/
theorem witness_InterruptLineRisesAndFalls :
    (running 0x21 0 []).completionDue = true ∧
      (∀ v ∈ [(4 : Word), 0, 5, 6], (requested .done v).engine = .done ∧
        (requested .done v).pending = [.write (requested .done v).params.base 4 v]) ∧
      (requested .error 4).engine = .error ∧
      (accessed State.reset .reset).completionDue = false ∧
      (accessed State.reset .reset).pending = [.reset] :=
  ⟨by decide, fun _ _ => ⟨rfl, rfl⟩, rfl, by decide, rfl⟩

theorem witness_RunStatementStartsTheCommand :
    let c : Command := ⟨.c32chkEncP, 20, 22, 0x53, 0⟩
    let s := { State.reset with
      pending := HostStmt.expand Config.exampleParams.base (.run c true) }
    s.engine ≠ .busy ∧ s.pending = HostStmt.expand s.params.base (.run c true) := by decide

/-- The invariant holds of a running command, whose step has a next state. -/
theorem witness_EveryStepKeepsTheInvariant :
    Inv (running 0x20 0 [0x0b, 0, 0, 0, 2, 0x03, 0x0a, 0x03]) ∧
      ∃ t, step (running 0x20 0 [0x0b, 0, 0, 0, 2, 0x03, 0x0a, 0x03]) = .next t :=
  ⟨running_inv _ _ _ (by decide), _, rfl⟩

/-- A running command with accesses before its completion. -/
theorem witness_RunningCommandCompletes :
    let s := { running 0x21 0 (ascii "a") with
      pending := [.wait, .read 0x40000014 4, .write 0x41000000 1 0], waitLeft := 2 }
    s.engine = .busy ∧ ∀ e ∈ s.pending, orderlyEvent s e = true := by decide

theorem witness_FailureLeavesOnlyTheCode :
    (running 0x21 0 []).engine = .busy ∧
      ∃ t, exec .cnCheck (running 0x21 0 []) = .next t ∧ t.engine = .error :=
  ⟨rfl, _, rfl, rfl⟩

/-- A function's own error, and a decoding command's OutputOverflow. -/
theorem witness_ErrorCodesOfEachCommand :
    ((running 0x21 0 []).engine = .busy ∧ (running 0x21 0 []).err = none ∧
      ∃ t, exec .cnCheck (running 0x21 0 []) = .next t ∧ t.err = some .invalidName) ∧
    let s := { running 0x11 0 (ascii "00") with params := ⟨2, 1, 0⟩ }
    s.engine = .busy ∧ s.err = none ∧
      ∃ t, exec .c32Dec s = .next t ∧ t.err = some .outputOverflow :=
  ⟨⟨rfl, rfl, _, rfl, rfl⟩, rfl, rfl, _, rfl, rfl⟩

theorem witness_CommandEndsInDoneOrOneError :
    Inv (running 0x04 0 (ascii "1")) ∧ (running 0x04 0 (ascii "1")).engine = .busy :=
  ⟨running_inv _ _ _ (by decide), rfl⟩

/-- The three argument checks, each just past its bound. -/
theorem witness_ArgumentChecksComeFirst :
    ({ running 0x01 0 [] with latched := ⟨0x01, 0, 4097, 0⟩ }.engine = .busy ∧
      State.reset.params.inBufSize < (4097 : Word).toNat) ∧
    ((Instr.valDec false).usesOffset = true ∧ (2 : Word).toNat < (3 : Word).toNat) ∧
    ∀ i ∈ [Instr.c32chkEnc, .c32chkEncP, .c32addrEnc],
      i.usesVersion = true ∧ 32 ≤ (running 0x12 0x5320 []).latched.arg.toNat % 256 := by decide

/-- Operands at the bounds of all three checks. -/
theorem witness_WellFormedCommandsPassTheChecks :
    let c : Command := ⟨.c32chkEnc, 2, 31, 0xFF, 9⟩
    let d : Command := ⟨.valDec true, 2, 0xFF, 0, 2⟩
    let s := { running 0x12 0xFF1F [1, 2] with
      params := ⟨2, 16, 0⟩, latched := ⟨0x12, 0xFF1F, 2, 9⟩ }
    let u := { running 0x120 0xFF [1, 2] with
      params := ⟨2, 16, 0⟩, latched := ⟨0x120, 0xFF, 2, 2⟩ }
    (s.completionDue = true ∧ s.err = none ∧ c.wellFormed s.params.inBufSize = true ∧
      s.latched = ⟨encode c.instr, encodeArg c.version c.prefixByte, c.len, c.off⟩) ∧
    (u.completionDue = true ∧ u.err = none ∧ d.wellFormed u.params.inBufSize = true ∧
      u.latched = ⟨encode d.instr, encodeArg d.version d.prefixByte, d.len, d.off⟩) := by decide

/-- The running states of the last witness have a next state. -/
theorem witness_running_steps (w arg : Word) (inp : Bytes) :
    ∃ t, step (running w arg inp) = .next t := by
  have h : (running w arg inp).completionDue = true := rfl
  rcases complete_cases (running w arg inp) with ⟨_, _, he⟩ | ⟨_, _, he⟩ <;>
    exact ⟨_, by unfold step; rw [if_pos h]; exact he⟩

/-- An OUT_BUF one byte too small for each encoder. -/
theorem witness_EncodersOverflow :
    (let s := { running 0x01 0 [0, 0] with params := ⟨2, 1, 0⟩ };
      s.engine = .busy ∧ s.latched.inLen.toNat ≤ s.params.inBufSize ∧
        s.params.outBufSize < (b58EncodeAlg s.input).length ∧
        s.params.outBufSize < (c32EncodeAlg s.input).length) ∧
    (let s := { running 0x03 0 [] with params := ⟨1, 5, 0⟩ };
      s.engine = .busy ∧ s.latched.inLen.toNat ≤ s.params.inBufSize ∧
        s.params.outBufSize < (b58EncodeAlg (s.input ++ checksum s.input)).length) ∧
    (let s := { running 0x12 0x1F [] with params := ⟨1, 6, 0⟩ };
      s.engine = .busy ∧ s.latched.inLen.toNat ≤ s.params.inBufSize ∧ s.version.toNat < 32 ∧
        s.params.outBufSize <
          (c32EncodeAlg (s.input ++ checksum (s.version :: s.input))).length + 1) ∧
    (let s := { running 0x13 0x1F [] with params := ⟨1, 7, 0⟩ };
      s.engine = .busy ∧ s.latched.inLen.toNat ≤ s.params.inBufSize ∧ s.version.toNat < 32 ∧
        s.params.outBufSize <
          (c32EncodeAlg (s.input ++ checksum (s.version :: s.input))).length + 2) := by
  decide +kernel

/-- Two machines that differ in a byte past IN_LEN, in a register and in IE. -/
theorem witness_CommandsArePureFunctionsOfTheirInputs :
    let s := { running 0x21 0 (ascii "ab") with latched := ⟨0x21, 0, 1, 0⟩, ie := true }
    let u := { running 0x21 0 (ascii "ac") with latched := ⟨0x21, 0, 1, 0⟩, cmd := 1 }
    s.engine = .busy ∧ u.engine = .busy ∧ s.latched = u.latched ∧ s.params = u.params ∧
      (∀ a, a < s.latched.inLen.toNat → s.inByte a = u.inByte a) ∧ s.inBuf ≠ u.inBuf := by
  decide +kernel

/-- The same two machines satisfy the invariant. -/
theorem witness_CommandsArePureFunctionsOfTheirInputs_inv :
    Inv { running 0x21 0 (ascii "ab") with latched := ⟨0x21, 0, 1, 0⟩, ie := true } ∧
      Inv { running 0x21 0 (ascii "ac") with latched := ⟨0x21, 0, 1, 0⟩, cmd := 1 } := by
  have h1 := running_inv 0x21 0 (ascii "ab") (by decide)
  have h2 := running_inv 0x21 0 (ascii "ac") (by decide)
  exact
    ⟨⟨h1.1, h1.2, h1.3, h1.4, h1.5, h1.6, h1.7, h1.8,
        fun _ => ⟨⟨rfl, rfl, rfl, rfl, rfl⟩, rfl⟩, fun _ => rfl, nofun, fun h => absurd rfl h⟩,
      ⟨h2.1, h2.2, h2.3, h2.4, h2.5, h2.6, h2.7, h2.8,
        fun _ => ⟨⟨rfl, rfl, rfl, rfl, rfl⟩, rfl⟩, fun _ => rfl, nofun, fun h => absurd rfl h⟩⟩

/-- A digit list and a byte sequence without a leading zero, and the empty ones for 0. -/
theorem witness_DigitsAndShortestBytesAreUnique :
    (2 ≤ 58 ∧ ofDigits 58 [4, 23] = 255 ∧ (∀ d ∈ [4, 23], d < 58) ∧ [4, 23].head? ≠ some 0) ∧
      (ofDigits 2 [] = 0 ∧ ([] : List Nat).head? ≠ some 0) ∧
      (be [0x01, 0x00] = 256 ∧ ([0x01, 0x00] : Bytes).head? ≠ some 0) ∧
      be [0x00, 0x01, 0x00] = 256 := by decide

/-- A string that splits, and one that has no split: 0xC0 stands in no range of R207's table. -/
theorem witness_Utf8SplitIsTheUniqueSplit :
    IsUtf8Split [0x61, 0xC3, 0xA9] [[0x61], [0xC3, 0xA9]] ∧
      ¬ ∃ groups, IsUtf8Split [0xC0, 0x80] groups := by
  constructor
  · simp [IsUtf8Split, Utf8Scalar, utf8Table]
  · rintro ⟨groups, hf, hg⟩
    have hm : (0xC0 : Byte) ∈ groups.flatten := by rw [hf]; decide
    obtain ⟨g, hgm, hc⟩ := List.mem_flatten.1 hm
    obtain ⟨row, hrow, hr⟩ := hg g hgm
    obtain ⟨range, hmr, hb⟩ : ∃ range ∈ row, range.1 ≤ (0xC0 : Byte).toNat ∧
        (0xC0 : Byte).toNat ≤ range.2 := by
      clear hrow hgm
      induction hr with
      | nil => cases hc
      | cons h _ ih =>
        rcases List.mem_cons.1 hc with rfl | hc
        · exact ⟨_, List.mem_cons_self, h⟩
        · obtain ⟨r, hr, hb⟩ := ih hc
          exact ⟨r, List.mem_cons_of_mem _ hr, hb⟩
    have hno : ∀ row ∈ utf8Table, ∀ range ∈ row,
        ¬ (range.1 ≤ (0xC0 : Byte).toNat ∧ (0xC0 : Byte).toNat ≤ range.2) := by decide
    exact hno row hrow range hmr hb

/-- R207's table excludes an overlong form, a surrogate and the first value above U+10FFFF. -/
theorem test_utf8_exclusions :
    ∀ s ∈ ([[0xC0, 0x80], [0xE0, 0x9F, 0xBF], [0xED, 0xA0, 0x80], [0xF0, 0x8F, 0xBF, 0xBF],
        [0xF4, 0x90, 0x80, 0x80], [0xE1, 0x80]] : List Bytes),
      utf8Split s = .error .invalidCharacter := by decide

theorem witness_TupleValueIgnoresEntryOrder :
    [(ascii "a", Value.boolTrue), (ascii "b", .uint 7)].Perm
        [(ascii "b", Value.uint 7), (ascii "a", .boolTrue)] ∧
      ([(ascii "a", Value.boolTrue), (ascii "b", .uint 7)].map Prod.fst).Nodup :=
  ⟨List.Perm.swap _ _ _, by decide⟩

theorem witness_Base58RoundTrips :
    b58Decode (ascii "15Q") = .ok [0x00, 0xff] ∧ (∀ c ∈ ascii "15Q", c ∈ b58Alphabet) ∧
      (0x31 : Byte) ∈ b58Encode [0x00] := by decide +kernel

/-- A prefix of a pass's bytes with the largest remainder, and the largest byte. -/
theorem witness_Base58LongDivisionEncodes :
    (b58DivPass 0 [57] []).2 = 57 ∧ (255 : Nat) < 256 := by decide

/-- A string the algorithm decodes, and the largest digit and bytes of its inner loop. -/
theorem witness_Base58MultiplyAccumulateDecodes :
    b58DecodeLoop [] (ascii "1zz") = .ok [0x23, 0x0D] ∧
      ((57 : Nat) ≤ 57 ∧ (∀ y ∈ [(255 : Nat), 255], y < 256) ∧
        (b58MulAdd 57 [255, 255]).2 = 57) := by decide +kernel

/-- The three commands on sizes that just meet the bound. -/
theorem witness_Base58LengthBound :
    ∀ i ∈ [Instr.b58Enc, .b58Dec, .b58chkDec],
      let s := { running 0x01 0 [0x61] with params := ⟨1, 6, 0⟩ }
      s.engine = .busy ∧ s.err = none ∧
        13658 * s.params.inBufSize + 40000 ≤ 10000 * s.params.outBufSize ∧
        ∃ t, exec i s = .next t := by
  intro i _
  exact ⟨rfl, rfl, by decide, _, exec_eq i _⟩

/-- B58CHK_ENC on sizes that meet its bound. -/
theorem witness_Base58LengthBound_checksummed :
    let s := { running 0x03 0 [0x61] with params := ⟨1, 8, 0⟩ }
    s.engine = .busy ∧ s.err = none ∧
      13658 * (s.params.inBufSize + 4) + 10000 ≤ 10000 * s.params.outBufSize ∧
      ∃ t, exec .b58chkEnc s = .next t :=
  ⟨rfl, rfl, by decide, _, rfl⟩

theorem witness_C32RoundTrips : c32Decode (ascii "o7z") = .ok [0x00, 0xff] := by decide +kernel

theorem witness_C32BitUnpackingDecodes :
    (∀ y ∈ [(0 : Nat), 31, 31], y < 32) ∧ (31 : Nat) < 32 := by decide

theorem witness_C32ChecksummedRoundTrips : (0 : Byte).toNat < 32 ∧ (31 : Byte).toNat < 32 := by
  decide

theorem witness_C32LengthBounds : 4 ≤ ([0, 0, 0, 0] : Bytes).length := by decide

/-- Outputs that fill OUT_BUF exactly. -/
theorem witness_PlainEncodersComplete :
    (let s := { running 0x01 0 [0, 0] with params := ⟨2, 2, 0⟩ };
      s.params.legal ∧ s.latched.inLen.toNat ≤ s.params.inBufSize ∧
        (b58EncodeAlg s.input).length ≤ s.params.outBufSize ∧
        (c32EncodeAlg s.input).length ≤ s.params.outBufSize) ∧
    (let s := { running 0x03 0 [] with params := ⟨1, 6, 0⟩ };
      s.params.legal ∧ s.latched.inLen.toNat ≤ s.params.inBufSize ∧
        (b58EncodeAlg (s.input ++ checksum s.input)).length ≤ s.params.outBufSize) := by
  decide +kernel

theorem witness_PlainDecodersComplete :
    (let s := { running 0x02 0 (ascii "15Q") with params := ⟨3, 2, 0⟩ };
      s.params.legal ∧ s.latched.inLen.toNat ≤ s.params.inBufSize ∧
        ([0x00, 0xff] : Bytes).length ≤ s.params.outBufSize ∧
        s.input = b58Encode [0x00, 0xff]) ∧
    (let s := { running 0x11 0 (ascii "o7z") with params := ⟨3, 2, 0⟩ };
      s.params.legal ∧ s.latched.inLen.toNat ≤ s.params.inBufSize ∧
        (∀ c ∈ s.input, (c32Rom c).isSome = true) ∧
        s.input.map c32Canonical = c32Encode [0x00, 0xff]) := by decide +kernel

/-- A payload, and the empty one, whose encoding is T28's. -/
theorem witness_Base58CheckDecoderCompletes :
    (let s := running 0x04 0 (ascii "1Wh4bh");
      s.params.legal ∧ s.latched.inLen.toNat ≤ s.params.inBufSize ∧
        ([0] : Bytes).length ≤ s.params.outBufSize ∧
        s.input = b58Encode ([0] ++ checksum [0])) ∧
    (let s := running 0x04 0 (ascii "3QJmnh");
      s.input = b58Encode ([] ++ checksum [])) := by decide +kernel

/-- The largest version, with OUT_BUF exactly large enough for each encoder. -/
theorem witness_C32CheckEncodersComplete :
    ∀ out ∈ [(7 : Nat), 8],
      let s := { running 0x13 0x531F [] with params := ⟨1, out, 0⟩ }
      s.params.legal ∧ s.latched.inLen.toNat ≤ s.params.inBufSize ∧
        (0x1F : Byte) = s.latched.arg.extractLsb' 0 8 ∧ (0x1F : Byte).toNat < 32 ∧
        (0x53 : Byte) = s.latched.arg.extractLsb' 8 8 ∧
        (c32Symbol 31 :: c32EncodeAlg (s.input ++ checksum (0x1F :: s.input))).length = 7 := by
  decide +kernel

/-- A lower-case spelling of T70's string, and the same behind a tag that is no symbol. -/
theorem witness_C32CheckDecodersComplete :
    let text := ascii "oaodr2r"
    let s := running 0x14 0 text
    let u := running 0x16 0 (0xFF :: text)
    (s.params.legal ∧ s.latched.inLen.toNat ≤ s.params.inBufSize ∧ (0 : Byte).toNat < 32 ∧
      (∀ c ∈ text, (c32Rom c).isSome = true) ∧ text.map c32Canonical = c32CheckEncode 0 [] ∧
      s.input = text) ∧
    u.latched.inLen.toNat ≤ u.params.inBufSize ∧ u.input = 0xFF :: text := by decide +kernel

theorem witness_name_states :
    ∀ n ∈ [ascii "<=", [], List.replicate 128 (0x61 : Byte), List.replicate 40 (0x61 : Byte)],
      (running 0x21 0 n).engine = .busy ∧
        (running 0x21 0 n).latched.inLen.toNat ≤ (running 0x21 0 n).params.inBufSize ∧
        (running 0x21 0 n).input = n := by decide +kernel

/-- An operator, a longest name, the literal, a longest contract name; and names neither grammar has. -/
theorem witness_NameChecksDecideTheGrammars :
    ClarityNameGrammar (ascii "<=") ∧ ClarityNameGrammar (List.replicate 128 0x61) ∧
      ¬ ClarityNameGrammar [] ∧ ¬ ClarityNameGrammar (List.replicate 129 0x61) ∧
      ContractNameGrammar (ascii "__transient") ∧
      ContractNameGrammar (List.replicate 40 0x61) ∧
      ¬ ContractNameGrammar [] ∧ ¬ ContractNameGrammar (List.replicate 41 0x61) := by
  have ha : IsOneOf alphaChars 0x61 := ⟨'a', by decide +kernel, by decide +kernel⟩
  have hr (n : Nat) : ∀ c ∈ List.replicate n (0x61 : Byte), IsOneOf alphaChars c := by
    intro c hc
    rw [List.eq_of_mem_replicate hc]
    exact ha
  refine ⟨⟨by decide +kernel, .inl ⟨"<=", by decide +kernel, rfl⟩⟩,
    ⟨by decide +kernel, .inr ⟨0x61, List.replicate 127 0x61, rfl, ha, fun c hc => .inl (hr _ c hc)⟩⟩,
    fun h => absurd h.1.1 (by decide +kernel), fun h => absurd h.1.2 (by decide +kernel), .inl rfl,
    .inr ⟨by decide +kernel, 0x61, List.replicate 39 0x61, rfl, ha, fun c hc => .inl (hr _ c hc)⟩, ?_, ?_⟩
  · rintro (h | h)
    · exact absurd h (by decide +kernel)
    · exact absurd h.1.1 (by decide +kernel)
  · rintro (h | h)
    · exact absurd h (by decide +kernel)
    · exact absurd h.1.2 (by decide +kernel)

theorem witness_PlainDecodersRejectForeignBytes :
    (let s := running 0x02 0 (ascii "1 ");
      s.engine = .busy ∧ s.latched.inLen.toNat ≤ s.params.inBufSize ∧
        ∃ c ∈ s.input, c ∉ b58Alphabet) ∧
    (let s := running 0x11 0 (ascii "U");
      s.engine = .busy ∧ s.latched.inLen.toNat ≤ s.params.inBufSize ∧
        ∃ c ∈ s.input, ∀ row ∈ c32Rows, c ∉ row) := by decide +kernel

/-- The Base58 clauses, and the two length checks at their bounds. -/
theorem witness_ChecksumDecodersReportInOrder_lengths :
    ((running 0x04 0 (ascii "111")).input = b58Encode [0, 0, 0] ∧
        ([0, 0, 0] : Bytes).length < 4) ∧
      ((running 0x04 0 (ascii "1111")).input = b58Encode [0, 0, 0, 0] ∧
        ([0, 0, 0, 0] : Bytes) = [] ++ [0, 0, 0, 0] ∧ checksum [] ≠ [0, 0, 0, 0]) ∧
      (running 0x14 0 (ascii "U")).input.length < 2 ∧
      (running 0x16 0 (ascii "SP2J6")).input.length ≤ 5 := by decide +kernel

/-- The C32 clauses at the shortest texts they speak of: a foreign byte, a body below four bytes, and a
body of four bytes with a wrong checksum. -/
theorem witness_ChecksumDecodersReportInOrder_texts :
    (∀ i ∈ [ascii "U0", ascii "P2"], 2 ≤ (running 0x14 0 i).input.length) ∧
      ((running 0x16 0 (ascii "SU0000")).input.drop 1 = ascii "U0000" ∧
        5 ≤ (ascii "U0000").length ∧ ∃ c ∈ ascii "U0000", c32Rom c = none) ∧
      ((∀ c ∈ ascii "P2J6Z", (c32Rom c).isSome = true) ∧
        (ascii "2J6Z").map c32Canonical = c32Encode [0x01, 0x48, 0xDF]) ∧
      ((ascii "0000").map c32Canonical = c32Encode [0, 0, 0, 0] ∧
        checksum [BitVec.ofNat 8 ((c32Rom 0x50).getD 0)] ≠ [0, 0, 0, 0]) := by decide +kernel

/-- A value at the last byte of the input, its record filling OUT_BUF. -/
theorem witness_ValDecCompletes :
    let s := { running 0x20 0 [0xff, 0x03] with params := ⟨2, 32, 0⟩, latched := ⟨0x20, 0, 2, 1⟩ }
    s.params.legal ∧ s.latched.inLen.toNat ≤ s.params.inBufSize ∧
      s.latched.inOff.toNat ≤ s.latched.inLen.toNat ∧
      decodeTop s.input s.latched.inOff.toNat =
        .ok ([⟨.boolTrue, 0, none, 1, 2, .empty⟩], 2) ∧
      32 * 1 ≤ s.params.outBufSize := by decide +kernel

/-- The bytes of the tuple of R262 and of the record its first entry's value leaves with CAP. -/
def keyedInput : Bytes := [0x0C, 0, 0, 0, 1, 1, 0x61, 0x03]

/-- That node: BoolTrue at offset 7, keyed by the name at offset 6. -/
def keyedNode : Node := ⟨.boolTrue, 1, some (6, 1), 7, 8, .empty⟩

/-- R255's fields, by offset, hold of its record. -/
theorem test_record_fields :
    (∃ n0, decodeTop keyedInput 0 = .ok ([n0, keyedNode], 8)) ∧
      RecordOf true keyedInput keyedNode (fun j =>
        ([0x03, 0x01, 0x03, 0x01, 0, 0, 0, 6, 0, 0, 0, 7, 0, 0, 0, 8] ++
          List.replicate 16 0 : Bytes)[j]?) where
  left := ⟨_, rfl⟩
  right :=
    { tag := by decide
      depth := by decide
      flags := ⟨3, by decide⟩
      unkeyed := fun h => nomatch h
      keyed := by
        rintro off len h
        obtain ⟨rfl, rfl⟩ : 6 = off ∧ 1 = len := by simpa [keyedNode] using h
        exact ⟨by decide, by decide, by decide, by decide, by decide⟩
      span := ⟨⟨by decide, by decide⟩, by decide, by decide⟩
      payload := show ZerosAt _ 16 16 by unfold ZerosAt; decide }

/-- A start cursor at the input's end; and a record that does not fit by one byte. -/
theorem witness_ValDecReportsDecodeErrorsBeforeOverflow :
    (let s := { running 0x20 0 [0x03] with latched := ⟨0x20, 0, 1, 1⟩ };
      s.engine = .busy ∧ s.latched.inLen.toNat ≤ s.params.inBufSize ∧
        s.latched.inOff.toNat ≤ s.latched.inLen.toNat ∧
        decodeTop s.input s.latched.inOff.toNat = .error .truncatedInput) ∧
    (let s := { running 0x20 0 [0x03] with params := ⟨1, 31, 0⟩ };
      decodeTop s.input s.latched.inOff.toNat =
          .ok ([⟨.boolTrue, 0, none, 0, 1, .empty⟩], 1) ∧
        s.params.outBufSize < 32 * 1) := by decide +kernel

/-- Payloads of the right length, and the failures at the bounds of their ranges. -/
theorem witness_LeafValuesDecode :
    (0x0F ≤ (0x0F : Byte).toNat ∧ 0x0F ≤ (0xFF : Byte).toNat ∧
      (List.replicate 15 (0 : Byte)).length < 16 ∧ (List.replicate 20 (0 : Byte)).length < 21 ∧
      (List.replicate 21 (0 : Byte)).length = 21 ∧ (0 : Byte).toNat = 0 ∧
      128 < (129 : Byte).toNat ∧
      ((128 : Byte).toNat ≤ 128 ∧ (List.replicate 127 (0 : Byte)).length < (128 : Byte).toNat)) ∧
    (List.replicate 16 (0x7F : Byte)).length = 16 ∧ (List.replicate 20 (0xFF : Byte)).length = 20 ∧
      ([] : Bytes).length ≤ 1048576 ∧ (List.replicate 128 (0x61 : Byte)).length ≤ 128 := by
  decide +kernel

/-- A tuple of a list, a principal and an integer at the edge of its range. -/
theorem witness_DecodingInvertsTheWireFormat :
    let v : Value := .tuple [(ascii "a", .list [.boolTrue, .stringUtf8 [[0x61], [0xC3, 0xA9]]]),
      (ascii "b", .optionalSome (.int (-(2 ^ 63))))]
    fitsWire 16 v = true ∧ ([0xFF] ++ wireValue v ++ [0x00]).length ≤ 2 ^ 24 :=
  ⟨by decide +kernel, by decide +kernel⟩

theorem witness_DepthBoundIsSixteen :
    (∀ b ∈ List.replicate 16 (0x07 : Byte) ++ [0x0A], b ∈ ([0x07, 0x08, 0x0A] : Bytes)) ∧
      (List.replicate 16 (0x07 : Byte) ++ [0x0A]).length = 17 ∧
      (List.replicate 16 (0x08 : Byte)).length ≤ 16 := by decide

theorem witness_OversizeIsDecidedBeforeTheData :
    ([0, 0, 0] : Bytes).length < 4 ∧ (([0x00, 0x10, 0x00, 0x01] : Bytes).length = 4 ∧ 1048576 < be [0x00, 0x10, 0x00, 0x01]) ∧
      (([0x00, 0x10, 0x00, 0x00] : Bytes).length = 4 ∧ be [0x00, 0x10, 0x00, 0x00] ≤ 1048576) ∧
      (be [0, 0, 0, 1] ≤ 1048576 ∧ ([] : Bytes).length < be [0, 0, 0, 1]) := by decide

/-- A wrapper whose child fails; a list whose second element is a bad prefix, and one that runs out. -/
theorem witness_ContainersFailAtTheirFirstBadPart_values :
    (([0x07, 0x0F] : Bytes)[0]? = some 0x07 ∧
        decodeValue [0x07, 0x0F] 16 1 1 = .error .badTypePrefix) ∧
      (slice ([0x0B, 0, 0, 0, 2, 0x03, 0xFF] : Bytes) 1 4 = beField 4 2 ∧
        ValuesInTurn [0x0B, 0, 0, 0, 2, 0x03, 0xFF] 16 1 1 5 6 ∧
        decodeValue [0x0B, 0, 0, 0, 2, 0x03, 0xFF] 16 1 6 = .error .badTypePrefix) ∧
      (slice ([0x0B, 0, 0x10, 0, 0] : Bytes) 1 4 = beField 4 1048576 ∧
        ValuesInTurn [0x0B, 0, 0x10, 0, 0] 16 1 0 5 5 ∧
        5 = ([0x0B, 0, 0x10, 0, 0] : Bytes).length) :=
  ⟨by decide, ⟨by decide, ⟨_, _, rfl, rfl⟩, by decide⟩, by decide, rfl, by decide⟩

/-- A tuple of three entries: two good ones, then what stands at offset 12. -/
def tupleInput (rest : Bytes) : Bytes :=
  [0x0C, 0, 0, 0, 3, 1, 0x61, 0x03, 2, 0x62, 0x63, 0x04] ++ rest

theorem tupleInput_entries (rest : Bytes) :
    slice (tupleInput rest) 1 4 = beField 4 3 ∧
      EntriesInTurn (tupleInput rest) 16 1 [ascii "a", ascii "bc"] 5 12 ∧
      [ascii "a", ascii "bc"].Nodup := by
  have h (p : Nat) (b : Byte) (hb : (tupleInput rest)[p]? = some b) (t : TypePrefix)
      (ht : t = .boolTrue ∨ t = .boolFalse) (hbt : typePrefixOf b = some t) :
      decodeValue (tupleInput rest) 16 1 p = .ok ([⟨t, 1, none, p, p + 1, .empty⟩], p + 1) := by
    have hp : p < (tupleInput rest).length := (List.getElem?_eq_some_iff.1 hb).1
    have hs : slice (tupleInput rest) p 1 = [b] := by
      unfold slice
      rw [List.drop_eq_getElem_cons hp, (List.getElem?_eq_some_iff.1 hb).2]
      rfl
    unfold decodeValue
    rcases takeBytes_cases (tupleInput rest) p 1 with ⟨_, he⟩ | ⟨hlt, _⟩
    · simp only [he, hs, List.headD_cons, hbt]
      rcases ht with rfl | rfl <;> rfl
    · omega
  exact ⟨rfl, ⟨by decide, rfl, _, _, h 7 0x03 rfl _ (.inl rfl) rfl, by decide, rfl, _, _,
    h 11 0x04 rfl _ (.inr rfl) rfl, rfl⟩, by decide⟩

/-- What may follow: nothing, a length out of range, a cut off name, a bad key, a repeat of either key,
and a good key with a bad value; and a bad key where no level is left for its value. -/
theorem witness_ContainersFailAtTheirFirstBadPart_keys :
    12 = (tupleInput []).length ∧
      ((tupleInput [0])[12]? = some 0 ∧ (tupleInput [129])[12]? = some 129 ∧
        128 < (129 : Byte).toNat) ∧
      ((tupleInput [2, 0x61]).drop 12 = 2 :: [0x61] ∧ (2 : Byte).toNat ≤ 128 ∧
        ([0x61] : Bytes).length < (2 : Byte).toNat) ∧
      ((tupleInput [1, 0x31]).drop 12 = wireName [0x31] ++ [] ∧
        isClarityName [0x31] = false) ∧
      (∀ key ∈ [ascii "a", ascii "bc"],
        (tupleInput (wireName key)).drop 12 = wireName key ++ [] ∧
          1 ≤ key.length ∧ key.length ≤ 128) ∧
      ((tupleInput [1, 0x64, 0x0F]).drop 12 = wireName (ascii "d") ++ [0x0F] ∧
        isClarityName (ascii "d") = true ∧ ascii "d" ∉ [ascii "a", ascii "bc"] ∧
        decodeValue (tupleInput [1, 0x64, 0x0F]) 16 1 14 = .error .badTypePrefix) ∧
      (slice ([0x0C, 0, 0, 0, 1, 1, 0x31] : Bytes) 1 4 = beField 4 1 ∧
        EntriesInTurn [0x0C, 0, 0, 0, 1, 1, 0x31] 0 17 [] 5 5 ∧
        ([0x0C, 0, 0, 0, 1, 1, 0x31] : Bytes).drop 5 = wireName [0x31] ++ []) :=
  ⟨by decide, by decide, by decide, by decide, by decide, by decide, by decide, rfl, by decide⟩

/-- A key repeats the first of two earlier ones. -/
theorem test_valDec_repeated_key :
    outcome (running 0x20 0 (tupleInput [1, 0x61, 0x03])) = failed .invalidName := by
  decide +kernel

theorem witness_DecoderConsumesExactlyItsBytes :
    decodeTop [0xff, 0x0A, 0x04, 0x03] 1 =
        .ok ([⟨.optionalSome, 0, none, 1, 3, .empty⟩, ⟨.boolFalse, 1, none, 2, 3, .empty⟩], 3) ∧
      3 ≤ ([0x00, 0x0A, 0x04] : Bytes).length ∧
      slice [0x00, 0x0A, 0x04] 1 2 = slice [0xff, 0x0A, 0x04, 0x03] 1 2 := by decide +kernel

theorem witness_DecoderReadsNothingBeforeItsStart :
    ([0xff, 0x03] : Bytes).length = ([0x00, 0x03] : Bytes).length ∧
      ([0xff, 0x03] : Bytes).drop 1 = ([0x00, 0x03] : Bytes).drop 1 := by decide

/-- The last node of a decode. -/
theorem witness_SpansDecodeToTheirSubtrees :
    decodeTop [0x0A, 0x04] 0 =
        .ok ([⟨.optionalSome, 0, none, 0, 2, .empty⟩, ⟨.boolFalse, 1, none, 1, 2, .empty⟩], 2) ∧
      ([⟨.optionalSome, 0, none, 0, 2, .empty⟩, ⟨.boolFalse, 1, none, 1, 2, .empty⟩] :
        List Node)[1]? = some ⟨.boolFalse, 1, none, 1, 2, .empty⟩ := by decide +kernel

/-- A decode with CAP, its record, and the record without CAP. -/
theorem witness_CaptureChangesOnlySpanFields :
    fValDec true 0 [0x03] = .ok (.records
        [[0x03, 0, 2, 0, 0, 0, 0, 0, 0, 0, 0, 0, 0, 0, 0, 1] ++ List.replicate 16 0] 1) ∧
      fValDec false 0 [0x03] = .ok (.records [0x03 :: List.replicate 31 0] 1) ∧
      fValDec true 0 [] = .error .truncatedInput := by decide +kernel

theorem witness_CommittedRecordsRebuildToOneValue :
    Inv (running 0x20 0 [0x03]) ∧ (running 0x20 0 [0x03]).engine = .busy ∧
      ∃ t, exec (.valDec false) (running 0x20 0 [0x03]) = .next t ∧ t.engine = .done :=
  ⟨running_inv _ _ _ (by decide), rfl, _, rfl, rfl⟩

end Sys2Proof.Tests
end

