-- ==== Sys2Proof/Proofs/Purity.lean ====
section
/-! PROOF. A command's result is a function of the latched operands, the sizes and its input bytes (R3):
Execute reads nothing else, and Commit writes its answer over result registers that START cleared. -/

namespace Sys2Proof.Machine

/-- Two machines hold the same inputs of a command: L, the parameters and the input bytes (R3). -/
structure SameInputs (s u : State) : Prop where
  latched : s.latched = u.latched
  params : s.params = u.params
  inByte : ∀ a, a < s.latched.inLen.toNat → s.inByte a = u.inByte a

/-- Two machines show the same result of a command (R115). -/
structure SameResult (s u : State) : Prop where
  engine : s.engine = u.engine
  err : s.err = u.err
  outLen : s.outLen = u.outLen
  cursor : s.cursor = u.cursor
  nodeCount : s.nodeCount = u.nodeCount
  versionOut : s.versionOut = u.versionOut
  outBuf : s.outBuf = u.outBuf

namespace SameInputs

variable {s u : State} (h : SameInputs s u)
include h

theorem input_eq : s.input = u.input := by
  have hbytes : (List.range s.latched.inLen.toNat).map s.inByte =
      (List.range s.latched.inLen.toNat).map u.inByte :=
    List.map_congr_left fun a ha => h.inByte a (List.mem_range.1 ha)
  rw [State.input, State.input, hbytes, h.latched]

theorem version_eq : s.version = u.version := by
  rw [State.version, State.version, h.latched]

theorem checkArgs_eq (i : Instr) : s.checkArgs i = u.checkArgs i := by
  rw [State.checkArgs, State.checkArgs, h.version_eq, h.latched, h.params]

/-- The operands a command's function takes beside IN are fields of L (R81, R82). -/
theorem commandFunction_eq (i : Instr) : commandFunction s i = commandFunction u i := by
  have hprefix : s.prefixByte = u.prefixByte := by
    rw [State.prefixByte, State.prefixByte, h.latched]
  have hcursor : s.startCursor = u.startCursor := by
    rw [State.startCursor, State.startCursor, h.latched]
  cases i <;> simp only [commandFunction, h.version_eq, hprefix, hcursor]

theorem execute_eq (i : Instr) (f : Bytes → Except CmdError CmdResult) :
    s.execute i f = u.execute i f := by
  rw [State.execute, State.execute, h.checkArgs_eq, h.input_eq, h.params]

end SameInputs

/-- Two BUSY machines show the same result: none yet (R41). -/
theorem Inv.sameResult_of_busy {s u : State} (hs : Inv s) (hu : Inv u) (hsb : s.engine = .busy)
    (hub : u.engine = .busy) : SameResult s u := by
  obtain ⟨cs, es⟩ := hs.busyClear hsb
  obtain ⟨cu, eu⟩ := hu.busyClear hub
  exact ⟨hsb.trans hub.symm, es.trans eu.symm, cs.outLen.trans cu.outLen.symm,
    cs.cursor.trans cu.cursor.symm, cs.nodeCount.trans cu.nodeCount.symm,
    cs.versionOut.trans cu.versionOut.symm, cs.outBuf.trans cu.outBuf.symm⟩

/-- A commit writes the same values over either machine and leaves the other result fields alone. -/
theorem SameResult.commit {s u : State} (h : SameResult s u) (r : Except CmdError CmdResult) :
    SameResult (s.commit r) (u.commit r) := by
  match r with
  | .error _ => exact { h with engine := rfl, err := rfl, outBuf := rfl }
  | .ok (.bytes _) => exact { h with engine := rfl, outLen := rfl, outBuf := rfl }
  | .ok (.versioned _ _) =>
    exact { h with engine := rfl, outLen := rfl, versionOut := rfl, outBuf := rfl }
  | .ok (.records _ _) =>
    exact { h with engine := rfl, outLen := rfl, cursor := rfl, nodeCount := rfl, outBuf := rfl }
  | .ok .check => exact { h with engine := rfl }

/-- Settles O26: Execute answers alike from the same inputs, and both machines commit that answer. -/
theorem commandsArePureFunctionsOfTheirInputs :
    Obligations.CommandsArePureFunctionsOfTheirInputs := by
  intro i s u hs hu hsb hub hlatched hparams hbytes
  have hin : SameInputs s u := ⟨hlatched, hparams, hbytes⟩
  have hanswer : s.execute i (commandFunction s i) = u.execute i (commandFunction u i) := by
    rw [hin.commandFunction_eq, hin.execute_eq]
  obtain ⟨engine, err, outLen, cursor, nodeCount, versionOut, outBuf⟩ :=
    (hs.sameResult_of_busy hu hsb hub).commit (s.execute i (commandFunction s i))
  rw [exec_eq, exec_eq, ← hanswer]
  exact ⟨_, _, rfl, rfl, engine, err, outLen, cursor, nodeCount, versionOut, outBuf⟩

end Sys2Proof.Machine
end

