-- ==== Sys2Proof/Proofs/CtrlWrites.lean ====
section
/-! PROOF. One step that takes a host write, and what a write to CTRL does: START and ACK (R22, R41,
R42). -/

namespace Sys2Proof.Machine

/-! ### The step at a host event -/

theorem not_busy_of_ended {s : State} (h : s.engine = .done ∨ s.engine = .error) :
    s.engine ≠ .busy := by
  rcases h with h | h <;> simp [h]

theorem completionDue_of_not_busy {s : State} (h : s.engine ≠ .busy) :
    s.completionDue = false := by
  simp [State.completionDue, h]

theorem step_of_not_due {s : State} (h : s.completionDue = false) : step s = s.hostStep := by
  simp [step, h]

/-- A poll, a read or a write outside BUSY counts down nothing (R43). -/
theorem State.tick_of_not_busy {s : State} (h : s.engine ≠ .busy) : s.tick = s := if_neg h

@[simp] theorem State.tick_engine (s : State) : s.tick.engine = s.engine :=
  (tick_sameMachine s).engine

/-- A write at an offset of the window is taken as the next host event (R50, R62). -/
theorem State.hostStep_write {s : State} {off width : Nat} {v : Word} {rest : List HostEvent}
    (hoff : off < windowSize) (hp : s.pending = .write (s.params.base + off) width v :: rest) :
    s.hostStep = .next ({ s with pending := rest }.tick.hostWrite off width v) := by
  have hin : s.inWindow (s.params.base + off) = true := by simpa [inWindow_add] using hoff
  simp [State.hostStep, hp, hin]

/-- The 32-bit write at offset 0 reaches CTRL whatever the buffer sizes are (R21, R51). -/
theorem State.hostWrite_ctrl (s : State) (v : Word) :
    s.hostWrite 0 4 v = (s.writeCtrl v).respond .accepted := rfl

/-- CTRL is the one register at its offset (R21). -/
theorem eq_zero_of_regAt_eq_ctrl {off : Nat} (halign : off % 4 = 0) (h : regAt off = .ctrl) :
    off = 0 := by
  unfold regAt at h
  split at h
  · omega
  all_goals cases h

/-- Outside BUSY the next step performs the write to CTRL that the host has made (R22, R62). -/
theorem step_writeCtrl {s : State} {v : Word} {rest : List HostEvent} (hb : s.engine ≠ .busy)
    (hp : s.pending = .write s.params.base 4 v :: rest) :
    step s = .next (({ s with pending := rest }.writeCtrl v).respond .accepted) := by
  have htick : { s with pending := rest }.tick = { s with pending := rest } :=
    State.tick_of_not_busy hb
  rw [step_of_not_due (completionDue_of_not_busy hb),
    State.hostStep_write (off := 0) (by decide) hp, htick, State.hostWrite_ctrl]

/-! ### The write to CTRL -/

/-- Bit 0 starts a command, whatever bit 1 is (R22). -/
theorem State.writeCtrl_start {s : State} {v : Word} (hb : s.engine ≠ .busy)
    (h0 : v.getLsbD 0 = true) : s.writeCtrl v = { s with ie := v.getLsbD 2 }.start := by
  simp [State.writeCtrl, h0, hb]

/-- Bit 1 acknowledges an ended command where bit 0 is clear (R22). -/
theorem State.writeCtrl_ack {s : State} {v : Word} (he : s.engine = .done ∨ s.engine = .error)
    (h0 : v.getLsbD 0 = false) (h1 : v.getLsbD 1 = true) :
    s.writeCtrl v = { s with ie := v.getLsbD 2 }.ack := by
  rcases he with he | he <;> simp only [State.writeCtrl, h0, h1, he] <;> rfl

/-- Settles O8: the step is the write to CTRL, and the write is START. -/
theorem startLatchesAndClears : Obligations.StartLatchesAndClears := by
  intro s v rest hb hp h0
  have hstart : { s with pending := rest }.writeCtrl v = _ := State.writeCtrl_start hb h0
  refine ⟨_, step_writeCtrl hb hp, ?_⟩
  rw [hstart]
  exact ⟨rfl, rfl, ⟨rfl, rfl, rfl, rfl, rfl⟩, rfl, rfl, rfl, rfl, rfl, rfl, rfl, rfl,
    inByte_congr rfl rfl, rfl, rfl⟩

/-- Settles O9: the step is the write to CTRL, and the write is ACK. -/
theorem ackReturnsToIdle : Obligations.AckReturnsToIdle := by
  intro s v rest he hp h0 h1
  have hb : s.engine ≠ .busy := not_busy_of_ended he
  have hack : { s with pending := rest }.writeCtrl v = _ := State.writeCtrl_ack he h0 h1
  refine ⟨_, step_writeCtrl hb hp, ?_⟩
  rw [hack]
  exact ⟨{ SameMachine.refl s with ie := rfl, engine := rfl }, by simp [State.irq], rfl, rfl⟩

end Sys2Proof.Machine
end

