-- ==== Sys2Proof/Proofs/InterruptLine.lean ====
section
/-! PROOF. The interrupt line (R45): what each operation makes of it, then what one step can make of
it, from which its rises and falls are read off. -/

namespace Sys2Proof.Machine

/-- The line is high when IE is set and a command has ended (R45). -/
theorem State.irq_iff (s : State) :
    s.irq = true ↔ s.ie = true ∧ (s.engine = .done ∨ s.engine = .error) := by
  simp [State.irq]

/-- Once a command has ended the line is IE. -/
theorem State.irq_of_ended {s : State} (h : s.engine = .done ∨ s.engine = .error) :
    s.irq = s.ie := by
  simp [State.irq, h]

theorem State.respond_irq (s : State) (r : BusResponse) : (s.respond r).irq = s.irq := rfl

theorem State.applyReset_irq (s : State) : s.applyReset.irq = false := rfl

/-- The line is a function of fields that `SameMachine` keeps. -/
theorem SameMachine.irq_eq {s t : State} (h : SameMachine s t) : t.irq = s.irq := by
  rw [State.irq, State.irq, h.ie, h.engine]

theorem State.tick_irq (s : State) : s.tick.irq = s.irq := (tick_sameMachine s).irq_eq

/-- However a command ends, the line then shows IE. -/
theorem State.commit_irq (s : State) (r : Except CmdError CmdResult) : (s.commit r).irq = s.ie := by
  have hended : (s.commit r).engine = .done ∨ (s.commit r).engine = .error := by
    rcases commit_engine s r with ⟨_, hdone, _⟩ | ⟨_, _, herror, _⟩
    · exact .inl hdone
    · exact .inr herror
  rw [State.irq_of_ended hended, (commit_sameOperands s r).ie]

/-! ### Writes -/

/-- What a write to CTRL has to be, in DONE or ERROR, to leave the line high (R45). -/
def holdsIrq (v : Word) : Prop :=
  v.getLsbD 0 = false ∧ v.getLsbD 1 = false ∧ v.getLsbD 2 = true

/-- START, ACK and clearing IE are what drops the line (R45). -/
theorem not_holdsIrq_iff (v : Word) :
    ¬ holdsIrq v ↔ v.getLsbD 0 = true ∨ v.getLsbD 1 = true ∨ v.getLsbD 2 = false := by
  simp only [holdsIrq, not_and_or, Bool.not_eq_false, Bool.not_eq_true]

/-- START and ACK leave DONE and ERROR; any other write to CTRL keeps STATE and sets IE. -/
theorem State.writeCtrl_irq (s : State) (v : Word) :
    (s.writeCtrl v).irq = true ↔ (s.engine = .done ∨ s.engine = .error) ∧ holdsIrq v := by
  rcases writeCtrl_cases s v with ⟨h0, _, hw⟩ | ⟨_, h1, _, hw⟩ | ⟨hkeep, hw⟩
  · simp [hw, State.irq_iff, holdsIrq, h0]
  · simp [hw, State.irq_iff, holdsIrq, h1]
  · rcases hkeep with hb | ⟨h0, h1 | hi⟩
    · simp [hw, State.irq_iff, hb]
    · simp only [hw, State.irq_iff, holdsIrq, h0, h1, true_and, and_comm]
    · simp [hw, State.irq_iff, hi]

/-- No register but CTRL bears on the line. -/
theorem State.writeReg_irq {s : State} {r : Reg} (v : Word) (h : r ≠ .ctrl) :
    (s.writeReg r v).irq = s.irq := by
  by_cases hb : s.engine = .busy
  · rw [writeReg_busy s r v hb, if_neg h]
  · rw [writeReg_idle s r v hb h]
    split_ifs <;> rfl

theorem State.writeInByte_irq (s : State) (a : Nat) (b : Byte) :
    (s.writeInByte a b).irq = s.irq := by
  unfold State.writeInByte
  split <;> rfl

/-- A host write that does not reach CTRL leaves the line alone. -/
theorem State.hostWrite_irq (s : State) (off width : Nat) (v : Word) :
    (off = 0 ∧ width = 4) ∨ (s.hostWrite off width v).irq = s.irq := by
  rcases hostWrite_cases s off width v with
    ⟨_, hw⟩ | ⟨hacc, ⟨hreg, hw⟩ | ⟨a, _, _, _, hw⟩ | ⟨a, _, _, hw⟩⟩
  · exact .inr (by rw [hw, State.respond_irq])
  · rw [hreg] at hacc
    obtain ⟨hwidth, halign⟩ : width = 4 ∧ off % 4 = 0 := by simpa [accessible] using hacc
    by_cases hctrl : regAt off = .ctrl
    · exact .inl ⟨eq_zero_of_regAt_eq_ctrl halign hctrl, hwidth⟩
    · exact .inr (by rw [hw, State.respond_irq, State.writeReg_irq v hctrl])
  · exact .inr (by rw [hw, State.respond_irq, State.writeInByte_irq])
  · exact .inr (by rw [hw, State.respond_irq])

/-! ### One step -/

/-- A completion step takes the line to IE. -/
theorem step_irq_of_due {s : State} (hd : s.completionDue = true) :
    ∃ t, step s = .next t ∧ t.irq = s.ie := by
  have hstep : step s = s.complete := if_pos hd
  rcases complete_cases s with ⟨_, _, hc⟩ | ⟨_, _, hc⟩
  · exact ⟨_, hstep.trans hc, s.commit_irq (.error .badCommand)⟩
  · exact ⟨_, hstep.trans hc, s.commit_irq _⟩

/-- A reset leaves the line low. -/
theorem step_irq_of_reset {s : State} {rest : List HostEvent} (hd : s.completionDue = false)
    (hp : s.pending = .reset :: rest) : ∃ t, step s = .next t ∧ t.irq = false :=
  ⟨{ s with pending := rest }.applyReset, by rw [step_of_not_due hd]; simp [State.hostStep, hp],
    State.applyReset_irq _⟩

/-- Outside BUSY a write to CTRL decides the line. -/
theorem step_irq_of_writeCtrl {s : State} {v : Word} {rest : List HostEvent}
    (hb : s.engine ≠ .busy) (hp : s.pending = .write s.params.base 4 v :: rest) :
    ∃ t, step s = .next t ∧
      (t.irq = true ↔ (s.engine = .done ∨ s.engine = .error) ∧ holdsIrq v) :=
  ⟨_, step_writeCtrl hb hp, State.writeCtrl_irq { s with pending := rest } v⟩

/-- Everything one host event can make of the line: only a reset and a write to CTRL touch it. -/
theorem hostStep_irq {s t : State} (h : s.hostStep = .next t) :
    t.irq = s.irq ∨
      ((∃ rest, s.pending = .reset :: rest) ∧ t.irq = false) ∨
      (∃ v rest, s.pending = .write s.params.base 4 v :: rest ∧
        (t.irq = true ↔ (s.engine = .done ∨ s.engine = .error) ∧ holdsIrq v)) := by
  rcases hostStep_cases h with
    ⟨_, rfl⟩ | ⟨rest, hp, rfl⟩ | ⟨rest, _, rfl⟩ | ⟨addr, width, rest, _, _, rfl⟩ |
      ⟨addr, width, v, rest, hp, hin, rfl⟩
  · exact .inl rfl
  · exact .inr (.inl ⟨⟨rest, hp⟩, State.applyReset_irq _⟩)
  · refine .inl ?_
    rw [State.respond_irq, State.tick_irq]
    split <;> rfl
  · exact .inl ((hostRead_spec _ _ _).1.irq_eq.trans (State.tick_irq _))
  · rcases State.hostWrite_irq { s with pending := rest }.tick (addr - s.params.base) width v with
      ⟨hoff, rfl⟩ | hsame
    · have hbase : s.params.base ≤ addr ∧ addr < s.params.base + windowSize := by
        simpa [State.inWindow] using hin
      have haddr : addr = s.params.base := by omega
      refine .inr (.inr ⟨v, rest, haddr ▸ hp, ?_⟩)
      rw [hoff, State.hostWrite_ctrl, State.respond_irq, State.writeCtrl_irq,
        State.tick_engine]
    · exact .inl (hsame.trans (State.tick_irq _))

/-- The line rises at a completion step with IE set, or at a write that sets IE once a command has
ended (R45). -/
theorem step_irq_rises {s t : State} (h : step s = .next t) (hs : s.irq = false)
    (ht : t.irq = true) :
    (s.completionDue = true ∧ s.ie = true) ∨
      (∃ v rest, s.pending = .write s.params.base 4 v :: rest ∧ v.getLsbD 2 = true ∧
        (s.engine = .done ∨ s.engine = .error)) := by
  by_cases hd : s.completionDue = true
  · obtain ⟨u, hu, hie⟩ := step_irq_of_due hd
    obtain rfl : u = t := Host.Outcome.next.inj (hu.symm.trans h)
    exact .inl ⟨hd, hie.symm.trans ht⟩
  · rw [step_of_not_due (by simpa using hd)] at h
    rcases hostStep_irq h with hsame | ⟨_, hlow⟩ | ⟨v, rest, hp, hline⟩
    · exact absurd (hs.symm.trans (hsame.symm.trans ht)) Bool.false_ne_true
    · exact absurd (hlow.symm.trans ht) Bool.false_ne_true
    · obtain ⟨hended, _, _, h2⟩ := hline.1 ht
      exact .inr ⟨v, rest, hp, h2, hended⟩

/-- The line falls at a reset, or at a write to CTRL that starts, acknowledges or clears IE
(R45). -/
theorem step_irq_falls {s t : State} (h : step s = .next t) (hs : s.irq = true)
    (ht : t.irq = false) :
    (∃ rest, s.pending = .reset :: rest) ∨
      (∃ v rest, s.pending = .write s.params.base 4 v :: rest ∧
        (v.getLsbD 0 = true ∨ v.getLsbD 1 = true ∨ v.getLsbD 2 = false)) := by
  have hended : s.engine = .done ∨ s.engine = .error := (s.irq_iff.1 hs).2
  rw [step_of_not_due (completionDue_of_not_busy (not_busy_of_ended hended))] at h
  rcases hostStep_irq h with hsame | ⟨hreset, _⟩ | ⟨v, rest, hp, hline⟩
  · exact absurd (ht.symm.trans (hsame.trans hs)) Bool.false_ne_true
  · exact .inl hreset
  · have hlow : ¬ holdsIrq v := fun hv =>
      Bool.false_ne_true (ht.symm.trans (hline.2 ⟨hended, hv⟩))
    exact .inr ⟨v, rest, hp, (not_holdsIrq_iff v).1 hlow⟩

/-- Settles O15: the level by definition, its causes by inversion of the step, and their effects. -/
theorem interruptLineRisesAndFalls : Obligations.InterruptLineRisesAndFalls := by
  refine ⟨State.irq_iff, fun _ _ => step_irq_rises, fun _ _ => step_irq_falls,
    fun _ => step_irq_of_due, fun s v rest hended hp => ?_, fun _ _ => step_irq_of_reset⟩
  obtain ⟨t, hstep, hline⟩ := step_irq_of_writeCtrl (not_busy_of_ended hended) hp
  exact ⟨t, hstep, hline.trans (and_iff_right hended)⟩

end Sys2Proof.Machine
end

