-- ==== Sys2Proof/Proofs/CommandWords.lean ====
section
/-! PROOF. Which command words select a row (R84 to R86): a row reads a word through its three
fields, so a word selects the row of its opcode when it is legal and no row when it is not; and what
the completion step makes of a word that selects none (R85). -/

namespace Sys2Proof

/-! ### A word and its fields -/

/-- OPC, CAP and RSVD together are the whole word (R80). -/
theorem word_eq_iff_fields (v w : Word) :
    v = w ↔ opcOf v = opcOf w ∧ capOf v = capOf w ∧ rsvdOf v = rsvdOf w := by
  refine ⟨fun h => h ▸ ⟨rfl, rfl, rfl⟩, fun ⟨hopc, hcap, hrsvd⟩ => BitVec.eq_of_getLsbD_eq ?_⟩
  intro i hi
  rcases Nat.lt_trichotomy i 8 with hlt | rfl | hgt
  · have hbit := congrArg (·.getLsbD i) hopc
    simpa [opcOf, hlt] using hbit
  · exact hcap
  · have hbit := congrArg (·.getLsbD (i - 9)) hrsvd
    simpa [rsvdOf, show i - 9 < 23 by omega, show 9 + (i - 9) = i by omega] using hbit

@[simp] theorem opcOf_and (v w : Word) : opcOf (v &&& w) = opcOf v &&& opcOf w :=
  BitVec.extractLsb'_and

@[simp] theorem capOf_and (v w : Word) : capOf (v &&& w) = (capOf v && capOf w) :=
  BitVec.getLsbD_and

@[simp] theorem rsvdOf_and (v w : Word) : rsvdOf (v &&& w) = rsvdOf v &&& rsvdOf w :=
  BitVec.extractLsb'_and

/-! ### The rows of R84 -/

/-- What R83 and R84 say of a row: its mask covers OPC and RSVD, and CAP unless it is VAL_DEC's row;
of its match only OPC, which R85 lists, may be other than zero. -/
structure OpcodeRow.WellFormed (r : OpcodeRow) : Prop where
  maskOpc : opcOf r.mask = BitVec.allOnes 8
  maskCap : capOf r.mask = (opcOf r.matchBits != 0x20)
  maskRsvd : rsvdOf r.mask = BitVec.allOnes 23
  matchOpc : listedOpcode (opcOf r.matchBits) = true
  matchCap : capOf r.matchBits = false
  matchRsvd : rsvdOf r.matchBits = 0

theorem opcodeTable_wellFormed {r : OpcodeRow} (hr : r ∈ opcodeTable) : r.WellFormed := by
  have hall : ∀ r ∈ opcodeTable,
      opcOf r.mask = BitVec.allOnes 8 ∧ capOf r.mask = (opcOf r.matchBits != 0x20) ∧
      rsvdOf r.mask = BitVec.allOnes 23 ∧ listedOpcode (opcOf r.matchBits) = true ∧
      capOf r.matchBits = false ∧ rsvdOf r.matchBits = 0 := by decide
  obtain ⟨maskOpc, maskCap, maskRsvd, matchOpc, matchCap, matchRsvd⟩ := hall r hr
  exact { maskOpc, maskCap, maskRsvd, matchOpc, matchCap, matchRsvd }

/-- The opcodes of the rows, in the table's order. -/
def rowOpcodes : List (BitVec 8) := opcodeTable.map (fun r => opcOf r.matchBits)

theorem rowOpcodes_nodup : rowOpcodes.Nodup := by decide

/-- The table has a row for each opcode that R85 lists as not reserved, and for no other. -/
theorem mem_rowOpcodes_iff (o : BitVec 8) : o ∈ rowOpcodes ↔ listedOpcode o = true := by
  have hrows : rowOpcodes = [0x01, 0x02, 0x03, 0x04, 0x10, 0x11, 0x12, 0x13, 0x14, 0x15, 0x16,
      0x20, 0x21, 0x22] := by decide
  simp only [hrows, listedOpcode, List.mem_cons, List.not_mem_nil, Bool.or_eq_true,
    Bool.and_eq_true, decide_eq_true_eq, or_false, ← BitVec.toNat_inj, BitVec.reduceToNat]
  omega

/-! ### Selecting a row -/

/-- A legal word, field by field (R85). -/
theorem legalWord_iff (w : Word) :
    legalWord w = true ↔
      listedOpcode (opcOf w) = true ∧ rsvdOf w = 0 ∧ (capOf w = true → opcOf w = 0x20) := by
  cases hcap : capOf w <;> simp [legalWord, hcap, and_assoc]

/-- R84's condition on a row of the table, field by field: the words it selects are the legal words
with its opcode. -/
theorem selects_iff {r : OpcodeRow} (hr : r ∈ opcodeTable) (w : Word) :
    r.selects w = true ↔ legalWord w = true ∧ opcOf r.matchBits = opcOf w := by
  have wf := opcodeTable_wellFormed hr
  have hfields : r.selects w = true ↔
      opcOf w = opcOf r.matchBits ∧ (capOf w && (opcOf r.matchBits != 0x20)) = false ∧
        rsvdOf w = 0 := by
    rw [OpcodeRow.selects, beq_iff_eq, word_eq_iff_fields, opcOf_and, capOf_and, rsvdOf_and,
      wf.maskOpc, wf.maskCap, wf.maskRsvd, wf.matchCap, wf.matchRsvd, BitVec.and_allOnes,
      BitVec.and_allOnes]
  rw [hfields, legalWord_iff]
  constructor
  · rintro ⟨hopc, hcap, hrsvd⟩
    exact ⟨⟨hopc ▸ wf.matchOpc, hrsvd, by simpa [hopc] using hcap⟩, hopc.symm⟩
  · rintro ⟨⟨_, hrsvd, hcap⟩, hopc⟩
    exact ⟨hopc.symm, by simpa [hopc] using hcap, hrsvd⟩

/-- A legal word selects one row: the opcodes of the table are distinct, and its own is one of
them. -/
theorem length_filter_selects_of_legal {w : Word} (h : legalWord w = true) :
    (opcodeTable.filter (fun r => r.selects w)).length = 1 := by
  have hmem : opcOf w ∈ rowOpcodes := (mem_rowOpcodes_iff _).2 ((legalWord_iff w).1 h).1
  calc (opcodeTable.filter (fun r => r.selects w)).length
      = opcodeTable.countP (fun r => r.selects w) := List.countP_eq_length_filter.symm
    _ = opcodeTable.countP (fun r => opcOf r.matchBits == opcOf w) :=
        List.countP_congr fun r hr => by simp [selects_iff hr, h]
    _ = rowOpcodes.count (opcOf w) := by rw [rowOpcodes, List.count, List.countP_map]; rfl
    _ = 1 := List.count_eq_one_of_mem rowOpcodes_nodup hmem

theorem filter_selects_of_illegal {w : Word} (h : legalWord w = false) :
    opcodeTable.filter (fun r => r.selects w) = [] :=
  List.filter_eq_nil_iff.2 fun r hr => by simp [selects_iff hr, h]

/-! ### Decoding -/

/-- The decoder answers with the row a word selects, given the word's CAP bit. -/
theorem decode_of_filter_eq_singleton {w : Word} {r : OpcodeRow}
    (h : opcodeTable.filter (fun r => r.selects w) = [r]) :
    decode w = .ok (r.build (capOf w)) := by
  have hfind : opcodeTable.find? (fun r => r.selects w) = some r := by
    rw [← List.head?_filter, h, List.head?_cons]
  simp only [decode, hfind, capOf]

theorem decode_of_filter_eq_nil {w : Word}
    (h : opcodeTable.filter (fun r => r.selects w) = []) : decode w = .error (refusalOf w) := by
  have hfind : opcodeTable.find? (fun r => r.selects w) = none := by
    rw [← List.head?_filter, h, List.head?_nil]
  simp only [decode, hfind]

theorem decode_ok_of_legal {w : Word} (h : legalWord w = true) : ∃ i, decode w = .ok i := by
  obtain ⟨r, hr⟩ := List.length_eq_one_iff.1 (length_filter_selects_of_legal h)
  exact ⟨_, decode_of_filter_eq_singleton hr⟩

theorem decode_error_of_illegal {w : Word} (h : legalWord w = false) :
    decode w = .error (refusalOf w) :=
  decode_of_filter_eq_nil (filter_selects_of_illegal h)

/-- Settles O2: legal words select the row of their opcode, illegal words none. -/
theorem everyWordSelectsOneRowOrIsIllegal : Obligations.EveryWordSelectsOneRowOrIsIllegal := by
  refine ⟨fun w => ?_, rowOpcodes_nodup, fun r hr => (opcodeTable_wellFormed hr).maskOpc⟩
  cases h : legalWord w with
  | true => exact .inl ⟨rfl, length_filter_selects_of_legal h, decode_ok_of_legal h⟩
  | false =>
    exact .inr ⟨rfl, filter_selects_of_illegal h, _, decode_error_of_illegal h⟩

end Sys2Proof

namespace Sys2Proof.Machine

/-! ### The completion step on an illegal word -/

/-- An illegal word takes the completion step to the error BadCommand (R85, R114). -/
theorem complete_of_illegal {s : State} (h : legalWord s.latched.cmd = false) :
    s.complete = .next (s.commitError .badCommand) := by
  rcases complete_cases s with ⟨_, _, hc⟩ | ⟨i, hi, _⟩
  · exact hc
  · exact nomatch (decode_error_of_illegal h).symm.trans hi

/-- Settles O5: the decoder refuses the word, and the step commits BadCommand. -/
theorem illegalWordEndsInBadCommand : Obligations.IllegalWordEndsInBadCommand := by
  intro s hdue hillegal
  have hstep : step s = s.complete := if_pos hdue
  exact ⟨_, hstep.trans (complete_of_illegal hillegal), commitError_failedWith s .badCommand⟩

end Sys2Proof.Machine
end

