-- ==== Sys2Proof/Proofs/Digits.lean ====
section
/-! PROOF. Digit lists and shortest byte sequences (R100 to R102): the model's `digits`, `ofDigits`,
`be` and `bytesMin` tied to Mathlib's digits, which stand least significant first, and from there their
round trips both ways. -/

namespace Sys2Proof.Machine

/-! ### Digits in any base -/

/-- Fuel enough for every digit of `n` gives all of them, in front of what stands there already. -/
theorem digitsAux_eq {base : Nat} (hb : 2 ≤ base) {fuel n : Nat} (hn : n < base ^ fuel)
    (acc : List Nat) : digitsAux base fuel n acc = (Nat.digits base n).reverse ++ acc := by
  induction fuel generalizing n acc with
  | zero =>
    obtain rfl : n = 0 := by simpa using hn
    simp [digitsAux]
  | succ fuel ih =>
    by_cases h0 : n = 0
    · simp [digitsAux, h0]
    · have hdiv : n / base < base ^ fuel := Nat.div_lt_of_lt_mul (pow_succ' base fuel ▸ hn)
      rw [digitsAux, if_neg h0, ih hdiv, Nat.digits_eq_cons_digits_div hb h0]
      simp

/-- `digits` is Mathlib's digit list, most significant digit first: a number has at most as many digits
as bits. -/
theorem digits_eq_reverse {base : Nat} (hb : 2 ≤ base) (n : Nat) :
    digits base n = (Nat.digits base n).reverse := by
  have hfuel : n < base ^ (n.log2 + 1) :=
    calc n < 2 ^ (n.log2 + 1) := Nat.lt_log2_self
      _ ≤ base ^ (n.log2 + 1) := Nat.pow_le_pow_left hb _
  rw [digits, digitsAux_eq hb hfuel, List.append_nil]

theorem ofDigits_eq_reverse (base : Nat) (d : List Nat) :
    ofDigits base d = Nat.ofDigits base d.reverse := by
  simp [ofDigits, Nat.ofDigits_eq_foldr, add_comm]

/-- The digits of a number have that value (R102). -/
theorem ofDigits_digits {base : Nat} (hb : 2 ≤ base) (n : Nat) :
    ofDigits base (digits base n) = n := by
  rw [ofDigits_eq_reverse, digits_eq_reverse hb, List.reverse_reverse, Nat.ofDigits_digits]

theorem digits_lt_base {base n d : Nat} (hb : 2 ≤ base) (hd : d ∈ digits base n) : d < base := by
  rw [digits_eq_reverse hb, List.mem_reverse] at hd
  exact Nat.digits_lt_base hb hd

theorem digits_head?_ne_zero {base : Nat} (hb : 2 ≤ base) (n : Nat) :
    (digits base n).head? ≠ some 0 := by
  rw [digits_eq_reverse hb, List.head?_reverse]
  intro h
  have hne : Nat.digits base n ≠ [] := fun hnil => by simp [hnil] at h
  rw [List.getLast?_eq_some_getLast hne, Option.some.injEq] at h
  exact Nat.getLast_digit_ne_zero base (Nat.digits_ne_nil_iff_ne_zero.1 hne) h

/-- A list of digits below the base, with no leading zero, is the digit list of its value (R102). -/
theorem digits_ofDigits {base : Nat} (hb : 2 ≤ base) {l : List Nat} (hlt : ∀ d ∈ l, d < base)
    (hhead : l.head? ≠ some 0) : digits base (ofDigits base l) = l := by
  have hlast : ∀ h : l.reverse ≠ [], l.reverse.getLast h ≠ 0 := fun h h0 =>
    hhead (by rw [← List.getLast?_reverse, List.getLast?_eq_some_getLast h, h0])
  rw [digits_eq_reverse hb, ofDigits_eq_reverse,
    Nat.digits_ofDigits base hb _ (by simpa using hlt) hlast, List.reverse_reverse]

/-- A number has at most `k` digits exactly when it is below the `k`-th power of the base. -/
theorem digits_length_le_iff {base : Nat} (hb : 2 ≤ base) (n k : Nat) :
    (digits base n).length ≤ k ↔ n < base ^ k := by
  rw [digits_eq_reverse hb, List.length_reverse, Nat.digits_length_le_iff hb]

/-! ### Bytes as digits in base 256 -/

/-- `be` reads a byte sequence as digits in base 256 (R100). -/
theorem be_eq_ofDigits (s : Bytes) : be s = ofDigits 256 (s.map BitVec.toNat) := by
  rw [be, ofDigits, List.foldl_map]

@[simp] theorem bytesMin_length (n : Nat) : (bytesMin n).length = (digits 256 n).length :=
  List.length_map _

/-- The shortest bytes of a number are its digits in base 256, each a byte. -/
theorem bytesMin_map_toNat (n : Nat) : (bytesMin n).map BitVec.toNat = digits 256 n := by
  have hbyte : ∀ d ∈ digits 256 n, (BitVec.toNat ∘ BitVec.ofNat 8) d = id d := fun d hd =>
    Nat.mod_eq_of_lt (digits_lt_base (by decide) hd)
  rw [bytesMin, List.map_map, List.map_congr_left hbyte, List.map_id]

theorem head?_map_toNat_ne_zero_iff (s : Bytes) :
    (s.map BitVec.toNat).head? ≠ some 0 ↔ s.head? ≠ some 0 := by
  cases s with
  | nil => simp
  | cons b s => simp [← BitVec.toNat_inj]

@[simp] theorem be_bytesMin (n : Nat) : be (bytesMin n) = n := by
  rw [be_eq_ofDigits, bytesMin_map_toNat, ofDigits_digits (by decide)]

theorem bytesMin_head?_ne_zero (n : Nat) : (bytesMin n).head? ≠ some 0 := by
  rw [← head?_map_toNat_ne_zero_iff, bytesMin_map_toNat]
  exact digits_head?_ne_zero (by decide) n

/-- A byte sequence with no leading zero is the shortest one of its value (R101). -/
theorem bytesMin_be {s : Bytes} (hhead : s.head? ≠ some 0) : bytesMin (be s) = s := by
  refine List.map_injective_iff.2 (fun _ _ => BitVec.eq_of_toNat_eq) ?_
  rw [bytesMin_map_toNat, be_eq_ofDigits]
  refine digits_ofDigits (by decide) (fun d hd => ?_) ((head?_map_toNat_ne_zero_iff s).2 hhead)
  obtain ⟨b, _, rfl⟩ := List.mem_map.1 hd
  exact b.isLt

/-- No byte sequence is shorter than the shortest one of its value (R101). -/
theorem bytesMin_be_length_le (s : Bytes) : (bytesMin (be s)).length ≤ s.length := by
  rw [bytesMin_length, digits_length_le_iff (by decide)]
  exact be_lt s

/-- Settles O27: the round trips between numbers, digit lists and byte sequences. -/
theorem digitsAndShortestBytesAreUnique : Obligations.DigitsAndShortestBytesAreUnique := by
  refine ⟨fun base n hb => ⟨ofDigits_digits hb n, fun _ => digits_lt_base hb,
    digits_head?_ne_zero hb n, ?_⟩, fun n => ⟨be_bytesMin n, bytesMin_head?_ne_zero n, ?_, ?_⟩⟩
  · rintro l rfl hlt hhead
    exact (digits_ofDigits hb hlt hhead).symm
  · rintro s rfl
    exact bytesMin_be_length_le s
  · rintro s rfl hhead
    exact (bytesMin_be hhead).symm

end Sys2Proof.Machine
end

