-- ==== Sys2Proof/Proofs/LookupRoms.lean ====
section
/-! PROOF. The lookup ROMs (R106 to R109): a search for the one place of a list where a test passes
finds that place, so B58_MAP inverts the alphabet and C32_MAP the table of spellings; and the INVALID
bytes are those the list leaves out. -/

namespace Sys2Proof.Machine

/-! ### Any ROM -/

/-- Where a test passes at one place at most, the search finds a place exactly when the test passes
there. -/
theorem findIdx?_eq_some_iff_of_pairwise {α : Type} {p : α → Bool} {l : List α}
    (h : l.Pairwise (fun a b => ¬ (p a = true ∧ p b = true))) (v : Nat) :
    l.findIdx? p = some v ↔ ∃ hv : v < l.length, p l[v] = true := by
  rw [List.findIdx?_eq_some_iff_getElem]
  refine ⟨fun ⟨hv, hp, _⟩ => ⟨hv, hp⟩, fun ⟨hv, hp⟩ => ⟨hv, hp, fun j hj hpj => ?_⟩⟩
  exact List.pairwise_iff_getElem.1 h j v (hj.trans hv) hv hj ⟨hpj, hp⟩

/-- A ROM that is INVALID off a list of distinct bytes is so on all bytes but as many as the list
holds. -/
theorem invalid_count_add_length {rom : Byte → Option Nat} {valid : Bytes} (hnodup : valid.Nodup)
    (hrom : ∀ x, rom x = none ↔ x ∉ valid) :
    ((List.range 256).filter (fun n => (rom (BitVec.ofNat 8 n)).isNone)).length + valid.length =
      256 := by
  have hperm : ((List.range 256).filter (fun n => !(rom (BitVec.ofNat 8 n)).isNone)).Perm
      (valid.map BitVec.toNat) := by
    refine (List.perm_ext_iff_of_nodup (List.nodup_range.filter _)
      (hnodup.map fun _ _ => BitVec.eq_of_toNat_eq)).2 fun n => ?_
    have hmem : (rom (BitVec.ofNat 8 n)).isNone = false ↔ BitVec.ofNat 8 n ∈ valid := by
      rw [← Bool.not_eq_true, Option.isNone_iff_eq_none, hrom, not_not]
    rw [List.mem_filter, List.mem_range, Bool.not_eq_true', hmem, List.mem_map]
    constructor
    · rintro ⟨hn, hv⟩
      exact ⟨_, hv, Nat.mod_eq_of_lt hn⟩
    · rintro ⟨b, hb, rfl⟩
      exact ⟨b.isLt, by rwa [BitVec.ofNat_toNat, BitVec.setWidth_eq]⟩
  rw [← List.length_map (as := valid) BitVec.toNat, ← hperm.length_eq,
    ← List.length_eq_length_filter_add, List.length_range]

/-! ### B58_MAP -/

theorem b58Alphabet_nodup : b58Alphabet.Nodup := by decide

/-- B58_MAP gives a byte the value of the one symbol it is (R107). -/
theorem b58Rom_eq_some_iff (x : Byte) (v : Nat) :
    b58Rom x = some v ↔ v < 58 ∧ b58Symbol v = x := by
  have hone : b58Alphabet.Pairwise (fun a b => ¬ ((a == x) = true ∧ (b == x) = true)) :=
    b58Alphabet_nodup.imp fun hne ⟨ha, hb⟩ => hne ((eq_of_beq ha).trans (eq_of_beq hb).symm)
  rw [b58Rom, findIdx?_eq_some_iff_of_pairwise hone, ← exists_prop]
  refine exists_congr fun hv => ?_
  rw [beq_iff_eq, b58Symbol, List.getD_eq_getElem _ _ hv]

theorem b58Rom_eq_none_iff (x : Byte) : b58Rom x = none ↔ x ∉ b58Alphabet := by
  rw [b58Rom, List.findIdx?_eq_none_iff]
  simp only [beq_eq_false_iff_ne]
  exact ⟨fun h hx => h x hx rfl, fun h y hy hyx => h (hyx ▸ hy)⟩

/-! ### C32_MAP -/

/-- The bytes that R109 gives the value v: the symbol, its lower-case letter, and the letters that are
read as 0 or as 1. -/
def c32Spellings (v : Nat) : Bytes :=
  [c32Symbol v] ++ (if 0x41 ≤ (c32Symbol v).toNat then [c32Symbol v + 0x20] else []) ++
    (if v = 0 then [0x4F, 0x6F] else []) ++ (if v = 1 then [0x49, 0x69, 0x4C, 0x6C] else [])

theorem c32Rows_eq_map_spellings : c32Rows = (List.range 32).map c32Spellings := by decide

theorem mem_c32Spellings_iff (x : Byte) (v : Nat) :
    x ∈ c32Spellings v ↔
      x = c32Symbol v ∨ (0x41 ≤ (c32Symbol v).toNat ∧ x = c32Symbol v + 0x20) ∨
        (v = 0 ∧ x ∈ ([0x4F, 0x6F] : Bytes)) ∨
        (v = 1 ∧ x ∈ ([0x49, 0x69, 0x4C, 0x6C] : Bytes)) := by
  simp only [c32Spellings, List.mem_append, List.mem_ite_nil_right, List.mem_singleton, or_assoc]

/-- No byte spells two values, and none is listed twice. -/
theorem c32Rows_flatten_nodup : c32Rows.flatten.Nodup := by decide

/-- C32_MAP gives a byte the one value it spells (R109). -/
theorem c32Rom_eq_some_iff (x : Byte) (v : Nat) :
    c32Rom x = some v ↔ v < 32 ∧ x ∈ c32Spellings v := by
  have hone : c32Rows.Pairwise (fun a b => ¬ (a.contains x = true ∧ b.contains x = true)) :=
    (List.nodup_flatten.1 c32Rows_flatten_nodup).2.imp fun hdisj ⟨ha, hb⟩ =>
      hdisj (List.contains_iff_mem.1 ha) (List.contains_iff_mem.1 hb)
  rw [c32Rom, findIdx?_eq_some_iff_of_pairwise hone, ← exists_prop]
  simp [c32Rows_eq_map_spellings]

theorem c32Rom_eq_none_iff (x : Byte) : c32Rom x = none ↔ x ∉ c32Rows.flatten := by
  simp [c32Rom, List.findIdx?_eq_none_iff]

/-! ### The obligation -/

/-- Settles O28: the ROMs are searches for a symbol and for a spelling, and INVALID off the 58 symbols
and the 60 spellings. -/
theorem lookupRomsMatchTheAlphabets : Obligations.LookupRomsMatchTheAlphabets :=
  ⟨by decide, b58Rom_eq_some_iff,
    Nat.add_right_cancel (invalid_count_add_length b58Alphabet_nodup b58Rom_eq_none_iff),
    by decide, fun x v =>
      (c32Rom_eq_some_iff x v).trans (and_congr_right fun _ => mem_c32Spellings_iff x v),
    Nat.add_right_cancel (invalid_count_add_length c32Rows_flatten_nodup c32Rom_eq_none_iff)⟩

end Sys2Proof.Machine
end

