-- ==== Sys2Proof/Proofs/LeadingZeros.lean ====
section
/-! PROOF. Leading zeros (R103): a sequence is its leading zeros and the rest, which does not begin with
one; so the leading zeros and the shortest form of a value together give a digit list or a byte sequence
back. -/

namespace Sys2Proof.Machine

/-! ### Leading elements -/

section Lead
variable {α : Type} [DecidableEq α]

@[simp] theorem lead_nil (x : α) : lead [] x = 0 := rfl

@[simp] theorem lead_cons_self (x : α) (s : List α) : lead (x :: s) x = lead s x + 1 := by
  simp [lead]

theorem lead_cons_of_ne {x y : α} (h : y ≠ x) (s : List α) : lead (y :: s) x = 0 := by
  simp [lead, h]

theorem replicate_lead_append_drop (s : List α) (x : α) :
    List.replicate (lead s x) x ++ s.drop (lead s x) = s := by
  induction s with
  | nil => rfl
  | cons y s ih =>
    by_cases h : y = x
    · subst h
      simp [List.replicate_succ, ih]
    · simp [lead_cons_of_ne h]

theorem head?_drop_lead_ne (s : List α) (x : α) : (s.drop (lead s x)).head? ≠ some x := by
  induction s with
  | nil => simp
  | cons y s ih =>
    by_cases h : y = x
    · subst h
      simpa using ih
    · simpa [lead_cons_of_ne h] using h

theorem lead_eq_zero {s : List α} {x : α} (hs : s.head? ≠ some x) : lead s x = 0 := by
  cases s with
  | nil => rfl
  | cons y s => exact lead_cons_of_ne (by simpa using hs) s

theorem lead_replicate_append {s : List α} {x : α} (hs : s.head? ≠ some x) (n : Nat) :
    lead (List.replicate n x ++ s) x = n := by
  induction n with
  | zero => exact lead_eq_zero hs
  | succ n ih => rw [List.replicate_succ, List.cons_append, lead_cons_self, ih]

/-- A renaming that sends nothing else to the new name of `x` keeps the number of leading `x`. -/
theorem lead_map {β : Type} [DecidableEq β] {f : α → β} {s : List α} {x : α}
    (hf : ∀ y ∈ s, f y = f x → y = x) : lead (s.map f) (f x) = lead s x := by
  induction s with
  | nil => rfl
  | cons y s ih =>
    obtain ⟨hy, hs⟩ := List.forall_mem_cons.1 hf
    by_cases h : y = x
    · subst h
      rw [List.map_cons, lead_cons_self, lead_cons_self, ih hs]
    · rw [List.map_cons, lead_cons_of_ne h, lead_cons_of_ne fun he => h (hy he)]

end Lead

/-! ### The value of a list in parts -/

theorem ofDigits_append (base : Nat) (d e : List Nat) :
    ofDigits base (d ++ e) = ofDigits base d * base ^ e.length + ofDigits base e := by
  simp only [ofDigits_eq_reverse, List.reverse_append, Nat.ofDigits_append, List.length_reverse]
  ring

theorem ofDigits_append_singleton (base : Nat) (d : List Nat) (v : Nat) :
    ofDigits base (d ++ [v]) = base * ofDigits base d + v := by
  simp [ofDigits]

@[simp] theorem ofDigits_nil (base : Nat) : ofDigits base [] = 0 := rfl

@[simp] theorem ofDigits_replicate_zero_append (base n : Nat) (d : List Nat) :
    ofDigits base (List.replicate n 0 ++ d) = ofDigits base d := by
  rw [ofDigits_append, ofDigits_eq_reverse base (List.replicate n 0), List.reverse_replicate,
    Nat.ofDigits_replicate_zero, zero_mul, zero_add]

@[simp] theorem be_replicate_zero_append (n : Nat) (b : Bytes) :
    be (List.replicate n 0 ++ b) = be b := by
  simp [be_eq_ofDigits]

/-- A list with no leading zero has the value 0 only if it is empty. -/
theorem ofDigits_eq_zero_iff {base : Nat} (hb : 0 < base) {d : List Nat}
    (hhead : d.head? ≠ some 0) : ofDigits base d = 0 ↔ d = [] := by
  refine ⟨fun h => ?_, fun h => h ▸ rfl⟩
  cases d with
  | nil => rfl
  | cons x d =>
    have hx : 0 < x := Nat.pos_of_ne_zero (by simpa using hhead)
    have hval : ofDigits base (x :: d) = x * base ^ d.length + ofDigits base d := by
      simpa [ofDigits] using ofDigits_append base [x] d
    have hpos : 0 < x * base ^ d.length := Nat.mul_pos hx (Nat.pow_pos hb)
    omega

/-! ### A list from its leading zeros and its value -/

theorem ofDigits_drop_lead (base : Nat) (d : List Nat) :
    ofDigits base (d.drop (lead d 0)) = ofDigits base d := by
  conv_rhs => rw [← replicate_lead_append_drop d 0, ofDigits_replicate_zero_append]

theorem be_drop_lead (b : Bytes) : be (b.drop (lead b 0)) = be b := by
  conv_rhs => rw [← replicate_lead_append_drop b 0, be_replicate_zero_append]

/-- A digit list is its leading zeros and the digits of its value (R102, R103). -/
theorem replicate_lead_append_digits {base : Nat} (hb : 2 ≤ base) {d : List Nat}
    (hlt : ∀ v ∈ d, v < base) :
    List.replicate (lead d 0) 0 ++ digits base (ofDigits base d) = d := by
  have hdrop : digits base (ofDigits base d) = d.drop (lead d 0) := by
    rw [← ofDigits_drop_lead]
    exact digits_ofDigits hb (fun v hv => hlt v (List.mem_of_mem_drop hv)) (head?_drop_lead_ne d 0)
  rw [hdrop, replicate_lead_append_drop]

/-- A byte sequence is its leading zero bytes and the shortest bytes of its value (R101, R103). -/
theorem replicate_lead_append_bytesMin (b : Bytes) :
    List.replicate (lead b 0) 0 ++ bytesMin (be b) = b := by
  rw [← be_drop_lead, bytesMin_be (head?_drop_lead_ne b 0), replicate_lead_append_drop]

end Sys2Proof.Machine
end

