-- ==== Sys2Proof/Proofs/Base58RoundTrip.lean ====
section
/-! PROOF. Base58 is a bijection (R130, R133, R135): a string over the alphabet is a list of digits
below 58 spelled out, and both directions keep the number of leading zeros and the value. -/

namespace Sys2Proof.Machine

/-! ### Strings over the alphabet as digit lists -/

theorem b58Symbol_mem {v : Nat} (hv : v < 58) : b58Symbol v ∈ b58Alphabet := by
  have hlen : v < b58Alphabet.length := hv
  rw [b58Symbol, List.getD_eq_getElem _ _ hlen]
  exact List.getElem_mem hlen

/-- The lookup of a string answers the digits it spells (R107). -/
theorem lookupAll_b58Rom_eq_some_iff (s : Bytes) (d : List Nat) :
    lookupAll b58Rom s = some d ↔ (∀ v ∈ d, v < 58) ∧ d.map b58Symbol = s := by
  induction s generalizing d with
  | nil => cases d <;> simp
  | cons c s ih =>
    rw [lookupAll_cons]
    cases d with
    | nil => simp [Option.bind_eq_some_iff]
    | cons v d =>
      simp only [Option.bind_eq_some_iff, Option.map_eq_some_iff, List.cons.injEq, List.map_cons,
        List.forall_mem_cons, b58Rom_eq_some_iff, ih]
      constructor
      · rintro ⟨v, ⟨hv, hc⟩, d, ⟨hd, hs⟩, rfl, rfl⟩
        exact ⟨⟨hv, hd⟩, hc, hs⟩
      · rintro ⟨⟨hv, hd⟩, hc, hs⟩
        exact ⟨v, ⟨hv, hc⟩, d, ⟨hd, hs⟩, rfl, rfl⟩

theorem exists_lookupAll_b58Rom {s : Bytes} (hs : ∀ c ∈ s, c ∈ b58Alphabet) :
    ∃ d, lookupAll b58Rom s = some d := by
  refine Option.ne_none_iff_exists'.1 fun hnone => ?_
  obtain ⟨c, hc, hinvalid⟩ := (lookupAll_eq_none s).1 hnone
  exact (b58Rom_eq_none_iff c).1 hinvalid (hs c hc)

/-- The leading `1`s of a string are the leading zeros of its digits. -/
theorem lead_map_b58Symbol {d : List Nat} (hd : ∀ v ∈ d, v < 58) :
    lead (d.map b58Symbol) 0x31 = lead d 0 := by
  have hzero : ∀ v ∈ d, b58Symbol v = b58Symbol 0 → v = 0 := fun v hv h =>
    Option.some.inj (((b58Rom_eq_some_iff _ _).2 ⟨hd v hv, h⟩).symm.trans
      ((b58Rom_eq_some_iff _ _).2 ⟨by decide, rfl⟩))
  exact lead_map hzero

/-! ### Encoding and decoding through digit lists -/

/-- The digits that `B58Encode` spells (R130). -/
def b58Digits (b : Bytes) : List Nat := List.replicate (lead b 0) 0 ++ digits 58 (be b)

theorem b58Encode_eq_map (b : Bytes) : b58Encode b = (b58Digits b).map b58Symbol := by
  rw [b58Encode, b58Digits, List.map_append, List.map_replicate]
  rfl

theorem b58Digits_lt (b : Bytes) : ∀ v ∈ b58Digits b, v < 58 := by
  intro v hv
  rcases List.mem_append.1 hv with hzero | hdigit
  · rw [List.eq_of_mem_replicate hzero]
    decide
  · exact digits_lt_base (by decide) hdigit

theorem lead_b58Digits (b : Bytes) : lead (b58Digits b) 0 = lead b 0 :=
  lead_replicate_append (digits_head?_ne_zero (by decide) _) _

theorem ofDigits_b58Digits (b : Bytes) : ofDigits 58 (b58Digits b) = be b := by
  rw [b58Digits, ofDigits_replicate_zero_append, ofDigits_digits (by decide)]

theorem b58Decode_of_lookupAll {s : Bytes} {d : List Nat} (h : lookupAll b58Rom s = some d) :
    b58Decode s = .ok (List.replicate (lead d 0) 0 ++ bytesMin (ofDigits 58 d)) := by
  obtain ⟨hd, rfl⟩ := (lookupAll_b58Rom_eq_some_iff _ _).1 h
  simp only [b58Decode, h, lead_map_b58Symbol hd]

theorem b58Decode_of_lookupAll_none {s : Bytes} (h : lookupAll b58Rom s = none) :
    b58Decode s = .error .invalidCharacter := by
  simp only [b58Decode, h]

/-- A digit list is the one that encoding its bytes gives: the same leading zeros, the same value. -/
theorem b58Digits_bytes {d : List Nat} (hd : ∀ v ∈ d, v < 58) :
    b58Digits (List.replicate (lead d 0) 0 ++ bytesMin (ofDigits 58 d)) = d := by
  rw [b58Digits, lead_replicate_append (bytesMin_head?_ne_zero _), be_replicate_zero_append,
    be_bytesMin, replicate_lead_append_digits (by decide) hd]

/-! ### The two round trips -/

theorem b58Decode_b58Encode (b : Bytes) : b58Decode (b58Encode b) = .ok b := by
  have hlookup : lookupAll b58Rom (b58Encode b) = some (b58Digits b) :=
    (lookupAll_b58Rom_eq_some_iff _ _).2 ⟨b58Digits_lt b, (b58Encode_eq_map b).symm⟩
  rw [b58Decode_of_lookupAll hlookup, lead_b58Digits, ofDigits_b58Digits,
    replicate_lead_append_bytesMin]

theorem b58Encode_of_b58Decode {s b : Bytes} (h : b58Decode s = .ok b) : b58Encode b = s := by
  cases hlookup : lookupAll b58Rom s with
  | none => exact nomatch (b58Decode_of_lookupAll_none hlookup).symm.trans h
  | some d =>
    obtain rfl := Except.ok.inj ((b58Decode_of_lookupAll hlookup).symm.trans h)
    obtain ⟨hd, rfl⟩ := (lookupAll_b58Rom_eq_some_iff _ _).1 hlookup
    rw [b58Encode_eq_map, b58Digits_bytes hd]

theorem mem_b58Alphabet_of_mem_b58Encode {b : Bytes} {c : Byte} (hc : c ∈ b58Encode b) :
    c ∈ b58Alphabet := by
  rw [b58Encode_eq_map] at hc
  obtain ⟨v, hv, rfl⟩ := List.mem_map.1 hc
  exact b58Symbol_mem (b58Digits_lt b v hv)

/-- Settles O31: the two round trips, through the digit list of a string. -/
theorem base58RoundTrips : Obligations.Base58RoundTrips := by
  refine ⟨b58Decode_b58Encode, fun _ _ => b58Encode_of_b58Decode,
    fun _ _ => mem_b58Alphabet_of_mem_b58Encode, fun s hs => ?_⟩
  obtain ⟨d, hd⟩ := exists_lookupAll_b58Rom hs
  exact ⟨_, b58Decode_of_lookupAll hd⟩

end Sys2Proof.Machine
end

