-- ==== Sys2Proof/Proofs/Base58Algorithms.lean ====
section
/-! PROOF. The byte-array algorithms of Base58 (R131, R133). A pass of the long division keeps 58 times
the quotient plus the remainder at the value of the bytes it has read, so the passes take the digits of
the number one by one. The multiply-and-accumulate keeps its array at the base-256 digits of the value of
the symbols it has read. -/

namespace Sys2Proof.Machine

/-! ### One pass of the long division (R131) -/

theorem ofDigits_pushDigit (q : List Nat) (v : Nat) :
    ofDigits 256 (if q ≠ [] ∨ v > 0 then q ++ [v] else q) = 256 * ofDigits 256 q + v := by
  split
  · exact ofDigits_append_singleton 256 q v
  · next h =>
    obtain ⟨rfl, rfl⟩ : q = [] ∧ v = 0 := by simpa using h
    rfl

theorem head?_pushDigit_ne_zero {q : List Nat} (hq : q.head? ≠ some 0) (v : Nat) :
    (if q ≠ [] ∨ v > 0 then q ++ [v] else q).head? ≠ some 0 := by
  split
  · next h =>
    cases q with
    | nil => simpa [Nat.pos_iff_ne_zero] using h
    | cons x q => simpa using hq
  · exact hq

/-- The quotient and the remainder account for every byte read. -/
theorem b58DivPass_value {pre num q : List Nat} {rem : Nat}
    (h : 58 * ofDigits 256 q + rem = ofDigits 256 pre) :
    58 * ofDigits 256 (b58DivPass rem num q).1 + (b58DivPass rem num q).2 =
      ofDigits 256 (pre ++ num) := by
  induction num generalizing pre rem q with
  | nil => rw [List.append_nil, ← h, b58DivPass]
  | cons x num ih =>
    rw [b58DivPass, List.append_cons pre]
    refine ih ?_
    rw [ofDigits_pushDigit, ofDigits_append_singleton]
    omega

theorem b58DivPass_rem_lt (num q : List Nat) {rem : Nat} (h : rem < 58) :
    (b58DivPass rem num q).2 < 58 := by
  induction num generalizing rem q with
  | nil => exact h
  | cons x num ih => exact ih _ (Nat.mod_lt _ (by decide))

theorem b58DivPass_head?_ne_zero (num : List Nat) (rem : Nat) {q : List Nat}
    (h : q.head? ≠ some 0) : (b58DivPass rem num q).1.head? ≠ some 0 := by
  induction num generalizing rem q with
  | nil => exact h
  | cons x num ih => exact ih _ (head?_pushDigit_ne_zero h _)

/-- A pass divides the number by 58: the quotient without a leading zero byte, and the remainder. -/
theorem b58DivPass_spec (num : List Nat) :
    ofDigits 256 (b58DivPass 0 num []).1 = ofDigits 256 num / 58 ∧
      (b58DivPass 0 num []).1.head? ≠ some 0 ∧
      (b58DivPass 0 num []).2 = ofDigits 256 num % 58 := by
  have hvalue := b58DivPass_value (pre := []) (num := num) (q := []) (rem := 0) rfl
  have hrem := b58DivPass_rem_lt num [] (rem := 0) (by decide)
  rw [List.nil_append] at hvalue
  exact ⟨by omega, b58DivPass_head?_ne_zero num 0 (by simp), by omega⟩

/-! ### The passes -/

/-- The passes on a number without a leading zero byte take its base-58 digits. -/
theorem b58EncodeLoop_eq_digitsAux (fuel : Nat) {num : List Nat} (h : num.head? ≠ some 0)
    (out : List Nat) : b58EncodeLoop fuel num out = digitsAux 58 fuel (ofDigits 256 num) out := by
  induction fuel generalizing num out with
  | zero => cases num <;> rfl
  | succ fuel ih =>
    cases num with
    | nil => rfl
    | cons x num =>
      have hne : ofDigits 256 (x :: num) ≠ 0 := fun h0 =>
        nomatch (ofDigits_eq_zero_iff (by decide) h).1 h0
      obtain ⟨hquot, hhead, hrem⟩ := b58DivPass_spec (x :: num)
      rw [b58EncodeLoop, ih hhead, hquot, hrem, digitsAux, if_neg hne]
      simp

theorem b58EncodeAlg_eq_b58Encode (b : Bytes) : b58EncodeAlg b = b58Encode b := by
  have hhead : ((b.drop (lead b 0)).map BitVec.toNat).head? ≠ some 0 :=
    (head?_map_toNat_ne_zero_iff _).2 (head?_drop_lead_ne b 0)
  have hfuel : be b < 58 ^ (2 * b.length) :=
    calc be b < 256 ^ b.length := be_lt b
      _ ≤ (58 ^ 2) ^ b.length := Nat.pow_le_pow_left (by decide) _
      _ = 58 ^ (2 * b.length) := (pow_mul 58 2 b.length).symm
  rw [b58EncodeAlg, b58Encode, b58EncodeLoop_eq_digitsAux _ hhead, ← be_eq_ofDigits, be_drop_lead,
    digitsAux_eq (by decide) hfuel, List.append_nil, digits_eq_reverse (by decide)]

/-- Settles O32: each pass is a division by 58, so the passes are the digits' own recursion. -/
theorem base58LongDivisionEncodes : Obligations.Base58LongDivisionEncodes := by
  refine ⟨b58EncodeAlg_eq_b58Encode, fun num x hx => ?_, b58DivPass_spec⟩
  have hrem := b58DivPass_rem_lt num [] (rem := 0) (by decide)
  omega

/-! ### Multiply and accumulate (R133) -/

/-- A sum of the inner loop fits in 14 bits, and its carry is at most 57. -/
theorem mulAdd_sum_bounds {carry x : Nat} (hcarry : carry ≤ 57) (hx : x < 256) :
    carry + x * 58 ≤ 14847 ∧ (carry + x * 58) / 256 ≤ 57 := by
  omega

theorem b58MulAdd_carry_le {carry : Nat} {acc : List Nat} (hcarry : carry ≤ 57)
    (hacc : ∀ y ∈ acc, y < 256) : (b58MulAdd carry acc).2 ≤ 57 := by
  induction acc generalizing carry with
  | nil => exact hcarry
  | cons x acc ih =>
    obtain ⟨hx, hacc⟩ := List.forall_mem_cons.1 hacc
    exact ih (mulAdd_sum_bounds hcarry hx).2 hacc

theorem b58CarryBytes_eq_digits {fuel c : Nat} (h : c ≤ fuel) :
    b58CarryBytes fuel c = Nat.digits 256 c := by
  induction fuel generalizing c with
  | zero =>
    obtain rfl : c = 0 := Nat.le_zero.1 h
    rfl
  | succ fuel ih =>
    by_cases h0 : c = 0
    · simp [b58CarryBytes, h0]
    · rw [b58CarryBytes, if_neg h0, ih (by omega), Nat.digits_eq_cons_digits_div (by decide) h0]

/-- The inner loop on the digits of n, with its carry's bytes behind, gives the digits of 58 n + v. -/
theorem b58MulAdd_digits (v n : Nat) :
    (b58MulAdd v (Nat.digits 256 n)).1 ++ Nat.digits 256 (b58MulAdd v (Nat.digits 256 n)).2 =
      Nat.digits 256 (58 * n + v) := by
  induction n using Nat.strongRecOn generalizing v with
  | ind n ih =>
    by_cases h0 : n = 0
    · simp [h0, b58MulAdd]
    · have hquot : 58 * (n / 256) + (v + n % 256 * 58) / 256 = (58 * n + v) / 256 := by omega
      have hrem : (v + n % 256 * 58) % 256 = (58 * n + v) % 256 := by omega
      rw [Nat.digits_eq_cons_digits_div (by decide) h0, b58MulAdd, List.cons_append,
        ih (n / 256) (by omega), hquot, hrem,
        ← Nat.digits_eq_cons_digits_div (by decide) (by omega)]

/-- With the digits `pre` accumulated, the loop accumulates the digits of the symbols left, or stops at
the first byte that is none. -/
theorem b58DecodeLoop_eq (pre : List Nat) (s : Bytes) :
    b58DecodeLoop (Nat.digits 256 (ofDigits 58 pre)) s =
      (lookupAll b58Rom s).elim (.error .invalidCharacter)
        (fun d => .ok (Nat.digits 256 (ofDigits 58 (pre ++ d)))) := by
  induction s generalizing pre with
  | nil => simp [b58DecodeLoop]
  | cons c s ih =>
    rw [lookupAll_cons]
    cases hc : b58Rom c with
    | none => simp only [b58DecodeLoop, hc, Option.bind_none, Option.elim_none]
    | some v =>
      simp only [b58DecodeLoop, hc, b58CarryBytes_eq_digits le_rfl, b58MulAdd_digits,
        ← ofDigits_append_singleton, ih, Option.bind_some]
      cases lookupAll b58Rom s <;> simp

theorem b58DecodeLoop_nil_eq (s : Bytes) :
    b58DecodeLoop [] s = (lookupAll b58Rom s).elim (.error .invalidCharacter)
      (fun d => .ok (Nat.digits 256 (ofDigits 58 d))) := by
  simpa using b58DecodeLoop_eq [] s

/-- The accumulator reversed is the shortest byte sequence of the number. -/
theorem reverse_digits_map_ofNat (n : Nat) :
    (Nat.digits 256 n).reverse.map (BitVec.ofNat 8) = bytesMin n := by
  rw [bytesMin, digits_eq_reverse (by decide)]

theorem b58DecodeAlg_eq_b58Decode (s : Bytes) : b58DecodeAlg s = b58Decode s := by
  rw [b58DecodeAlg, b58Decode, b58DecodeLoop_nil_eq]
  cases lookupAll b58Rom s with
  | none => rfl
  | some d => simp only [Option.elim_some, reverse_digits_map_ofNat]

theorem b58DecodeLoop_ok {s : Bytes} {acc : List Nat} (h : b58DecodeLoop [] s = .ok acc) :
    ∃ d, lookupAll b58Rom s = some d ∧ acc = Nat.digits 256 (ofDigits 58 d) := by
  rw [b58DecodeLoop_nil_eq] at h
  cases hlookup : lookupAll b58Rom s with
  | none => simp [hlookup] at h
  | some d => exact ⟨d, rfl, by simpa [hlookup, eq_comm] using h⟩

/-- Settles O33: the accumulator holds the base-256 digits of the number, least significant first. -/
theorem base58MultiplyAccumulateDecodes : Obligations.Base58MultiplyAccumulateDecodes := by
  refine ⟨b58DecodeAlg_eq_b58Decode, fun v acc x hv hacc hx =>
    mulAdd_sum_bounds (b58MulAdd_carry_le hv hacc) hx, fun s acc h => ?_⟩
  obtain ⟨d, hd, rfl⟩ := b58DecodeLoop_ok h
  refine ⟨?_, d, hd, reverse_digits_map_ofNat _⟩
  rw [← List.head?_reverse, ← digits_eq_reverse (by decide)]
  exact digits_head?_ne_zero (by decide) _

end Sys2Proof.Machine
end

