-- ==== Sys2Proof/Proofs/C32RoundTrip.lean ====
section
/-! PROOF. C32 decoding inverts encoding up to spelling (R160, R163, R166). Between byte sequences and
digit lists stand two maps, inverse to each other, that keep the number of leading zeros and the value;
C32 spells the digits, each with its canonical symbol, and reads them in any spelling. -/

namespace Sys2Proof.Machine

/-! ### Bytes and digits that keep leading zeros and the value -/

/-- One zero digit per leading zero byte, then the digits of the value (R160). -/
def paddedDigits (base : Nat) (b : Bytes) : List Nat :=
  List.replicate (lead b 0) 0 ++ digits base (be b)

/-- One zero byte per leading zero digit, then the shortest bytes of the value (R163). -/
def paddedBytes (base : Nat) (d : List Nat) : Bytes :=
  List.replicate (lead d 0) 0 ++ bytesMin (ofDigits base d)

theorem paddedDigits_lt {base : Nat} (hb : 2 ≤ base) (b : Bytes) :
    ∀ v ∈ paddedDigits base b, v < base := by
  intro v hv
  rcases List.mem_append.1 hv with hzero | hdigit
  · rw [List.eq_of_mem_replicate hzero]
    omega
  · exact digits_lt_base hb hdigit

theorem paddedBytes_paddedDigits {base : Nat} (hb : 2 ≤ base) (b : Bytes) :
    paddedBytes base (paddedDigits base b) = b := by
  rw [paddedBytes, paddedDigits, lead_replicate_append (digits_head?_ne_zero hb _),
    ofDigits_replicate_zero_append, ofDigits_digits hb, replicate_lead_append_bytesMin]

theorem paddedDigits_paddedBytes {base : Nat} (hb : 2 ≤ base) {d : List Nat}
    (hd : ∀ v ∈ d, v < base) : paddedDigits base (paddedBytes base d) = d := by
  rw [paddedDigits, paddedBytes, lead_replicate_append (bytesMin_head?_ne_zero _),
    be_replicate_zero_append, be_bytesMin, replicate_lead_append_digits hb hd]

/-! ### C32 through digit lists -/

/-- A lookup answers the digits that the ROM gives byte by byte. -/
theorem lookupAll_eq_some_iff (rom : Byte → Option Nat) (s : Bytes) (d : List Nat) :
    lookupAll rom s = some d ↔ s.map rom = d.map some := by
  induction s generalizing d with
  | nil => cases d <;> simp
  | cons c s ih =>
    rw [lookupAll_cons]
    cases d with
    | nil => simp [Option.bind_eq_some_iff]
    | cons v d => simp [Option.bind_eq_some_iff, ← ih]

/-- The canonical symbol of a digit is one of its spellings (R109). -/
theorem c32Rom_c32Symbol {v : Nat} (hv : v < 32) : c32Rom (c32Symbol v) = some v :=
  (c32Rom_eq_some_iff _ v).2 ⟨hv, (mem_c32Spellings_iff _ v).2 (.inl rfl)⟩

theorem lookupAll_c32Rom_map_c32Symbol {d : List Nat} (hd : ∀ v ∈ d, v < 32) :
    lookupAll c32Rom (d.map c32Symbol) = some d := by
  rw [lookupAll_eq_some_iff, List.map_map]
  exact List.map_congr_left fun v hv => c32Rom_c32Symbol (hd v hv)

theorem lookupAll_c32Rom_lt {s : Bytes} {d : List Nat} (h : lookupAll c32Rom s = some d) :
    ∀ v ∈ d, v < 32 := by
  intro v hv
  have hmem : some v ∈ s.map c32Rom :=
    (lookupAll_eq_some_iff c32Rom s d).1 h ▸ List.mem_map_of_mem hv
  obtain ⟨c, -, hc⟩ := List.mem_map.1 hmem
  exact ((c32Rom_eq_some_iff c v).1 hc).1

/-- The canonical spelling of a string spells the digits that the string was looked up as (R166). -/
theorem map_c32Canonical {s : Bytes} {d : List Nat} (h : lookupAll c32Rom s = some d) :
    s.map c32Canonical = d.map c32Symbol := by
  have hrom := (lookupAll_eq_some_iff c32Rom s d).1 h
  calc s.map c32Canonical = (s.map c32Rom).map (fun v => c32Symbol (v.getD 0)) := by
        rw [List.map_map]; rfl
    _ = d.map c32Symbol := by rw [hrom, List.map_map]; rfl

theorem c32Encode_eq_map (b : Bytes) : c32Encode b = (paddedDigits 32 b).map c32Symbol := by
  rw [c32Encode, paddedDigits, List.map_append, List.map_replicate]
  rfl

theorem c32Decode_eq_elim (s : Bytes) :
    c32Decode s = (lookupAll c32Rom s).elim (.error .invalidCharacter)
      (fun d => .ok (paddedBytes 32 d)) := by
  rw [c32Decode]
  cases lookupAll c32Rom s <;> rfl

theorem c32Decode_eq_ok_iff (s b : Bytes) :
    c32Decode s = .ok b ↔ ∃ d, lookupAll c32Rom s = some d ∧ paddedBytes 32 d = b := by
  rw [c32Decode_eq_elim]
  cases lookupAll c32Rom s <;> simp

/-! ### The two round trips -/

theorem c32Decode_c32Encode (b : Bytes) : c32Decode (c32Encode b) = .ok b := by
  rw [c32Decode_eq_ok_iff, c32Encode_eq_map]
  exact ⟨paddedDigits 32 b, lookupAll_c32Rom_map_c32Symbol (paddedDigits_lt (by decide) b),
    paddedBytes_paddedDigits (by decide) b⟩

theorem c32Encode_of_c32Decode {s b : Bytes} (h : c32Decode s = .ok b) :
    c32Encode b = s.map c32Canonical := by
  obtain ⟨d, hd, rfl⟩ := (c32Decode_eq_ok_iff s b).1 h
  rw [c32Encode_eq_map, paddedDigits_paddedBytes (by decide) (lookupAll_c32Rom_lt hd),
    map_c32Canonical hd]

/-- Settles O36: the two round trips, through the digit list of a string. -/
theorem c32RoundTrips : Obligations.C32RoundTrips :=
  ⟨c32Decode_c32Encode, fun _ _ => c32Encode_of_c32Decode⟩

end Sys2Proof.Machine
end

