-- ==== Sys2Proof/Proofs/C32Algorithms.lean ====
section
/-! PROOF. The carry algorithms of C32 (R161, R164). Both loops regroup a stream of bits: the groups
written and the carry are, at every point, the number read so far, least significant group first. A step
of either loop puts its input's bits above those of the carry and then takes full groups off the carry;
each of the two keeps the number, and the groups trimmed at the end are the number's digits. -/

namespace Sys2Proof.Machine

/-! ### The working state as a number -/

namespace C32Carry

/-- Take in `v` as `m` bits above those of the carry. -/
def push (m v : Nat) (c : C32Carry) : C32Carry :=
  ⟨c.out, c.carry + (v <<< c.carryBits), c.carryBits + m⟩

/-- Write the low `w` bits of the carry as a group. -/
def emit (w : Nat) (c : C32Carry) : C32Carry :=
  ⟨c.out ++ [c.carry % 2 ^ w], c.carry >>> w, c.carryBits - w⟩

@[simp] theorem push_carryBits (m v : Nat) (c : C32Carry) :
    (c.push m v).carryBits = c.carryBits + m := rfl

@[simp] theorem emit_carryBits (w : Nat) (c : C32Carry) :
    (c.emit w).carryBits = c.carryBits - w := rfl

/-- Write a group if the carry has the bits for one. -/
def settle (w : Nat) (c : C32Carry) : C32Carry := if w ≤ c.carryBits then c.emit w else c

/-- The groups of `w` bits and the carry are the number `value`, in `bits` bits. -/
structure Holds (w bits value : Nat) (c : C32Carry) : Prop where
  out_lt : ∀ g ∈ c.out, g < 2 ^ w
  carry_lt : c.carry < 2 ^ c.carryBits
  bits_eq : w * c.out.length + c.carryBits = bits
  value_eq : Nat.ofDigits (2 ^ w) (c.out ++ [c.carry]) = value

/-- The invariant between two inputs: moreover the carry is shorter than a group. -/
structure Settled (w bits value : Nat) (c : C32Carry) : Prop extends Holds w bits value c where
  carryBits_lt : c.carryBits < w

variable {w m bits value v : Nat} {c : C32Carry}

theorem settled_zero (hw : 0 < w) : Settled w 0 0 ⟨[], 0, 0⟩ :=
  ⟨⟨by simp, by simp, rfl, by simp⟩, hw⟩

theorem push_carry_lt (hc : c.carry < 2 ^ c.carryBits) (hv : v < 2 ^ m) :
    (c.push m v).carry < 2 ^ (c.carryBits + m) := by
  have hle : (v + 1) * 2 ^ c.carryBits ≤ 2 ^ m * 2 ^ c.carryBits := Nat.mul_le_mul_right _ hv
  rw [push, Nat.shiftLeft_eq, pow_add]
  linarith

/-- What is taken in stands above all bits held so far. -/
theorem Holds.push (h : Holds w bits value c) (hv : v < 2 ^ m) :
    Holds w (bits + m) (value + 2 ^ bits * v) (c.push m v) where
  out_lt := h.out_lt
  carry_lt := push_carry_lt h.carry_lt hv
  bits_eq := by rw [← h.bits_eq]; exact (Nat.add_assoc ..).symm
  value_eq := by
    rw [← h.value_eq, ← h.bits_eq, C32Carry.push]
    simp only [Nat.ofDigits_append, Nat.ofDigits_singleton, Nat.shiftLeft_eq, pow_add, pow_mul]
    ring

/-- Writing a group moves bits from the carry to the groups. -/
theorem Holds.emit (h : Holds w bits value c) (hw : w ≤ c.carryBits) :
    Holds w bits value (c.emit w) where
  out_lt := List.forall_mem_append.2
    ⟨h.out_lt, List.forall_mem_singleton.2 (Nat.mod_lt _ (Nat.two_pow_pos w))⟩
  carry_lt := by
    have hpow : 2 ^ w * 2 ^ (c.carryBits - w) = 2 ^ c.carryBits := by
      rw [← pow_add, Nat.add_sub_cancel' hw]
    simp only [C32Carry.emit, Nat.shiftRight_eq_div_pow]
    exact Nat.div_lt_of_lt_mul (hpow ▸ h.carry_lt)
  bits_eq := by
    rw [← h.bits_eq]
    simp only [C32Carry.emit, List.length_append, List.length_singleton, Nat.mul_succ]
    omega
  value_eq := by
    rw [← h.value_eq]
    simp only [C32Carry.emit, Nat.ofDigits_append, List.append_assoc, List.singleton_append,
      Nat.ofDigits_cons, Nat.ofDigits_nil, Nat.mul_zero, Nat.add_zero, Nat.shiftRight_eq_div_pow,
      Nat.mod_add_div]

theorem Holds.settle (h : Holds w bits value c) (hw : c.carryBits < 2 * w) :
    Settled w bits value (c.settle w) := by
  rw [C32Carry.settle]
  split
  · next hfull => exact ⟨h.emit hfull, by rw [emit_carryBits]; omega⟩
  · next hshort => exact ⟨h, Nat.lt_of_not_le hshort⟩

/-- A loop whose step takes each input in as `m` bits holds, after a list of inputs, the number with
these digits, least significant first. -/
theorem settled_foldl {α : Type} {step : C32Carry → α → C32Carry} {val : α → Nat} (hw : 0 < w)
    {l : List α}
    (hstep : ∀ x ∈ l, ∀ {bits value c}, Settled w bits value c →
      Settled w (bits + m) (value + 2 ^ bits * val x) (step c x)) :
    Settled w (m * l.length) (Nat.ofDigits (2 ^ m) (l.map val)) (l.foldl step ⟨[], 0, 0⟩) := by
  induction l using List.reverseRecOn with
  | nil => exact settled_zero hw
  | append_singleton l x ih =>
    have hl := ih fun y hy => hstep y (List.mem_append_left _ hy)
    have hx := hstep x (by simp) hl
    simpa [Nat.ofDigits_append, ← pow_mul, Nat.mul_succ] using hx

/-! ### The end of a loop -/

theorem Settled.flush_lt (h : Settled w bits value c) : ∀ g ∈ c.flush, g < 2 ^ w := by
  rw [flush]
  split
  · have hcarry : c.carry < 2 ^ w :=
      h.carry_lt.trans_le (Nat.pow_le_pow_right (by decide) h.carryBits_lt.le)
    exact List.forall_mem_append.2 ⟨h.out_lt, List.forall_mem_singleton.2 hcarry⟩
  · exact h.out_lt

/-- A carry of no bits is 0, so leaving it out keeps the number. -/
theorem Holds.flush_value (h : Holds w bits value c) : Nat.ofDigits (2 ^ w) c.flush = value := by
  rw [flush]
  split
  · exact h.value_eq
  · next hzero =>
    have hcarry : c.carry = 0 := by
      simpa [Nat.eq_zero_of_not_pos hzero] using h.carry_lt
    simpa [Nat.ofDigits_append, hcarry] using h.value_eq

end C32Carry

theorem dropWhile_eq_drop_lead (l : List Nat) :
    l.dropWhile (fun x => x = 0) = l.drop (lead l 0) := by
  have hdrop := List.drop_left (l₁ := l.takeWhile (fun x => x = 0))
    (l₂ := l.dropWhile (fun x => x = 0))
  rw [List.takeWhile_append_dropWhile] at hdrop
  exact hdrop.symm

/-- Groups without the zeros at their end are the digits of their number, least significant first. -/
theorem reverse_trimZeros {base : Nat} (hb : 2 ≤ base) {l : List Nat} (hl : ∀ g ∈ l, g < base) :
    (trimZeros l).reverse = digits base (Nat.ofDigits base l) := by
  have hlt : ∀ g ∈ l.reverse.drop (lead l.reverse 0), g < base := fun g hg =>
    hl g (List.mem_reverse.1 (List.mem_of_mem_drop hg))
  rw [trimZeros, List.reverse_reverse, dropWhile_eq_drop_lead,
    ← digits_ofDigits hb hlt (head?_drop_lead_ne _ 0), ofDigits_drop_lead, ofDigits_eq_reverse,
    List.reverse_reverse]

theorem C32Carry.Settled.reverse_trimZeros_flush {w bits value : Nat} {c : C32Carry}
    (h : c.Settled w bits value) : (trimZeros c.flush).reverse = digits (2 ^ w) value := by
  have hbase : 2 ≤ 2 ^ w := Nat.le_self_pow (by have := h.carryBits_lt; omega) 2
  rw [reverse_trimZeros hbase h.flush_lt, h.flush_value]

/-! ### Bit packing (R161) -/

/-- The first group of a step is the carry with the low bits of the byte above it; the byte's other bits
stay in the carry. -/
theorem C32Carry.emit_push {w m v : Nat} {c : C32Carry} (hc : c.carry < 2 ^ c.carryBits)
    (hw : c.carryBits ≤ w) :
    (c.push m v).emit w =
      ⟨c.out ++ [((v % 2 ^ (w - c.carryBits)) <<< c.carryBits) + c.carry], v >>> (w - c.carryBits),
        c.carryBits + m - w⟩ := by
  have hpow : 2 ^ w = 2 ^ c.carryBits * 2 ^ (w - c.carryBits) := by
    rw [← pow_add, Nat.add_sub_cancel' hw]
  have hdiv : (c.carry + v * 2 ^ c.carryBits) / 2 ^ c.carryBits = v := by
    rw [Nat.add_mul_div_right _ _ (Nat.two_pow_pos _), Nat.div_eq_of_lt hc, Nat.zero_add]
  have hmod : (c.carry + v * 2 ^ c.carryBits) % 2 ^ c.carryBits = c.carry := by
    rw [Nat.add_mul_mod_self_right, Nat.mod_eq_of_lt hc]
  simp only [push, emit, Nat.shiftLeft_eq, Nat.shiftRight_eq_div_pow, hpow, Nat.mod_mul,
    ← Nat.div_div_eq_div_mul, hdiv, hmod]
  rw [Nat.mul_comm, Nat.add_comm]

theorem c32EncodeStep_eq {c : C32Carry} (hc : c.carry < 2 ^ c.carryBits) (hbits : c.carryBits < 5)
    (b : Byte) : c32EncodeStep c b = ((c.push 8 b.toNat).emit 5).settle 5 := by
  have hshift : 8 - (c.carryBits + 3) = 5 - c.carryBits := by omega
  have hgroup (n : Nat) : n &&& 31 = n % 2 ^ 5 := Nat.and_two_pow_sub_one_eq_mod n 5
  rw [C32Carry.emit_push hc hbits.le]
  simp only [c32EncodeStep, C32Carry.settle, C32Carry.emit, hshift, hgroup, Nat.one_shiftLeft,
    Nat.and_two_pow_sub_one_eq_mod]
  rfl

theorem settled_c32EncodeStep {bits value : Nat} {c : C32Carry} (h : c.Settled 5 bits value)
    (b : Byte) : (c32EncodeStep c b).Settled 5 (bits + 8) (value + 2 ^ bits * b.toNat) := by
  have hbits := h.carryBits_lt
  rw [c32EncodeStep_eq h.carry_lt hbits]
  have hfull : 5 ≤ (c.push 8 b.toNat).carryBits := by rw [C32Carry.push_carryBits]; omega
  exact ((h.push b.isLt).emit hfull).settle
    (by rw [C32Carry.emit_carryBits, C32Carry.push_carryBits]; omega)

theorem settled_foldl_c32EncodeStep (b : Bytes) :
    (b.foldl c32EncodeStep ⟨[], 0, 0⟩).Settled 5 (8 * b.length)
      (Nat.ofDigits 256 (b.map BitVec.toNat)) :=
  C32Carry.settled_foldl (by decide) fun x _ _ _ _ h => settled_c32EncodeStep h x

theorem c32EncodeAlg_eq_c32Encode (b : Bytes) : c32EncodeAlg b = c32Encode b := by
  have hdigits := (settled_foldl_c32EncodeStep b.reverse).reverse_trimZeros_flush
  rw [List.map_reverse, ← ofDigits_eq_reverse, ← be_eq_ofDigits] at hdigits
  rw [c32EncodeAlg, List.reverse_append, List.reverse_replicate, hdigits, c32Encode_eq_map]
  rfl

/-- The bits of a byte that a step's first group leaves are fewer than 8. -/
theorem shiftRight_unconsumed_lt {k : Nat} (hk : k ≤ 4) (v : Byte) :
    v.toNat >>> (8 - (k + 3)) < 2 ^ 7 := by
  obtain ⟨j, hj⟩ : ∃ j, 8 - (k + 3) = 1 + j := ⟨4 - k, by omega⟩
  have hv := v.isLt
  rw [hj, Nat.shiftRight_add]
  exact (Nat.shiftRight_le _ j).trans_lt (by omega)

/-- Settles O37: the groups and the carry hold the number read so far. -/
theorem c32BitPackingEncodes : Obligations.C32BitPackingEncodes := by
  refine ⟨c32EncodeAlg_eq_c32Encode, fun b => ?_⟩
  have h := settled_foldl_c32EncodeStep b
  have hbits := Nat.le_of_lt_succ h.carryBits_lt
  exact ⟨hbits, h.carry_lt, h.out_lt, shiftRight_unconsumed_lt hbits⟩

/-! ### Bit unpacking (R164) -/

theorem c32DecodeStep_eq (c : C32Carry) (d : Nat) :
    c32DecodeStep c d = (c.push 5 d).settle 8 := by
  have hgroup (n : Nat) : n &&& 255 = n % 2 ^ 8 := Nat.and_two_pow_sub_one_eq_mod n 8
  simp only [c32DecodeStep, hgroup]
  rfl

theorem settled_c32DecodeStep {bits value : Nat} {c : C32Carry} (h : c.Settled 8 bits value)
    {d : Nat} (hd : d < 32) : (c32DecodeStep c d).Settled 8 (bits + 5) (value + 2 ^ bits * d) := by
  have hbits := h.carryBits_lt
  rw [c32DecodeStep_eq]
  exact (h.push hd).settle (by rw [C32Carry.push_carryBits]; omega)

theorem settled_foldl_c32DecodeStep {d : List Nat} (hd : ∀ v ∈ d, v < 32) :
    (d.foldl c32DecodeStep ⟨[], 0, 0⟩).Settled 8 (5 * d.length) (Nat.ofDigits 32 d) := by
  simpa using C32Carry.settled_foldl (w := 8) (m := 5) (val := id) (by decide)
    fun v hv _ _ _ h => settled_c32DecodeStep h (hd v hv)

theorem reverse_unpacked_eq_paddedBytes {d : List Nat} (hd : ∀ v ∈ d, v < 32) :
    ((trimZeros (d.reverse.foldl c32DecodeStep ⟨[], 0, 0⟩).flush ++
      List.replicate (lead d 0) 0).reverse).map (BitVec.ofNat 8) = paddedBytes 32 d := by
  have hrev : ∀ v ∈ d.reverse, v < 32 := fun v hv => hd v (List.mem_reverse.1 hv)
  rw [List.reverse_append, List.reverse_replicate,
    (settled_foldl_c32DecodeStep hrev).reverse_trimZeros_flush, ← ofDigits_eq_reverse,
    List.map_append, List.map_replicate]
  rfl

theorem c32DecodeAlg_eq_c32Decode (s : Bytes) : c32DecodeAlg s = c32Decode s := by
  rw [c32DecodeAlg, c32Decode_eq_elim]
  cases hlookup : lookupAll c32Rom s with
  | none => rfl
  | some d =>
    exact congrArg Except.ok (reverse_unpacked_eq_paddedBytes (lookupAll_c32Rom_lt hlookup))

/-- Settles O38: the bytes and the carry hold the number read so far, so the accumulator has the bits of
the carry, at most 7, and those of a digit. -/
theorem c32BitUnpackingDecodes : Obligations.C32BitUnpackingDecodes := by
  refine ⟨c32DecodeAlg_eq_c32Decode, fun d x hd hx => ?_⟩
  have h := settled_foldl_c32DecodeStep hd
  have hbits := Nat.le_of_lt_succ h.carryBits_lt
  refine ⟨hbits, (C32Carry.push_carry_lt (m := 5) h.carry_lt hx).trans_le ?_⟩
  exact Nat.pow_le_pow_right (by decide) (by omega)

end Sys2Proof.Machine
end

