-- ==== Sys2Proof/Proofs/SizeFields.lean ====
section
/-! PROOF. A value whose type byte has been read, and the size field behind five of the wire
types (R233, R236, R239): where the field or its data fails, the value fails with that error. -/

namespace Sys2Proof.Machine

/-! ### The type byte -/

/-- What a value is once its type byte is known (R237). -/
theorem decodeValue_of_prefix {inp : Bytes} {start : Nat} {b : Byte} {t : TypePrefix}
    (hb : inp[start]? = some b) (ht : typePrefixOf b = some t) (levels d : Nat) :
    decodeValue inp (levels + 1) d start =
      (decodePayload inp (fun q => decodeValue inp levels (d + 1) q) t (start + 1)).map
        (fun r => (⟨t, d, none, start, r.2.2, r.1⟩ :: r.2.1, r.2.2)) := by
  obtain ⟨hlt, rfl⟩ := List.getElem?_eq_some_iff.1 hb
  have htake : takeBytes inp start 1 = .ok ([inp[start]], start + 1) := by
    rw [takeBytes, if_neg (by omega), slice, List.drop_eq_getElem_cons hlt]
    rfl
  simp only [decodeValue, htake, List.headD_cons, ht]
  cases decodePayload inp (fun q => decodeValue inp levels (d + 1) q) t (start + 1) <;> rfl

/-- A payload's error is the value's. -/
theorem decodeValue_payload_error {inp : Bytes} {levels d start : Nat} {b : Byte} {t : TypePrefix}
    {e : CmdError} (hb : inp[start]? = some b) (ht : typePrefixOf b = some t)
    (hp : decodePayload inp (fun q => decodeValue inp levels (d + 1) q) t (start + 1) = .error e) :
    decodeValue inp (levels + 1) d start = .error e := by
  rw [decodeValue_of_prefix hb ht, hp]
  rfl

/-! ### Size fields -/

/-- The prefixes whose payload begins with a length or a count (R233, R236). -/
def sizedPrefixes : List TypePrefix := [.buffer, .list, .tuple, .stringAscii, .stringUtf8]

/-- The prefixes whose size field counts the data bytes behind it (R233). -/
def dataPrefixes : List TypePrefix := [.buffer, .stringAscii, .stringUtf8]

/-- A size field's error is the payload's: nothing else has been read (R239). -/
theorem decodePayload_readSize_error {inp : Bytes} {child : Nat → Decoded} {t : TypePrefix}
    {p : Nat} {e : CmdError} (ht : t ∈ sizedPrefixes) (h : readSize inp p = .error e) :
    decodePayload inp child t p = .error e := by
  simp only [sizedPrefixes, List.mem_cons, List.not_mem_nil, or_false] at ht
  rcases ht with rfl | rfl | rfl | rfl | rfl <;> simp only [decodePayload, h]

/-- Data that does not fit behind its length fails the payload. -/
theorem decodePayload_data_error {inp : Bytes} {child : Nat → Decoded} {t : TypePrefix}
    {p p1 n : Nat} {e : CmdError} (ht : t ∈ dataPrefixes) (h : readSize inp p = .ok (n, p1))
    (hdata : takeBytes inp p1 n = .error e) : decodePayload inp child t p = .error e := by
  simp only [dataPrefixes, List.mem_cons, List.not_mem_nil, or_false] at ht
  rcases ht with rfl | rfl | rfl <;> simp only [decodePayload, h, hdata]

theorem exists_sizedPrefix :
    ∀ tag ∈ ([0x02, 0x0B, 0x0C, 0x0D, 0x0E] : Bytes), ∃ t ∈ sizedPrefixes,
      typePrefixOf tag = some t := by
  decide

theorem exists_dataPrefix :
    ∀ tag ∈ ([0x02, 0x0D, 0x0E] : Bytes), ∃ t ∈ dataPrefixes, typePrefixOf tag = some t := by
  decide

theorem readSize_of_cut {inp : Bytes} {p : Nat} (h : inp.length < p + 4) :
    readSize inp p = .error .truncatedInput := by
  simp [readSize, takeBytes, h]

/-- A size field whose bytes are known is checked on its value alone (R239). -/
theorem readSize_of_field {pre w post : Bytes} (hw : w.length = 4) :
    readSize (pre ++ w ++ post) pre.length =
      if maxDecl < be w then .error .oversizeDeclaration else .ok (be w, pre.length + 4) := by
  have htake : takeBytes (pre ++ w ++ post) pre.length 4 = .ok (w, pre.length + 4) := by
    rw [takeBytes, if_neg (by simp only [List.length_append]; omega), ← hw, slice_middle]
  simp only [readSize, htake]

/-- Settles O54: the error of the size field, or of the data behind it, is the value's. -/
theorem oversizeIsDecidedBeforeTheData : Obligations.OversizeIsDecidedBeforeTheData := by
  intro pre post w tag levels d htag
  obtain ⟨t, hsized, ht⟩ := exists_sizedPrefix tag htag
  have hsplit : pre ++ tag :: w ++ post = pre ++ [tag] ++ w ++ post := by simp
  have hlen : (pre ++ [tag]).length = pre.length + 1 := by simp
  refine ⟨fun hcut => ?_, fun hw => ?_⟩
  · have hsize : readSize (pre ++ tag :: w) (pre.length + 1) = .error .truncatedInput :=
      readSize_of_cut (by simp only [List.length_append, List.length_cons]; omega)
    exact decodeValue_payload_error (by simp) ht (decodePayload_readSize_error hsized hsize)
  have hfield := readSize_of_field (pre := pre ++ [tag]) (post := post) hw
  rw [← hsplit, hlen] at hfield
  have hpasses (hle : be w ≤ 1048576) :
      readSize (pre ++ tag :: w ++ post) (pre.length + 1) = .ok (be w, pre.length + 5) := by
    rw [hfield, if_neg (show ¬ maxDecl < be w from Nat.not_lt.2 hle)]
  refine ⟨fun hbig => ?_, hpasses, fun hle hdata hshort => ?_⟩
  · rw [if_pos (show maxDecl < be w from hbig)] at hfield
    exact decodeValue_payload_error (by simp) ht (decodePayload_readSize_error hsized hfield)
  · obtain ⟨t, hcounts, ht⟩ := exists_dataPrefix tag hdata
    have htake : takeBytes (pre ++ tag :: w ++ post) (pre.length + 5) (be w) =
        .error .truncatedInput := by
      rw [takeBytes, if_pos (by simp only [List.length_append, List.length_cons]; omega)]
    exact decodeValue_payload_error (by simp) ht
      (decodePayload_data_error hcounts (hpasses hle) htake)

end Sys2Proof.Machine
end

