-- ==== Sys2Proof/Proofs/DecodeInversion.lean ====
section
/-! PROOF. What a decode that succeeds has done (R237, R243), one constructor per shape of payload,
and what therefore holds of every node it leaves. -/

namespace Sys2Proof.Machine

/-! ### One payload -/

/-- How the payload of each type decodes: the fields read, and the children where it has any. -/
inductive PayloadDecodes (inp : Bytes) (child : Nat → Decoded) (p : Nat) :
    TypePrefix → Payload → List Node → Nat → Prop where
  | integer {t : TypePrefix} {r : Bytes} {q : Nat} (ht : t = .int ∨ t = .uint)
      (hr : takeBytes inp p 16 = .ok (r, q)) : PayloadDecodes inp child p t (.raw r) [] q
  | data {t : TypePrefix} {n off q : Nat} {b : Bytes} (ht : t = .buffer ∨ t = .stringAscii)
      (hn : readSize inp p = .ok (n, off)) (hb : takeBytes inp off n = .ok (b, q)) :
      PayloadDecodes inp child p t (.data n off) [] q
  | utf8 {n off q : Nat} {b : Bytes} {groups : List Bytes} (hn : readSize inp p = .ok (n, off))
      (hb : takeBytes inp off n = .ok (b, q)) (hg : utf8Split b = .ok groups) :
      PayloadDecodes inp child p .stringUtf8 (.utf8 n off groups.length) [] q
  | empty {t : TypePrefix} (ht : t = .boolTrue ∨ t = .boolFalse ∨ t = .optionalNone) :
      PayloadDecodes inp child p t .empty [] p
  | principal {vh : Bytes} {q : Nat} (hvh : takeBytes inp p 21 = .ok (vh, q)) :
      PayloadDecodes inp child p .standardPrincipal
        (.principal (vh.headD 0) (q - principalHashLen)) [] q
  | contract {vh : Bytes} {name : Nat × Nat} {p1 q : Nat} (hvh : takeBytes inp p 21 = .ok (vh, p1))
      (hname : readName inp p1 = .ok (name, q)) :
      PayloadDecodes inp child p .contractPrincipal
        (.contract (vh.headD 0) (p1 - principalHashLen) name.1 name.2) [] q
  | wrapped {t : TypePrefix} {ns : List Node} {q : Nat}
      (ht : t = .responseOk ∨ t = .responseErr ∨ t = .optionalSome)
      (hns : child p = .ok (ns, q)) : PayloadDecodes inp child p t .empty ns q
  | list {c p1 q : Nat} {ns : List Node} (hc : readSize inp p = .ok (c, p1))
      (hns : decodeItems child c p1 = .ok (ns, q)) :
      PayloadDecodes inp child p .list (.count c) ns q
  | tuple {c p1 q : Nat} {ns : List Node} (hc : readSize inp p = .ok (c, p1))
      (hns : decodeEntries inp child c [] p1 = .ok (ns, q)) :
      PayloadDecodes inp child p .tuple (.count c) ns q

theorem decodePayload_ok {inp : Bytes} {child : Nat → Decoded} {t : TypePrefix} {p q : Nat}
    {payload : Payload} {children : List Node}
    (h : decodePayload inp child t p = .ok (payload, children, q)) :
    PayloadDecodes inp child p t payload children q := by
  cases t <;> simp only [decodePayload] at h
  case int | uint =>
    split at h
    · cases h
    next htake =>
      cases h
      exact .integer (by simp) htake
  case buffer | stringAscii =>
    split at h
    · cases h
    next hsize =>
      split at h
      · cases h
      next htake =>
        cases h
        exact .data (by simp) hsize htake
  case stringUtf8 =>
    split at h
    · cases h
    next hsize =>
      split at h
      · cases h
      next htake =>
        split at h
        · cases h
        next hsplit =>
          cases h
          exact .utf8 hsize htake hsplit
  case boolTrue | boolFalse | optionalNone =>
    cases h
    exact .empty (by simp)
  case standardPrincipal =>
    split at h
    · cases h
    next htake =>
      cases h
      exact .principal htake
  case contractPrincipal =>
    split at h
    · cases h
    next htake =>
      split at h
      · cases h
      next hname =>
        cases h
        exact .contract htake hname
  case responseOk | responseErr | optionalSome =>
    split at h
    · cases h
    next hchild =>
      cases h
      exact .wrapped (by simp) hchild
  case list =>
    split at h
    · cases h
    next hsize =>
      split at h
      · cases h
      next hitems =>
        cases h
        exact .list hsize hitems
  case tuple =>
    split at h
    · cases h
    next hsize =>
      split at h
      · cases h
      next hentries =>
        cases h
        exact .tuple hsize hentries

/-! ### Elements and entries in turn -/

theorem decodeItems_succ_ok {child : Nat → Decoded} {c p q : Nat} {nodes : List Node}
    (h : decodeItems child (c + 1) p = .ok (nodes, q)) :
    ∃ ns p1 rest, child p = .ok (ns, p1) ∧ decodeItems child c p1 = .ok (rest, q) ∧
      nodes = ns ++ rest := by
  rw [decodeItems] at h
  split at h
  · cases h
  next ns p1 hchild =>
    split at h
    · cases h
    next rest p2 hrest =>
      cases h
      exact ⟨ns, p1, rest, hchild, hrest, rfl⟩

theorem decodeEntries_succ_ok {inp : Bytes} {child : Nat → Decoded} {c p q : Nat}
    {seen : List Bytes} {nodes : List Node}
    (h : decodeEntries inp child (c + 1) seen p = .ok (nodes, q)) :
    ∃ key p1 ns p2 rest, readName inp p = .ok (key, p1) ∧ slice inp key.1 key.2 ∉ seen ∧
      child p1 = .ok (ns, p2) ∧
      decodeEntries inp child c (slice inp key.1 key.2 :: seen) p2 = .ok (rest, q) ∧
      nodes = setKey key ns ++ rest := by
  rw [decodeEntries] at h
  split at h
  · cases h
  next key p1 hname =>
    split at h
    · cases h
    next hnew =>
      split at h
      · cases h
      next ns p2 hchild =>
        split at h
        · cases h
        next rest p3 hrest =>
          cases h
          exact ⟨key, p1, ns, p2, rest, hname, by simpa using hnew, hchild, hrest, rfl⟩

/-! ### What holds of every node -/

section EveryNode

variable {inp : Bytes} {child : Nat → Decoded} {P : Payload → Prop}

theorem setKey_map_payload (key : Nat × Nat) (ns : List Node) :
    (setKey key ns).map Node.payload = ns.map Node.payload := by
  cases ns <;> rfl

theorem decodeItems_forall_payload
    (hchild : ∀ p ns q, child p = .ok (ns, q) → ∀ x ∈ ns.map Node.payload, P x) {c p q : Nat}
    {nodes : List Node} (h : decodeItems child c p = .ok (nodes, q)) :
    ∀ x ∈ nodes.map Node.payload, P x := by
  induction c generalizing p nodes with
  | zero =>
    cases h
    simp
  | succ c ih =>
    obtain ⟨ns, p1, rest, hns, hrest, rfl⟩ := decodeItems_succ_ok h
    rw [List.map_append, List.forall_mem_append]
    exact ⟨hchild p ns p1 hns, ih hrest⟩

theorem decodeEntries_forall_payload
    (hchild : ∀ p ns q, child p = .ok (ns, q) → ∀ x ∈ ns.map Node.payload, P x) {c p q : Nat}
    {seen : List Bytes} {nodes : List Node}
    (h : decodeEntries inp child c seen p = .ok (nodes, q)) :
    ∀ x ∈ nodes.map Node.payload, P x := by
  induction c generalizing p seen nodes with
  | zero =>
    cases h
    simp
  | succ c ih =>
    obtain ⟨key, p1, ns, p2, rest, _, _, hns, hrest, rfl⟩ := decodeEntries_succ_ok h
    rw [List.map_append, setKey_map_payload, List.forall_mem_append]
    exact ⟨hchild p1 ns p2 hns, ih hrest⟩

theorem PayloadDecodes.forall_children_payload {t : TypePrefix} {p q : Nat} {payload : Payload}
    {children : List Node} (h : PayloadDecodes inp child p t payload children q)
    (hchild : ∀ p ns q, child p = .ok (ns, q) → ∀ x ∈ ns.map Node.payload, P x) :
    ∀ x ∈ children.map Node.payload, P x := by
  cases h with
  | wrapped _ hns => exact hchild _ _ _ hns
  | list _ hns => exact decodeItems_forall_payload hchild hns
  | tuple _ hns => exact decodeEntries_forall_payload hchild hns
  | integer | data | utf8 | empty | principal | contract => simp

/-- What holds of every payload that decodes holds of every node of a value. -/
theorem decodeValue_forall_payload
    (hP : ∀ child t p payload children q,
      PayloadDecodes inp child p t payload children q → P payload)
    {levels d start q : Nat} {nodes : List Node}
    (h : decodeValue inp levels d start = .ok (nodes, q)) :
    ∀ x ∈ nodes.map Node.payload, P x := by
  induction levels generalizing d start nodes q with
  | zero => cases h
  | succ levels ih =>
    obtain ⟨_, t, payload, children, _, hpayload, rfl⟩ := decodeValue_ok h
    have hp := decodePayload_ok hpayload
    rw [List.map_cons, List.forall_mem_cons]
    exact ⟨hP _ _ _ _ _ _ hp, hp.forall_children_payload fun _ _ _ hns => ih hns⟩

end EveryNode

/-- The bytes of an integer field are the sixteen that stand in its record (R232, R255). -/
theorem PayloadDecodes.raw_length {inp : Bytes} {child : Nat → Decoded} {t : TypePrefix} {p q : Nat}
    {payload : Payload} {children : List Node}
    (h : PayloadDecodes inp child p t payload children q) (r : Bytes) (hr : payload = .raw r) :
    r.length = 16 := by
  cases h with
  | integer _ htake =>
    cases hr
    obtain ⟨_, _, _, hlength⟩ := takeBytes_ok htake
    exact hlength
  | data | utf8 | empty | principal | contract | wrapped | list | tuple => cases hr

/-- Sixteen raw bytes are all that a node of a decode can hold (R255). -/
theorem decodeTop_raw_length {inp : Bytes} {start q : Nat} {nodes : List Node}
    (h : decodeTop inp start = .ok (nodes, q)) (n : Node) (hn : n ∈ nodes) (r : Bytes)
    (hr : n.payload = .raw r) : r.length = 16 :=
  decodeValue_forall_payload (P := fun x => ∀ r, x = .raw r → r.length = 16)
    (fun _ _ _ _ _ _ hp => hp.raw_length) h _ (List.mem_map_of_mem hn) r hr

end Sys2Proof.Machine
end

