-- ==== Sys2Proof/Proofs/RebuildRecords.lean ====
section
/-! PROOF. Rebuild undoes the decode (R260). Records hold a list of nodes where each has its node's
type byte and payload; over such records `rebuild` walks the nodes as the decoder laid them down, so
it ends where they do. VAL_DEC's commit leaves records that hold its nodes. -/

namespace Sys2Proof.Machine

/-! ### The fields of a record -/

/-- A part of a part is a part. -/
theorem slice_slice (s : Bytes) (off i : Nat) {n m : Nat} (h : i + m ≤ n) :
    slice (slice s off n) i m = slice s (off + i) m := by
  rw [slice, slice, slice, List.drop_take, List.drop_drop, List.take_take,
    Nat.min_eq_left (by omega)]

theorem slice_append_left_length (s t : Bytes) (n : Nat) :
    slice (s ++ t) s.length n = t.take n := by
  rw [slice, List.drop_left]

/-- A field that starts a sequence reads as its number. -/
theorem recordField_beField_append {v : Nat} (hv : v < 2 ^ 32) (rest : Bytes) :
    recordField (beField 4 v ++ rest) 0 = v := by
  have hslice : slice (beField 4 v ++ rest) 0 4 = beField 4 v :=
    List.take_left' (beField_length 4 v)
  rw [recordField, hslice, be_beField, Nat.mod_eq_of_lt (by omega)]

/-- A field behind another one. -/
theorem recordField_skip (u : Nat) (rest : Bytes) :
    recordField (beField 4 u ++ rest) 4 = recordField rest 0 := by
  have hslice := slice_append_left_length (beField 4 u) rest 4
  rw [beField_length] at hslice
  rw [recordField, hslice]
  rfl

/-- What Rebuild reads of a record: the type byte and the payload (R255, R260). The key fields of
a tuple's entry it takes as they are. -/
structure Describes (r : Bytes) (n : Node) : Prop where
  tag : r.getD 0 0xFF = typePrefixByte n.tag
  payload : slice r 16 16 = emitPayload n.payload

theorem Describes.recordField_payload {r : Bytes} {n : Node} (h : Describes r n) {i : Nat}
    (hi : i + 4 ≤ 16) : recordField r (16 + i) = recordField (emitPayload n.payload) i := by
  rw [recordField, recordField, ← h.payload, slice_slice r 16 i hi]

theorem emitNode_describes (cap : Bool) {n : Node} (hn : (emitPayload n.payload).length = 16) :
    Describes (emitNode cap n) n where
  tag := rfl
  payload := by
    rw [emitNode]
    exact (slice_append_left_length _ _ 16).trans (List.take_of_length_le hn.le)

/-! ### Records that hold nodes -/

/-- The records from index k on hold the nodes, one each, in order (R254). -/
def RecordsHold (rs : List Bytes) : Nat → List Node → Prop
  | _, [] => True
  | k, n :: rest => (∃ r, rs[k]? = some r ∧ Describes r n) ∧ RecordsHold rs (k + 1) rest

theorem recordsHold_append {rs : List Bytes} {k : Nat} {ns ms : List Node} :
    RecordsHold rs k (ns ++ ms) ↔ RecordsHold rs k ns ∧ RecordsHold rs (k + ns.length) ms := by
  induction ns generalizing k with
  | nil => simp [RecordsHold]
  | cons n ns ih =>
    simp only [List.cons_append, RecordsHold, ih, and_assoc, List.length_cons, Nat.add_comm,
      Nat.add_left_comm]

/-- A key is no part of what Rebuild needs of a node. -/
theorem RecordsHold.of_setKey {rs : List Bytes} {k : Nat} {key : Nat × Nat} :
    ∀ {ns : List Node}, RecordsHold rs k (setKey key ns) → RecordsHold rs k ns
  | [], _ => trivial
  | _ :: _, ⟨⟨r, hr, htag, hpayload⟩, hrest⟩ => ⟨⟨r, hr, htag, hpayload⟩, hrest⟩

theorem recordsHold_map_emitNode (cap : Bool) {nodes : List Node}
    (hnodes : ∀ n ∈ nodes, (emitPayload n.payload).length = 16) (before : List Bytes) :
    RecordsHold (before ++ nodes.map (emitNode cap)) before.length nodes := by
  induction nodes generalizing before with
  | nil => trivial
  | cons n rest ih =>
    obtain ⟨hn, hrest⟩ := List.forall_mem_cons.1 hnodes
    refine ⟨⟨emitNode cap n, by simp, emitNode_describes cap hn⟩, ?_⟩
    simpa using ih hrest (before ++ [emitNode cap n])

/-! ### Rebuild over such records -/

section Rebuild

variable {inp : Bytes} {mem : Nat → Byte} {rs : List Bytes} {child : Nat → Decoded}
  {sub : Nat → Option (Value × Nat)}

/-- `sub` rebuilds a value from the records of any nodes `child` decodes, and uses them all. -/
def Rebuilds (rs : List Bytes) (child : Nat → Decoded) (sub : Nat → Option (Value × Nat)) : Prop :=
  ∀ p ns q k, child p = .ok (ns, q) → RecordsHold rs k ns →
    (∃ r, rs[k]? = some r) ∧ ∃ v, sub k = some (v, k + ns.length)

theorem rebuildItems_of_decodeItems (hsub : Rebuilds rs child sub) {c p q k : Nat}
    {nodes : List Node} (h : decodeItems child c p = .ok (nodes, q))
    (hrs : RecordsHold rs k nodes) :
    ∃ vs, rebuildItems sub c k = some (vs, k + nodes.length) := by
  induction c generalizing p k nodes with
  | zero =>
    cases h
    exact ⟨[], rfl⟩
  | succ c ih =>
    obtain ⟨ns, p1, rest, hns, hrest, rfl⟩ := decodeItems_succ_ok h
    obtain ⟨hrs1, hrs2⟩ := recordsHold_append.1 hrs
    obtain ⟨_, v, hv⟩ := hsub p ns p1 k hns hrs1
    obtain ⟨vs, hvs⟩ := ih hrest hrs2
    exact ⟨v :: vs, by simp only [rebuildItems, hv, hvs, List.length_append, Nat.add_assoc]⟩

theorem rebuildEntries_of_decodeEntries (hsub : Rebuilds rs child sub) {c p q k : Nat}
    {seen : List Bytes} {nodes : List Node} (m : List (Bytes × Value))
    (h : decodeEntries inp child c seen p = .ok (nodes, q)) (hrs : RecordsHold rs k nodes) :
    ∃ entries, rebuildEntries mem rs sub c k m = some (entries, k + nodes.length) := by
  induction c generalizing p k seen nodes m with
  | zero =>
    cases h
    exact ⟨m, rfl⟩
  | succ c ih =>
    obtain ⟨key, p1, ns, p2, rest, _, _, hns, hrest, rfl⟩ := decodeEntries_succ_ok h
    obtain ⟨hrs1, hrs2⟩ := recordsHold_append.1 hrs
    obtain ⟨⟨r, hr⟩, v, hv⟩ := hsub p1 ns p2 k hns hrs1.of_setKey
    rw [setKey_length] at hrs2
    obtain ⟨entries, hentries⟩ :=
      ih (putEntry (bytesAt mem (recordField r 4) (r.getD 3 0).toNat) v m) hrest hrs2
    refine ⟨entries, ?_⟩
    simp only [rebuildEntries, hr, hv, hentries, List.length_append, setKey_length, Nat.add_assoc]

/-- The memory Rebuild reads still holds the decoder's input (R260). -/
def HoldsInput (mem : Nat → Byte) (inp : Bytes) : Prop :=
  ∀ a, a < inp.length → inp[a]? = some (mem a)

theorem bytesAt_eq_slice (hmem : HoldsInput mem inp) {off n : Nat}
    (h : off + n ≤ inp.length) : bytesAt mem off n = slice inp off n := by
  refine List.ext_getElem? fun i => ?_
  by_cases hi : i < n
  · simp [bytesAt, slice, hi, hmem (off + i) (by omega)]
  · simp [bytesAt, slice, hi]

/-- A UTF-8 string's record locates the bytes that were taken for it (R255). -/
theorem Describes.bytesAt_utf8 {x : Bytes} {node : Node} (hx : Describes x node)
    (hlen : inp.length < 2 ^ 32) (hmem : HoldsInput mem inp) {n off q scalars : Nat}
    {b : Bytes} (hnode : node.payload = .utf8 n off scalars)
    (hb : takeBytes inp off n = .ok (b, q)) :
    bytesAt mem (recordField x 20) (recordField x 16) = b := by
  obtain ⟨hle, rfl, _, _⟩ := takeBytes_ok hb
  have hemit : emitPayload node.payload = beField 4 n ++ (beField 4 off ++
      (beField 4 scalars ++ List.replicate 4 0)) := by
    rw [hnode, emitPayload, List.append_assoc, List.append_assoc]
  have hlength : recordField x 16 = n := by
    rw [hx.recordField_payload (i := 0) (by decide), hemit, recordField_beField_append (by omega)]
  have hoff : recordField x 20 = off := by
    rw [hx.recordField_payload (i := 4) (by decide), hemit, recordField_skip,
      recordField_beField_append (by omega)]
  rw [hlength, hoff, bytesAt_eq_slice hmem hle]

theorem Describes.recordField_count {x : Bytes} {node : Node} (hx : Describes x node) {c : Nat}
    (hnode : node.payload = .count c) (hc : c ≤ maxDecl) : recordField x 16 = c := by
  have hlt : c < 2 ^ 32 := hc.trans_lt (by decide)
  rw [hx.recordField_payload (i := 0) (by decide), hnode, emitPayload,
    recordField_beField_append hlt]

/-- A record whose payload decoded rebuilds to a value, and its children with it. -/
theorem rebuildRecord_of_payloadDecodes (hlen : inp.length < 2 ^ 32)
    (hmem : HoldsInput mem inp) (hsub : Rebuilds rs child sub)
    {node : Node} {p q k : Nat} {children : List Node} {x : Bytes}
    (h : PayloadDecodes inp child p node.tag node.payload children q) (hx : Describes x node)
    (hrs : RecordsHold rs (k + 1) children) :
    ∃ v, rebuildRecord mem rs sub node.tag x k = some (v, k + (children.length + 1)) := by
  obtain ⟨t, _, _, _, _, payload⟩ := node
  have hnext : k + (children.length + 1) = k + 1 + children.length := by omega
  rw [hnext]
  cases h with
  | integer ht | data ht => rcases ht with rfl | rfl <;> exact ⟨_, rfl⟩
  | empty ht => rcases ht with rfl | rfl | rfl <;> exact ⟨_, rfl⟩
  | principal | contract => exact ⟨_, rfl⟩
  | @utf8 _ _ _ _ groups _ hb hg =>
    have hdata := hx.bytesAt_utf8 hlen hmem rfl hb
    exact ⟨.stringUtf8 groups, by simp only [rebuildRecord, hdata, hg, List.length_nil,
      Nat.add_zero]⟩
  | wrapped ht hns =>
    obtain ⟨_, v, hv⟩ := hsub _ _ _ _ hns hrs
    rcases ht with rfl | rfl | rfl
    · exact ⟨.responseOk v, by simp only [rebuildRecord, hv, Option.map_some]⟩
    · exact ⟨.responseErr v, by simp only [rebuildRecord, hv, Option.map_some]⟩
    · exact ⟨.optionalSome v, by simp only [rebuildRecord, hv, Option.map_some]⟩
  | list hc hns =>
    obtain ⟨_, _, hbound, _⟩ := readSize_ok hc
    obtain ⟨vs, hvs⟩ := rebuildItems_of_decodeItems hsub hns hrs
    have hcount := hx.recordField_count rfl hbound
    exact ⟨.list vs, by simp only [rebuildRecord, hcount, hvs, Option.map_some]⟩
  | tuple hc hns =>
    obtain ⟨_, _, hbound, _⟩ := readSize_ok hc
    obtain ⟨es, hes⟩ := rebuildEntries_of_decodeEntries (mem := mem) hsub [] hns hrs
    have hcount := hx.recordField_count rfl hbound
    exact ⟨.tuple es, by simp only [rebuildRecord, hcount, hes, Option.map_some]⟩

/-- Rebuild and the decoder descend together, level by level. -/
theorem rebuild_of_decodeValue (hlen : inp.length < 2 ^ 32)
    (hmem : HoldsInput mem inp) (levels d : Nat) :
    Rebuilds rs (decodeValue inp levels d) (rebuild mem rs levels) := by
  induction levels generalizing d with
  | zero => exact fun _ _ _ _ h => nomatch h
  | succ levels ih =>
    intro p nodes q k h hrs
    obtain ⟨_, t, payload, children, _, hpayload, rfl⟩ := decodeValue_ok h
    obtain ⟨⟨x, hk, hx⟩, hchildren⟩ := hrs
    obtain ⟨v, hv⟩ := rebuildRecord_of_payloadDecodes hlen hmem (ih (d + 1))
      (node := ⟨t, d, none, p, q, payload⟩) (decodePayload_ok hpayload) hx hchildren
    have hrebuild : rebuild mem rs (levels + 1) k =
        rebuildRecord mem rs (rebuild mem rs levels) t x k := by
      simp only [rebuild, hk, hx.tag, typePrefixOf_byte]
    exact ⟨⟨x, hk⟩, v, hrebuild.trans hv⟩

end Rebuild

/-! ### The committed records -/

/-- Records of 32 bytes stand at the multiples of 32 (R115). -/
theorem map_slice_flatten {rs : List Bytes} (hrs : ∀ r ∈ rs, r.length = 32) :
    (List.range rs.length).map (fun k => slice rs.flatten (32 * k) 32) = rs := by
  induction rs with
  | nil => rfl
  | cons r rs ih =>
    obtain ⟨hr, hrest⟩ := List.forall_mem_cons.1 hrs
    have hhead : slice (r ++ rs.flatten) 0 32 = r := List.take_left' hr
    have htail (k : Nat) : slice (r ++ rs.flatten) (32 * (k + 1)) 32 =
        slice rs.flatten (32 * k) 32 := by
      rw [slice, slice, ← hr, Nat.mul_succ, Nat.add_comm, ← List.drop_drop, List.drop_left]
    rw [List.length_cons, List.range_succ_eq_map, List.map_cons, List.map_map, List.flatten_cons]
    simpa only [Function.comp_def, Nat.succ_eq_add_one, htail, Nat.mul_zero, hhead,
      List.cons.injEq, true_and] using ih hrest

/-- Asking for every place of a list gives the list. -/
theorem mapM_getElem?_range {α : Type} (l : List α) :
    (List.range l.length).mapM (fun a => l[a]?) = some l := by
  induction l with
  | nil => rfl
  | cons b l ih =>
    have htail : (fun a => (b :: l)[a]?) ∘ Nat.succ = fun a => l[a]? := rfl
    rw [List.length_cons, List.range_succ_eq_map, List.mapM_cons, List.mapM_map, htail, ih]
    rfl

/-- An output that OUT_BUF shows byte by byte is the machine's output (R37). -/
theorem State.output_eq_of_outByte {t : State} {out : Bytes} (hl : t.outLen.toNat = out.length)
    (hb : ∀ a, t.outByte a = out[a]?) : t.output = some out := by
  rw [State.output, hl, funext hb, mapM_getElem?_range]

section CommitRecords

variable (s : State) {rs : List Bytes} (q : Nat)

/-- NODE_COUNT after a commit of records whose bytes a 32-bit length can count (R30, R115). -/
theorem nodeCount_commitRecords (hfit : 32 * rs.length < 2 ^ 32) :
    (s.commitRecords rs q).nodeCount.toNat = rs.length := by
  rw [State.commitRecords_nodeCount, BitVec.toNat_ofNat, Nat.mod_eq_of_lt (by omega)]

/-- The records a machine shows after their commit (R115). -/
theorem records_commitRecords (hrs : ∀ r ∈ rs, r.length = 32) (hfit : 32 * rs.length < 2 ^ 32) :
    (s.commitRecords rs q).records = some rs := by
  have hflat : rs.flatten.length = 32 * rs.length := by
    have hlengths : rs.map List.length = List.replicate rs.length 32 :=
      List.eq_replicate_iff.2 ⟨List.length_map _, List.forall_mem_map.2 hrs⟩
    rw [List.length_flatten, hlengths, List.sum_replicate, smul_eq_mul, Nat.mul_comm]
  have houtLen : (s.commitRecords rs q).outLen.toNat = rs.flatten.length := by
    rw [State.commitRecords_outLen, BitVec.toNat_ofNat, hflat, Nat.mod_eq_of_lt hfit]
  have hout : (s.commitRecords rs q).output = some rs.flatten :=
    State.output_eq_of_outByte houtLen (outByte_of_cells (by simp) rfl houtLen)
  rw [State.records, hout, nodeCount_commitRecords s q hfit, Option.map_some,
    map_slice_flatten hrs]

end CommitRecords

/-- A VAL_DEC that ends in DONE has decoded a value and committed its records, which fit OUT_BUF
(R113, R250). -/
theorem exec_valDec_done {cap : Bool} {s t : State} (h : exec (.valDec cap) s = .next t)
    (hdone : t.engine = .done) :
    ∃ nodes q, decodeTop s.input s.startCursor = .ok (nodes, q) ∧
      32 * nodes.length ≤ s.params.outBufSize ∧
      t = s.commitRecords (nodes.map (emitNode cap)) q := by
  obtain rfl := exec_next h
  rcases commit_engine s (s.execute (.valDec cap) (commandFunction s (.valDec cap))) with
    ⟨⟨r, hr⟩, _⟩ | ⟨_, _, herror, _⟩
  · rcases execute_cases s (.valDec cap) (commandFunction s (.valDec cap)) with
      ⟨_, he⟩ | ⟨_, _, _, he⟩ | ⟨_, _, _, _, he⟩ | ⟨_, x, hx, hsize, he⟩ <;>
      rw [he] at hr <;> cases hr
    simp only [commandFunction, fValDec] at hx
    split at hx
    · cases hx
    next nodes q hdecode =>
      cases hx
      exact ⟨nodes, q, hdecode, by simpa [resultSize] using hsize, congrArg s.commit he⟩
  · exact nomatch hdone.symm.trans herror

/-- Settles O60: the committed records hold the decoder's nodes, so Rebuild walks them all. -/
theorem committedRecordsRebuildToOneValue : Obligations.CommittedRecordsRebuildToOneValue := by
  intro cap s t hinv _ hexec hdone
  obtain ⟨nodes, q, hdecode, hfit, rfl⟩ := exec_valDec_done hexec hdone
  obtain ⟨_, ⟨_, hout⟩, _⟩ := hinv.params
  have hraw := decodeTop_raw_length hdecode
  have hcount : 32 * (nodes.map (emitNode cap)).length < 2 ^ 32 := by
    rw [List.length_map]
    omega
  have hlength : ∀ r ∈ nodes.map (emitNode cap), r.length = 32 :=
    List.forall_mem_map.2 fun n hn => emitNode_length cap n (hraw n hn)
  have hmem : HoldsInput (s.commitRecords (nodes.map (emitNode cap)) q).inByte s.input := by
    intro a ha
    have hsame := (commit_sameOperands s (.ok (.records (nodes.map (emitNode cap)) q))).inByte a
    exact (s.input_getElem? a (by simpa using ha)).trans (congrArg some hsame.symm)
  have hlen : s.input.length < 2 ^ 32 := by
    rw [State.input_length]
    exact s.latched.inLen.isLt
  obtain ⟨_, v, hv⟩ := rebuild_of_decodeValue hlen hmem (maxDepth + 1) 0 s.startCursor nodes q 0
    hdecode (recordsHold_map_emitNode cap (fun n hn => emitPayload_length _ (hraw n hn)) [])
  refine ⟨v, ?_⟩
  rw [State.decodedValue, records_commitRecords s q hlength hcount,
    nodeCount_commitRecords s q hcount, List.length_map]
  simpa using hv

end Sys2Proof.Machine
end

