-- ==== Sys2Proof/Proofs/BusErrors.lean ====
section
/-! PROOF. Bus errors (R287): the address map rejects what R50 to R52 reject, whatever the buffer sizes;
a host access is answered once, with a bus error where it is rejected; and a rejected access leaves the
machine as it was. -/

namespace Sys2Proof.Machine

/-! ### No change of the machine -/

theorem SameMachine.trans {s t u : State} (hst : SameMachine s t) (htu : SameMachine t u) :
    SameMachine s u where
  ie := htu.ie.trans hst.ie
  cmd := htu.cmd.trans hst.cmd
  arg := htu.arg.trans hst.arg
  inLen := htu.inLen.trans hst.inLen
  inOff := htu.inOff.trans hst.inOff
  engine := htu.engine.trans hst.engine
  err := htu.err.trans hst.err
  outLen := htu.outLen.trans hst.outLen
  cursor := htu.cursor.trans hst.cursor
  nodeCount := htu.nodeCount.trans hst.nodeCount
  versionOut := htu.versionOut.trans hst.versionOut
  latched := htu.latched.trans hst.latched
  inByte a := (htu.inByte a).trans (hst.inByte a)
  inBuf := htu.inBuf.trans hst.inBuf
  outBuf := htu.outBuf.trans hst.outBuf
  params := htu.params.trans hst.params

@[simp] theorem State.tick_responses (s : State) : s.tick.responses = s.responses := by
  unfold State.tick
  split <;> rfl

/-- The arrival of an access (R62): it leaves the queue and is counted. -/
def State.arrive (s : State) (rest : List HostEvent) : State := { s with pending := rest }.tick

theorem State.arrive_sameMachine (s : State) (rest : List HostEvent) :
    SameMachine s (s.arrive rest) :=
  have hqueue : SameMachine s { s with pending := rest } := { SameMachine.refl s with }
  hqueue.trans (tick_sameMachine _)

@[simp] theorem State.arrive_responses (s : State) (rest : List HostEvent) :
    (s.arrive rest).responses = s.responses := State.tick_responses _

/-! ### What an access is answered -/

/-- The accesses the address map rejects, with no bound on the buffer sizes: where IN_BUF runs into
OUT_BUF, both take one byte. -/
theorem accessible_eq_false_iff (p : Config.Params) (off width : Nat) :
    accessible (regionAt p off) width = false ↔ ¬ LegalAccess p off width := by
  rw [← Bool.not_eq_true, not_iff_not]
  unfold regionAt LegalAccess
  split_ifs with hreg hin hout
  · simp only [accessible, Bool.and_eq_true, beq_iff_eq]
    omega
  · simp only [accessible, beq_iff_eq]
    omega
  · simp only [accessible, beq_iff_eq]
    omega
  · simp only [accessible, Bool.false_eq_true, false_iff]
    omega

theorem State.writeCtrl_responses (s : State) (v : Word) :
    (s.writeCtrl v).responses = s.responses := by
  rcases writeCtrl_cases s v with ⟨_, _, hw⟩ | ⟨_, _, _, hw⟩ | ⟨_, hw⟩ <;> rw [hw] <;> rfl

/-- A register write records nothing: the response is the bus's. -/
theorem State.writeReg_responses (s : State) (r : Reg) (v : Word) :
    (s.writeReg r v).responses = s.responses := by
  by_cases hctrl : r = .ctrl
  · rw [hctrl]
    exact s.writeCtrl_responses v
  · by_cases hb : s.engine = .busy
    · rw [writeReg_busy s r v hb, if_neg hctrl]
    · rw [writeReg_idle s r v hb hctrl]
      split_ifs <;> rfl

theorem State.writeInByte_responses (s : State) (a : Nat) (b : Byte) :
    (s.writeInByte a b).responses = s.responses := by
  unfold State.writeInByte
  split <;> rfl

/-- An access takes `s` to `t` as R287 says: it is answered once, with a bus error where R50 to R52
reject it, and an access so answered changes nothing of the machine. -/
structure AnswersAccess (s t : State) (off width : Nat) (r : BusResponse) : Prop where
  responses : t.responses = r :: s.responses
  busError_iff : r = .busError ↔ ¬ LegalAccess s.params off width
  unchanged : r = .busError → SameMachine s t

theorem hostRead_answersAccess (s : State) (off width : Nat) :
    ∃ r, AnswersAccess s (s.hostRead off width) off width r := by
  obtain ⟨hsame, ⟨r, hresponses, herror⟩, _⟩ := hostRead_spec s off width
  exact ⟨r, hresponses, herror.trans (accessible_eq_false_iff _ _ _), fun _ => hsame⟩

/-- A write that the bus accepts answers an access that is not rejected, if it records nothing else. -/
theorem answersAccess_accepted {s u : State} {off width : Nat}
    (hacc : accessible (regionAt s.params off) width = true) (hu : u.responses = s.responses) :
    AnswersAccess s (u.respond .accepted) off width .accepted where
  responses := by rw [State.respond_responses, hu]
  busError_iff := by simp [← accessible_eq_false_iff, hacc]
  unchanged := nofun

theorem hostWrite_answersAccess (s : State) (off width : Nat) (v : Word) :
    ∃ r, AnswersAccess s (s.hostWrite off width v) off width r := by
  rcases hostWrite_cases s off width v with
    ⟨hrejected, hw⟩ | ⟨hacc, ⟨_, hw⟩ | ⟨a, _, _, _, hw⟩ | ⟨a, _, _, hw⟩⟩ <;> rw [hw]
  · exact ⟨.busError, rfl, iff_of_true rfl ((accessible_eq_false_iff _ _ _).1 hrejected),
      fun _ => respond_sameMachine s .busError⟩
  · exact ⟨_, answersAccess_accepted hacc (s.writeReg_responses _ v)⟩
  · exact ⟨_, answersAccess_accepted hacc (s.writeInByte_responses a _)⟩
  · exact ⟨_, answersAccess_accepted hacc rfl⟩

/-- What answers an access from the state it arrives in answers it from the state before. -/
theorem AnswersAccess.of_arrive {s t : State} {rest : List HostEvent} {off width : Nat}
    {r : BusResponse} (h : AnswersAccess (s.arrive rest) t off width r) :
    AnswersAccess s t off width r where
  responses := by rw [h.responses, State.arrive_responses]
  busError_iff := by rw [h.busError_iff, (s.arrive_sameMachine rest).params]
  unchanged hr := (s.arrive_sameMachine rest).trans (h.unchanged hr)

/-! ### The step -/

/-- A read at an offset of the window is taken as the next host event (R50, R62). -/
theorem State.hostStep_read {s : State} {off width : Nat} {rest : List HostEvent}
    (hoff : off < windowSize) (hp : s.pending = .read (s.params.base + off) width :: rest) :
    s.hostStep = .next ((s.arrive rest).hostRead off width) := by
  have hin : s.inWindow (s.params.base + off) = true := by simpa [inWindow_add] using hoff
  simp [State.hostStep, State.arrive, hp, hin]

/-- The next host event, an access at an offset of the window, takes the machine to a state that
answers it. -/
theorem hostStep_answersAccess {s : State} {off width : Nat} {v : Word} {rest : List HostEvent}
    (hoff : off < windowSize)
    (hp : s.pending = .read (s.params.base + off) width :: rest ∨
      s.pending = .write (s.params.base + off) width v :: rest) :
    ∃ t r, s.hostStep = .next t ∧ AnswersAccess s t off width r := by
  rcases hp with hread | hwrite
  · obtain ⟨r, hr⟩ := hostRead_answersAccess (s.arrive rest) off width
    exact ⟨_, r, State.hostStep_read hoff hread, hr.of_arrive⟩
  · obtain ⟨r, hr⟩ := hostWrite_answersAccess (s.arrive rest) off width v
    exact ⟨_, r, State.hostStep_write hoff hwrite, hr.of_arrive⟩

/-- Settles O14: no completion step is due, so the access is the next event, and it is answered as
the address map says. -/
theorem busErrorsAreExactlyTheRejectedAccesses :
    Obligations.BusErrorsAreExactlyTheRejectedAccesses := by
  intro s off width v rest hdue hoff hp
  obtain ⟨t, r, hstep, hr⟩ := hostStep_answersAccess hoff hp
  refine ⟨t, r, (step_of_not_due hdue).trans hstep, hr.responses, fun hrejected => ?_,
    fun hlegal herror => hr.busError_iff.1 herror hlegal⟩
  have herror : r = .busError := hr.busError_iff.2 hrejected
  exact ⟨herror, hr.unchanged herror⟩

end Sys2Proof.Machine
end

