-- ==== Sys2Proof/Proofs/ResetAndBusyWrites.lean ====
section
/-! PROOF. Reset while a command may run (R320, R321) and writes while one runs (R44, R332): what the
machine is after each. -/

namespace Sys2Proof.Machine

/-! ### Reset -/

/-- The reset input is taken as the next host event (R320). -/
theorem State.hostStep_reset {s : State} {rest : List HostEvent} (hp : s.pending = .reset :: rest) :
    s.hostStep = .next { s with pending := rest }.applyReset := by
  simp [State.hostStep, hp]

theorem State.applyReset_resultsClear (s : State) : ResultsClear s.applyReset where
  outLen := s.applyReset_outLen
  cursor := s.applyReset_cursor
  nodeCount := s.applyReset_nodeCount
  versionOut := s.applyReset_versionOut
  outBuf := s.applyReset_outBuf

/-- Where the results are clear, OUT_LEN is 0, so no OUT_BUF byte is specified (R37). -/
theorem ResultsClear.outByte {s : State} (h : ResultsClear s) (a : Nat) : s.outByte a = none := by
  simp [State.outByte, h.outLen]

/-- Settles O7: no completion step is due, so the reset is the next event. -/
theorem resetAbandonsAndClears : Obligations.ResetAbandonsAndClears := by
  intro s rest hdue hp
  have hclear : ResultsClear { s with pending := rest }.applyReset := State.applyReset_resultsClear _
  refine ⟨_, (step_of_not_due hdue).trans (State.hostStep_reset hp), State.applyReset_ie _,
    State.applyReset_cmd _, State.applyReset_arg _, State.applyReset_inLen _,
    State.applyReset_inOff _, State.applyReset_engine _, State.applyReset_err _, hclear,
    State.applyReset_irq _, State.applyReset_params _, fun a => ?_, hclear.outByte,
    State.applyReset_pending _⟩
  rw [State.applyReset_inBuf, Memory.read_nil]

/-! ### Writes while BUSY -/

/-- A legal access lies in the window: OUT_BUF, the last range, ends below its end (R7, R50). -/
theorem LegalAccess.lt_windowSize {p : Config.Params} {off width : Nat} (hp : p.legal)
    (h : LegalAccess p off width) : off < windowSize := by
  obtain ⟨⟨_, hin⟩, ⟨_, hout⟩, _⟩ := hp
  unfold windowSize
  rcases h with ⟨hreg, _, _⟩ | ⟨_, hinBuf, _⟩ | ⟨_, houtBuf, _⟩ <;> omega

/-- While BUSY an accepted write is lost, but for IE in a write to CTRL (R44, R332): no other register
takes it, IN_BUF does not (R53), and OUT_BUF never does (R54). -/
theorem State.hostWrite_busy {s : State} {off width : Nat} (v : Word) (hb : s.engine = .busy)
    (hacc : accessible (regionAt s.params off) width = true) :
    s.hostWrite off width v =
      (if off = 0 then { s with ie := v.getLsbD 2 } else s).respond .accepted := by
  rcases hostWrite_cases s off width v with
    ⟨hrejected, _⟩ | ⟨_, ⟨hreg, hw⟩ | ⟨a, _, hoff, _, hw⟩ | ⟨a, _, hoff, hw⟩⟩
  · rw [hacc] at hrejected
    cases hrejected
  · rw [hreg] at hacc
    obtain ⟨_, halign⟩ : width = 4 ∧ off % 4 = 0 := by simpa [accessible] using hacc
    have hctrl : regAt off = .ctrl ↔ off = 0 :=
      ⟨eq_zero_of_regAt_eq_ctrl halign, fun h => by rw [h]; rfl⟩
    simp only [hw, writeReg_busy s _ v hb, hctrl]
  · have hlost : s.writeInByte a (v.extractLsb' 0 8) = s := if_pos hb
    rw [hw, hlost, if_neg (by omega)]
  · rw [hw, if_neg (by omega)]

/-- Setting IE alike keeps two states the same. -/
theorem SameMachine.setIe {s t : State} (h : SameMachine s t) (b : Bool) :
    SameMachine { s with ie := b } { t with ie := b } :=
  { h with ie := rfl }

/-- Settles O10: no completion step is due, so the write is the next event; its arrival changes
nothing, and BUSY loses it. -/
theorem writesWhileBusyAreLost : Obligations.WritesWhileBusyAreLost := by
  intro s off width v rest hparams hb hdue hp hlegal
  have harrive : SameMachine s (s.arrive rest) := s.arrive_sameMachine rest
  have hacc : accessible (regionAt (s.arrive rest).params off) width = true := by
    rw [harrive.params]
    exact (accessible_iff_legalAccess hparams.1.2 off width).2 hlegal
  have hstep : step s = .next ((s.arrive rest).hostWrite off width v) :=
    (step_of_not_due hdue).trans (State.hostStep_write (hlegal.lt_windowSize hparams) hp)
  rw [State.hostWrite_busy v (harrive.engine.trans hb) hacc] at hstep
  refine ⟨_, hstep, ?_, ?_⟩
  · refine SameMachine.trans ?_ (respond_sameMachine _ _)
    split_ifs
    · exact harrive.setIe _
    · exact harrive
  · rw [State.respond_responses]
    split_ifs <;> exact congrArg _ (s.arrive_responses rest)

end Sys2Proof.Machine
end

section
/-! PROOF. Decoding and encoding are inverse (R80, R83, R84): a row builds the command whose word
has the row's opcode and the word's CAP bit, and these fields are the whole word. -/

namespace Sys2Proof

/-- The fields of a command's word (R80, R83). -/
theorem encode_fields (i : Instr) :
    opcOf (encode i) = opcode i ∧ capOf (encode i) = captureBit i ∧ rsvdOf (encode i) = 0 := by
  cases i with
  | valDec cap => cases cap <;> decide
  | _ => decide

/-- The word of a command decodes to it (R84). -/
theorem decode_encode (i : Instr) : decode (encode i) = .ok i := by
  cases i with
  | valDec cap => cases cap <;> rfl
  | _ => rfl

/-- A row builds the command with the row's opcode, and with the CAP bit where it is VAL_DEC's. -/
theorem build_fields {r : OpcodeRow} (hr : r ∈ opcodeTable) {cap : Bool}
    (hcap : cap = true → opcOf r.matchBits = 0x20) :
    opcode (r.build cap) = opcOf r.matchBits ∧ captureBit (r.build cap) = cap := by
  have hall : ∀ r ∈ opcodeTable, ∀ cap : Bool, (cap = true → opcOf r.matchBits = 0x20) →
      opcode (r.build cap) = opcOf r.matchBits ∧ captureBit (r.build cap) = cap := by decide
  exact hall r hr cap hcap

/-- A decoded command was built by a row that selects the word. -/
theorem decode_ok {w : Word} {i : Instr} (h : decode w = .ok i) :
    ∃ r ∈ opcodeTable, r.selects w = true ∧ i = r.build (capOf w) := by
  rw [decode] at h
  split at h
  next r hfind =>
    cases h
    have hsel : r.selects w = true := by simpa using List.find?_some hfind
    exact ⟨r, List.mem_of_find?_eq_some hfind, hsel, rfl⟩
  next => cases h

theorem eq_encode_of_decode {w : Word} {i : Instr} (h : decode w = .ok i) : w = encode i := by
  obtain ⟨r, hr, hsel, rfl⟩ := decode_ok h
  obtain ⟨hlegal, hopc⟩ := (selects_iff hr w).1 hsel
  obtain ⟨_, hrsvd, hcap⟩ := (legalWord_iff w).1 hlegal
  obtain ⟨hbuildOpc, hbuildCap⟩ := build_fields hr (cap := capOf w) fun h => hopc.trans (hcap h)
  obtain ⟨eopc, ecap, ersvd⟩ := encode_fields (r.build (capOf w))
  rw [word_eq_iff_fields, eopc, ecap, ersvd, hbuildOpc, hbuildCap]
  exact ⟨hopc.symm, rfl, hrsvd⟩

/-- Settles O1: the row a word selects gives back the word's fields. -/
theorem decodeAndEncodeAreInverse : Obligations.DecodeAndEncodeAreInverse := by
  intro w i
  exact ⟨eq_encode_of_decode, fun h => h ▸ decode_encode i⟩

/-- A table row's word is a command's own (R84). -/
theorem decodeTableWord_encode (i : Instr) : decodeTableWord 32 (encode i).toNat = some i := by
  have hlt : (encode i).toNat < 2 ^ 32 := (encode i).isLt
  have hword : BitVec.ofNat 32 ((encode i).toNat % 2 ^ 32) = encode i := by
    rw [Nat.mod_eq_of_lt hlt, BitVec.ofNat_toNat, BitVec.setWidth_eq]
  rw [decodeTableWord, if_pos (by rwa [Nat.mod_eq_of_lt hlt]), hword, decode_encode]

/-- Settles O3: eight of the words are commands' own words; B58_ENC with CAP set is illegal. -/
theorem opcodeMapWordsDecode : Obligations.OpcodeMapWordsDecode := by
  refine ⟨decodeTableWord_encode .b58Enc, decodeTableWord_encode .b58chkDec,
    decodeTableWord_encode .c32Enc, decodeTableWord_encode .c32chkEncP,
    decodeTableWord_encode .c32addrDec, decodeTableWord_encode (.valDec false),
    decodeTableWord_encode (.valDec true), decodeTableWord_encode .ctnCheck, ?_⟩
  have hillegal : decode 0x00000101 = .error (refusalOf 0x00000101) :=
    decode_error_of_illegal (by decide)
  have hword : BitVec.ofNat 32 (0x00000101 % 2 ^ 32) = 0x00000101 := by decide
  rw [decodeTableWord, if_pos (by decide), hword, hillegal]

end Sys2Proof
end

section
/-! PROOF. Host accesses outside BUSY and reads in every STATE (R21 to R26, R53, R54, R61): what
the access map selects, what a write stores there and what a read returns; and RUN as five
register writes (R89). -/

namespace Sys2Proof.Machine

/-! ### The registers and their offsets -/

/-- A named register stands at one offset (R21). -/
theorem regOffset_regAt {off : Nat} (halign : off % 4 = 0) (h : regAt off ≠ .reserved) :
    regOffset (regAt off) = off := by
  unfold regAt at h ⊢
  split at h
  on_goal 13 => exact absurd rfl h
  all_goals
    simp only [regOffset]
    omega

theorem regAt_regOffset (r : Reg) : regAt (regOffset r) = r := by
  cases r <;> rfl

theorem regAt_eq_iff {off : Nat} {r : Reg} (halign : off % 4 = 0) (hr : r ≠ .reserved) :
    regAt off = r ↔ off = regOffset r :=
  ⟨fun h => h ▸ (regOffset_regAt halign (h ▸ hr)).symm, fun h => h ▸ regAt_regOffset r⟩

/-- The reserved slots are those behind OUTSZ (R34). -/
theorem le_of_regAt_eq_reserved {off : Nat} (h : regAt off = .reserved) : 0x30 ≤ off := by
  by_contra hlow
  have hslot : off / 4 < 12 := by omega
  interval_cases hoff : off / 4 <;> simp [regAt, hoff] at h

/-! ### What an offset selects -/

theorem regionAt_register (p : Config.Params) {off : Nat} (h : off < 0x100) :
    regionAt p off = .register off := if_pos h

theorem regionAt_inBuf {p : Config.Params} {a : Nat} (h : a < p.inBufSize) :
    regionAt p (0x1000000 + a) = .inBuf a := by
  rw [regionAt, if_neg (by omega), if_pos (by omega), Nat.add_sub_cancel_left]

theorem regionAt_outBuf {p : Config.Params} {a : Nat} (hin : p.inBufSize ≤ 2 ^ 24)
    (h : a < p.outBufSize) : regionAt p (0x2000000 + a) = .outBuf a := by
  rw [regionAt, if_neg (by omega), if_neg (by omega), if_pos (by omega), Nat.add_sub_cancel_left]

/-! ### Writes outside BUSY -/

/-- Outside BUSY the next step performs the write that the host has made (R62). -/
theorem step_write {s : State} {off width : Nat} {v : Word} {rest : List HostEvent}
    (hb : s.engine ≠ .busy) (hoff : off < windowSize)
    (hp : s.pending = .write (s.params.base + off) width v :: rest) :
    step s = .next ({ s with pending := rest }.hostWrite off width v) := by
  have htick : { s with pending := rest }.tick = { s with pending := rest } :=
    State.tick_of_not_busy hb
  rw [step_of_not_due (completionDue_of_not_busy hb), State.hostStep_write hoff hp, htick]

theorem State.hostWrite_register (s : State) {off : Nat} (v : Word) (h : off < 0x100)
    (halign : off % 4 = 0) :
    s.hostWrite off 4 v = (s.writeReg (regAt off) v).respond .accepted := by
  simp [State.hostWrite, regionAt_register s.params h, accessible, halign]

theorem State.hostWrite_inBuf (s : State) {a : Nat} (v : Word) (h : a < s.params.inBufSize) :
    s.hostWrite (0x1000000 + a) 1 v =
      (s.writeInByte a (v.extractLsb' 0 8)).respond .accepted := by
  simp [State.hostWrite, regionAt_inBuf h, accessible]

theorem State.hostWrite_outBuf (s : State) {a : Nat} (v : Word) (hin : s.params.inBufSize ≤ 2 ^ 24)
    (h : a < s.params.outBufSize) :
    s.hostWrite (0x2000000 + a) 1 v = s.respond .accepted := by
  simp [State.hostWrite, regionAt_outBuf hin h, accessible]

/-- A write to CTRL with neither START nor an ACK that acts sets IE (R22). -/
theorem State.writeCtrl_ie {s : State} {v : Word} (h0 : v.getLsbD 0 = false)
    (h1 : v.getLsbD 1 = false ∨ s.engine = .idle) :
    s.writeCtrl v = { s with ie := v.getLsbD 2 } := by
  rcases writeCtrl_cases s v with ⟨hstart, _, _⟩ | ⟨_, hack, hended, _⟩ | ⟨_, hw⟩
  · exact nomatch h0.symm.trans hstart
  · rcases h1 with h1 | h1
    · exact nomatch h1.symm.trans hack
    · simp [h1] at hended
  · exact hw

/-- What a register write outside BUSY stores, by offset, where it neither starts nor
acknowledges. -/
theorem State.writeReg_regAt {s : State} {off : Nat} (v : Word) (hb : s.engine ≠ .busy)
    (halign : off % 4 = 0)
    (hctrl : off = 0x00 → v.getLsbD 0 = false ∧ (v.getLsbD 1 = false ∨ s.engine = .idle)) :
    s.writeReg (regAt off) v =
      (if off = 0x00 then { s with ie := v.getLsbD 2 }
        else if off = 0x04 then { s with cmd := v }
        else if off = 0x08 then { s with arg := v }
        else if off = 0x0C then { s with inLen := v }
        else if off = 0x10 then { s with inOff := v }
        else s) := by
  by_cases h0 : off = 0
  · obtain ⟨hstart, hack⟩ := hctrl h0
    rw [if_pos h0, h0]
    exact State.writeCtrl_ie hstart hack
  · have hne : regAt off ≠ .ctrl := fun h => h0 (eq_zero_of_regAt_eq_ctrl halign h)
    rw [if_neg h0, writeReg_idle s _ v hb hne]
    simp [regAt_eq_iff halign, regOffset]

/-- Settles O11: the write is the next event, and the address map takes it to a register or to
OUT_BUF. -/
theorem registerWritesStoreOrAreIgnored : Obligations.RegisterWritesStoreOrAreIgnored := by
  intro s off width v rest hparams hb hctrl hrange hlegal hp
  have hstep := step_write hb (hlegal.lt_windowSize hparams) hp
  rcases hlegal with ⟨hreg, halign, rfl⟩ | ⟨hlo, hhi, _⟩ | ⟨hlo, hhi, rfl⟩
  · rw [State.hostWrite_register _ v hreg halign,
      State.writeReg_regAt (s := { s with pending := rest }) v hb halign hctrl] at hstep
    refine ⟨_, hstep, ?_, (SameMachine.trans ?_ (respond_sameMachine _ _))⟩
    · split_ifs <;> rfl
    · split_ifs <;> exact { SameMachine.refl _ with }
  · have := hparams.1.2
    omega
  · obtain ⟨a, rfl⟩ := Nat.exists_eq_add_of_le hlo
    rw [State.hostWrite_outBuf { s with pending := rest } v hparams.1.2 (by simpa using hhi)]
      at hstep
    refine ⟨_, hstep, rfl, SameMachine.trans ?_ (respond_sameMachine _ _)⟩
    rw [if_neg (by omega), if_neg (by omega), if_neg (by omega), if_neg (by omega),
      if_neg (by omega)]
    exact { SameMachine.refl s with }

/-- The byte that a write to IN_BUF stores, and the bytes it leaves (R36, R53). -/
theorem State.inByte_writeInByte {s : State} (hb : s.engine ≠ .busy) (a x : Nat) (b : Byte) :
    (s.writeInByte a b).inByte x = if x = a then b else s.inByte x := by
  rw [State.writeInByte, if_neg hb]
  by_cases hx : x = a
  · simp [State.inByte, hx]
  · simp [State.inByte, hx, Memory.read_write_other]

/-- Settles O12: the write is the next event, and it writes one byte of the buffer. -/
theorem inBufWriteStoresOneByte : Obligations.InBufWriteStoresOneByte := by
  intro s a v rest hparams hb ha hp
  have hoff : 0x1000000 + a < windowSize := by
    have := hparams.1.2
    unfold windowSize
    omega
  have hbyte (x : Nat) := State.inByte_writeInByte (s := { s with pending := rest }) hb a x
    (v.extractLsb' 0 8)
  refine ⟨_, step_write hb hoff hp, ?_⟩
  rw [State.hostWrite_inBuf { s with pending := rest } v ha]
  have hstored : { s with pending := rest }.writeInByte a (v.extractLsb' 0 8) =
      { s with pending := rest, inBuf := Memory.write s.inBuf a (v.extractLsb' 0 8) } := if_neg hb
  refine ⟨?_, (hbyte a).trans (if_pos rfl), fun x hx => (hbyte x).trans (if_neg hx), ?_⟩
  · rw [hstored]
    rfl
  · rw [hstored]
    exact { SameMachine.refl { s with inBuf := Memory.write s.inBuf a (v.extractLsb' 0 8) } with }

/-! ### Reads -/

/-- STATUS as R27 lays it out: ERRCODE above STATE. -/
theorem State.statusWord_eq (s : State) :
    s.statusWord = BitVec.ofNat 32 (256 * s.errCode.toNat + s.engine.code.toNat) := by
  unfold State.statusWord State.errCode
  rcases s.err with _ | e
  · cases s.engine <;> rfl
  · cases s.engine <;> cases e <;> rfl

/-- What a register reads, by offset (R22 to R34). -/
theorem State.readReg_regAt (s : State) {off : Nat} (halign : off % 4 = 0) :
    s.readReg (regAt off) =
      (if off = 0x00 then (if s.ie then 4 else 0)
        else if off = 0x04 then s.cmd
        else if off = 0x08 then s.arg
        else if off = 0x0C then s.inLen
        else if off = 0x10 then s.inOff
        else if off = 0x14 then s.statusWord
        else if off = 0x18 then s.outLen
        else if off = 0x1C then s.cursor
        else if off = 0x20 then s.nodeCount
        else if off = 0x24 then BitVec.ofNat 32 s.versionOut.toNat
        else if off = 0x28 then BitVec.ofNat 32 s.params.inBufSize
        else if off = 0x2C then BitVec.ofNat 32 s.params.outBufSize
        else 0) := by
  by_cases hres : regAt off = .reserved
  · have hlow := le_of_regAt_eq_reserved hres
    rw [hres]
    repeat rw [if_neg (by omega)]
    rfl
  · have hoff := regOffset_regAt halign hres
    generalize regAt off = r at hoff hres
    subst hoff
    cases r <;> simp [regOffset, State.readReg, State.ctrlWord] at hres ⊢

theorem SameMachine.statusWord_eq {s t : State} (h : SameMachine s t) :
    t.statusWord = s.statusWord := by
  simp only [State.statusWord, State.errCode, h.engine, h.err]

theorem SameMachine.readReg_eq {s t : State} (h : SameMachine s t) (r : Reg) :
    t.readReg r = s.readReg r := by
  cases r <;> simp only [State.readReg, State.ctrlWord, h.statusWord_eq, h.ie, h.cmd, h.arg,
    h.inLen, h.inOff, h.outLen, h.cursor, h.nodeCount, h.versionOut, h.params]

theorem SameMachine.outByte_eq {s t : State} (h : SameMachine s t) (a : Nat) :
    t.outByte a = s.outByte a := by
  simp only [State.outByte, h.engine, h.outLen, h.outBuf]

theorem State.hostRead_register (s : State) {off : Nat} (h : off < 0x100) (halign : off % 4 = 0) :
    s.hostRead off 4 = s.respond (.data (s.readReg (regAt off))) := by
  simp [State.hostRead, regionAt_register s.params h, accessible, halign]

theorem State.hostRead_inBuf (s : State) {a : Nat} (h : a < s.params.inBufSize) :
    s.hostRead (0x1000000 + a) 1 = s.respond (.data ((s.inByte a).zeroExtend 32)) := by
  simp [State.hostRead, regionAt_inBuf h, accessible]

theorem State.hostRead_outBuf (s : State) {a : Nat} (hin : s.params.inBufSize ≤ 2 ^ 24)
    (h : a < s.params.outBufSize) : s.hostRead (0x2000000 + a) 1 = s.readOutByte a := by
  simp [State.hostRead, regionAt_outBuf hin h, accessible]

/-- A read of OUT_BUF answers a byte, the specified one where there is one (R37, R54). -/
theorem State.readOutByte_responses (s : State) (a : Nat) :
    ∃ b : Byte, (s.readOutByte a).responses = .data (b.zeroExtend 32) :: s.responses ∧
      ∀ x, s.outByte a = some x → b = x := by
  rcases readOutByte_cases s a with ⟨b, hb, he⟩ | ⟨hnone, he⟩
  · exact ⟨b, by rw [he, State.respond_responses], fun x hx => Option.some.inj (hb.symm.trans hx)⟩
  · exact ⟨_, by rw [he, State.respond_responses], fun x hx => nomatch hnone.symm.trans hx⟩

/-- Settles O13: the read is the next event, its arrival changes nothing of the machine, and the
address map takes it to a register or a buffer byte. -/
theorem readsReturnTheStateAndChangeNothing :
    Obligations.ReadsReturnTheStateAndChangeNothing := by
  intro s off width rest hparams hdue hp hlegal
  have harrive : SameMachine s (s.arrive rest) := s.arrive_sameMachine rest
  have hstep : step s = .next ((s.arrive rest).hostRead off width) :=
    (step_of_not_due hdue).trans (State.hostStep_read (hlegal.lt_windowSize hparams) hp)
  obtain ⟨hread, _⟩ := hostRead_spec (s.arrive rest) off width
  have hsame := harrive.trans hread
  rcases hlegal with ⟨hreg, halign, rfl⟩ | ⟨hlo, hhi, rfl⟩ | ⟨hlo, hhi, rfl⟩
  · refine ⟨_, s.readReg (regAt off), hstep, ?_, hsame, fun _ => ?_, by omega, by omega⟩
    · rw [State.hostRead_register _ hreg halign, State.respond_responses, harrive.readReg_eq,
        State.arrive_responses]
    · rw [State.readReg_regAt s halign, State.statusWord_eq]
      cases s.engine <;> rfl
  · obtain ⟨a, rfl⟩ := Nat.exists_eq_add_of_le hlo
    have ha : a < (s.arrive rest).params.inBufSize := by
      rw [harrive.params]
      omega
    refine ⟨_, (s.inByte a).zeroExtend 32, hstep, ?_, hsame, by omega, fun _ _ => ?_, ?_⟩
    · rw [State.hostRead_inBuf _ ha, State.respond_responses, harrive.inByte,
        State.arrive_responses]
    · rw [Nat.add_sub_cancel_left]
    · have := hparams.1.2
      omega
  · obtain ⟨a, rfl⟩ := Nat.exists_eq_add_of_le hlo
    have ha : a < (s.arrive rest).params.outBufSize := by
      rw [harrive.params]
      omega
    have hin : (s.arrive rest).params.inBufSize ≤ 2 ^ 24 := harrive.params ▸ hparams.1.2
    obtain ⟨b, hresponses, hb⟩ := (s.arrive rest).readOutByte_responses a
    refine ⟨_, b.zeroExtend 32, hstep, ?_, hsame, by omega, by omega, fun _ => ⟨b, rfl, ?_⟩⟩
    · rw [State.hostRead_outBuf _ hin ha, hresponses, State.arrive_responses]
    · intro x hx
      rw [Nat.add_sub_cancel_left] at hx
      exact hb x (by rw [harrive.outByte_eq, hx])

/-- Settles O6: each register's reset value, read off the state after reset. -/
theorem resetStateHasTheSpecsValues : Obligations.ResetStateHasTheSpecsValues :=
  ⟨rfl, rfl, rfl, rfl, rfl, rfl, rfl, rfl, rfl, rfl, rfl, rfl, rfl, rfl, fun _ => rfl, fun _ => rfl⟩

/-! ### RUN -/

/-- The machine after the host's write of a register, with the events left in the queue. -/
def State.stored (s : State) (r : Reg) (v : Word) (rest : List HostEvent) : State :=
  ({ s with pending := rest }.writeReg r v).respond .accepted

/-- A write to an operand register keeps STATE and the parameters. -/
theorem State.stored_frame {s : State} {r : Reg} (hr : r ≠ .ctrl) (v : Word)
    (rest : List HostEvent) :
    (s.stored r v rest).engine = s.engine ∧ (s.stored r v rest).params = s.params ∧
      (s.stored r v rest).pending = rest := by
  unfold State.stored
  by_cases hb : s.engine = .busy
  · rw [writeReg_busy { s with pending := rest } r v hb, if_neg hr]
    exact ⟨rfl, rfl, rfl⟩
  · rw [writeReg_idle { s with pending := rest } r v hb hr]
    split_ifs <;> exact ⟨rfl, rfl, rfl⟩

/-- Outside BUSY a register write of a host program is the next step (R88). -/
theorem step_wrAccess {s : State} {r : Reg} {v : Word} {rest : List HostEvent}
    (hb : s.engine ≠ .busy) (hp : s.pending = wrAccess s.params.base r v :: rest) :
    step s = .next (s.stored r v rest) := by
  have hoff : regOffset r < 0x100 ∧ regOffset r % 4 = 0 := by cases r <;> decide
  have hstep := step_write (off := regOffset r) hb (hoff.1.trans (by decide)) hp
  rw [hstep, State.hostWrite_register _ v hoff.1 hoff.2, regAt_regOffset]
  rfl

theorem run_succ_of_step {s t : State} (h : step s = .next t) (k : Nat) :
    Host.Core.run Sys2Proof.core (k + 1) s = Host.Core.run Sys2Proof.core k t := by
  have hcore : Sys2Proof.core.step s = .next t := h
  simp only [Host.Core.run, hcore]

/-- A write to an operand register is one step, after which the next write can follow. -/
theorem run_wrAccess {s : State} {base : Nat} {r : Reg} {v : Word} {rest : List HostEvent}
    (hr : r ≠ .ctrl) (hb : s.engine ≠ .busy) (hbase : s.params.base = base)
    (hp : s.pending = wrAccess base r v :: rest) :
    (∀ k, Host.Core.run Sys2Proof.core (k + 1) s =
        Host.Core.run Sys2Proof.core k (s.stored r v rest)) ∧
      (s.stored r v rest).engine ≠ .busy ∧ (s.stored r v rest).params.base = base ∧
      (s.stored r v rest).pending = rest := by
  obtain ⟨hengine, hparams, hpending⟩ := State.stored_frame (s := s) hr v rest
  rw [← hbase] at hp
  exact ⟨run_succ_of_step (step_wrAccess hb hp), hengine ▸ hb, hparams ▸ hbase, hpending⟩

/-- The machine after RUN's first four writes: the command's operands are stored (R89). -/
def State.withOperands (s : State) (c : Command) (events : List HostEvent) : State :=
  { s with
    cmd := encode c.instr
    arg := encodeArg c.version c.prefixByte
    inLen := c.len
    inOff := c.off
    pending := events
    responses := .accepted :: .accepted :: .accepted :: .accepted :: s.responses }

theorem run_operandWrites {s : State} {c : Command} {rest : List HostEvent}
    (hb : s.engine ≠ .busy)
    (hp : s.pending = wrAccess s.params.base .cmd (encode c.instr) ::
      wrAccess s.params.base .arg (encodeArg c.version c.prefixByte) ::
      wrAccess s.params.base .inLen c.len :: wrAccess s.params.base .inOff c.off :: rest)
    (k : Nat) :
    Host.Core.run Sys2Proof.core (k + 4) s =
      Host.Core.run Sys2Proof.core k (s.withOperands c rest) := by
  obtain ⟨hrun1, hb1, hbase1, hp1⟩ := run_wrAccess (by decide) hb rfl hp
  obtain ⟨hrun2, hb2, hbase2, hp2⟩ := run_wrAccess (by decide) hb1 hbase1 hp1
  obtain ⟨hrun3, hb3, hbase3, hp3⟩ := run_wrAccess (by decide) hb2 hbase2 hp2
  obtain ⟨hrun4, _⟩ := run_wrAccess (by decide) hb3 hbase3 hp3
  rw [hrun1, hrun2, hrun3, hrun4]
  simp only [State.stored, State.writeReg, State.respond, State.withOperands, hb, if_false]

/-- Settles O16: four writes store the operands, and the fifth is START. -/
theorem runStatementStartsTheCommand : Obligations.RunStatementStartsTheCommand := by
  intro s c ie hb hp
  have hstart : (1 ||| ieBit ie).getLsbD 0 = true := by cases ie <;> rfl
  have hie : (1 ||| ieBit ie).getLsbD 2 = ie := by cases ie <;> rfl
  have hctrl : step (s.withOperands c [wrAccess s.params.base .ctrl (1 ||| ieBit ie), .wait]) = _ :=
    step_wrAccess hb rfl
  refine ⟨_, (run_operandWrites hb hp 1).trans (run_succ_of_step hctrl 0), ?_⟩
  have hwrite : (s.withOperands c [.wait]).writeReg .ctrl (1 ||| ieBit ie) = _ :=
    State.writeCtrl_start hb hstart
  have hstored (events : List HostEvent) :
      (s.withOperands c events).stored .ctrl (1 ||| ieBit ie) [.wait] =
        ((s.withOperands c [.wait]).writeReg .ctrl (1 ||| ieBit ie)).respond .accepted := rfl
  rw [hstored, hwrite]
  exact ⟨rfl, rfl, hie, ⟨rfl, rfl, rfl, rfl, rfl⟩, rfl, rfl, rfl, rfl⟩

end Sys2Proof.Machine
end

section
/-! PROOF. A running command completes (R43, R334): a step that is not the completion step takes
one of the host accesses that may still come, and leaves the rest of the queue. -/

namespace Sys2Proof.Machine

/-- Settles O4: the completion step fetches the latched word and runs what it decodes to. -/
theorem stepRunsTheLatchedCommand : Obligations.StepRunsTheLatchedCommand := by
  intro s i hdue hi
  rw [step, if_pos hdue, State.complete, hi]

/-- The completion step leads to DONE or ERROR. -/
theorem step_ends_of_due {s : State} (hdue : s.completionDue = true) :
    ∃ t, step s = .next t ∧ (t.engine = .done ∨ t.engine = .error) := by
  have hstep : step s = s.complete := if_pos hdue
  rcases complete_cases s with ⟨_, _, hc⟩ | ⟨i, _, hc⟩
  · exact ⟨_, hstep.trans hc, .inr (State.commitError_engine _ _)⟩
  · refine ⟨_, hstep.trans hc, ?_⟩
    rcases commit_engine s (s.execute i (commandFunction s i)) with
      ⟨_, hdone, _⟩ | ⟨_, _, herror, _⟩
    · exact .inl hdone
    · exact .inr herror

/-- What a host access leaves alone whatever it is: the queue and the count of accesses left. -/
structure SameQueue (s t : State) : Prop where
  pending : t.pending = s.pending
  waitLeft : t.waitLeft = s.waitLeft

theorem hostRead_sameQueue (s : State) (off width : Nat) : SameQueue s (s.hostRead off width) := by
  unfold State.hostRead
  split
  · split
    · exact ⟨rfl, rfl⟩
    · exact ⟨rfl, rfl⟩
    · next a _ =>
      rcases readOutByte_cases s a with ⟨_, _, he⟩ | ⟨_, he⟩ <;> rw [he] <;> exact ⟨rfl, rfl⟩
    · exact ⟨rfl, rfl⟩
  · exact ⟨rfl, rfl⟩

/-- While BUSY a write changes nothing but IE (R332), so it keeps STATE and the parameters too. -/
theorem hostWrite_busy_frame {s : State} (hb : s.engine = .busy) (off width : Nat) (v : Word) :
    SameQueue s (s.hostWrite off width v) ∧ (s.hostWrite off width v).engine = .busy ∧
      (s.hostWrite off width v).params = s.params := by
  rcases hostWrite_cases s off width v with ⟨_, hw⟩ | ⟨hacc, _⟩
  · rw [hw]
    exact ⟨⟨rfl, rfl⟩, hb, rfl⟩
  · rw [State.hostWrite_busy v hb hacc]
    split_ifs <;> exact ⟨⟨rfl, rfl⟩, hb, rfl⟩

/-- While BUSY the arrival of an access takes one off the count (R43). -/
theorem State.arrive_busy {s : State} (hb : s.engine = .busy) (rest : List HostEvent) :
    s.arrive rest = { s with pending := rest, waitLeft := s.waitLeft - 1 } := if_pos hb

/-- A step of a BUSY machine that is not yet due: still BUSY, with one access fewer to come. -/
structure Waits (s t : State) : Prop where
  engine : t.engine = .busy
  params : t.params = s.params
  waitLeft : t.waitLeft = s.waitLeft - 1
  pending : ∀ e ∈ t.pending, e ∈ s.pending

theorem hostStep_waits {s : State} (hb : s.engine = .busy) (hpending : s.pending ≠ [])
    (horderly : ∀ e ∈ s.pending, orderlyEvent s e = true) :
    ∃ t, s.hostStep = .next t ∧ Waits s t := by
  obtain ⟨e, rest, hp⟩ := List.exists_cons_of_ne_nil hpending
  have he : orderlyEvent s e = true := horderly e (by simp [hp])
  have hrest : ∀ x ∈ rest, x ∈ s.pending := fun x hx => by simp [hp, hx]
  cases e with
  | reset => cases he
  | wait =>
    refine ⟨s.tick.respond (.data s.statusWord), by simp [State.hostStep, hp, hb], ?_⟩
    have htick : s.tick = { s with waitLeft := s.waitLeft - 1 } := if_pos hb
    rw [htick]
    exact ⟨hb, rfl, rfl, fun _ hx => hx⟩
  | read addr width =>
    have hin : s.inWindow addr = true := he
    refine ⟨(s.arrive rest).hostRead (addr - s.params.base) width,
      by simp [State.hostStep, State.arrive, hp, hin], ?_⟩
    rw [State.arrive_busy hb]
    obtain ⟨hsame, _⟩ := hostRead_spec { s with pending := rest, waitLeft := s.waitLeft - 1 }
      (addr - s.params.base) width
    obtain ⟨hpend, hwait⟩ := hostRead_sameQueue
      { s with pending := rest, waitLeft := s.waitLeft - 1 } (addr - s.params.base) width
    exact ⟨hsame.engine.trans hb, hsame.params, hwait,
      fun x hx => hrest x (by rw [hpend] at hx; exact hx)⟩
  | write addr width v =>
    have hin : s.inWindow addr = true := he
    refine ⟨(s.arrive rest).hostWrite (addr - s.params.base) width v,
      by simp [State.hostStep, State.arrive, hp, hin], ?_⟩
    rw [State.arrive_busy hb]
    obtain ⟨⟨hpend, hwait⟩, hengine, hparams⟩ := hostWrite_busy_frame
      (s := { s with pending := rest, waitLeft := s.waitLeft - 1 }) hb (addr - s.params.base)
      width v
    exact ⟨hengine, hparams, hwait, fun x hx => hrest x (by rw [hpend] at hx; exact hx)⟩

/-- What is orderly depends on the parameters alone. -/
theorem orderlyEvent_congr {s t : State} (h : t.params = s.params) (e : HostEvent) :
    orderlyEvent t e = orderlyEvent s e := by
  cases e <;> simp only [orderlyEvent, State.inWindow, h]

/-- With `n` accesses left at most `n + 1` steps end the command. -/
theorem run_completes (n : Nat) {s : State} (hn : s.waitLeft = n) (hb : s.engine = .busy)
    (horderly : ∀ e ∈ s.pending, orderlyEvent s e = true) :
    ∃ (k : Nat) (t : State), k ≤ n + 1 ∧ Host.Core.run Sys2Proof.core k s = .next t ∧
      (t.engine = .done ∨ t.engine = .error) := by
  induction n generalizing s with
  | zero =>
    obtain ⟨t, hstep, hended⟩ := step_ends_of_due ((completionDue_iff s).2 ⟨hb, .inr hn⟩)
    exact ⟨1, t, le_rfl, run_succ_of_step hstep 0, hended⟩
  | succ n ih =>
    cases hdue : s.completionDue with
    | true =>
      obtain ⟨t, hstep, hended⟩ := step_ends_of_due hdue
      exact ⟨1, t, by omega, run_succ_of_step hstep 0, hended⟩
    | false =>
      have hpending : s.pending ≠ [] := fun hnil => by
        simp [(completionDue_iff s).2 ⟨hb, .inl hnil⟩] at hdue
      obtain ⟨u, hstep, hwaits⟩ := hostStep_waits hb hpending horderly
      obtain ⟨k, t, hk, hrun, hended⟩ := ih (s := u) (by rw [hwaits.waitLeft]; omega)
        hwaits.engine fun e he => by
          rw [orderlyEvent_congr hwaits.params]
          exact horderly e (hwaits.pending e he)
      exact ⟨k + 1, t, by omega,
        (run_succ_of_step ((step_of_not_due hdue).trans hstep) k).trans hrun, hended⟩

/-- Settles O19: by induction on the accesses that may still come. -/
theorem runningCommandCompletes : Obligations.RunningCommandCompletes :=
  fun s hb horderly => run_completes s.waitLeft rfl hb horderly

end Sys2Proof.Machine
end

section
/-! PROOF. How a command ends (R113 to R115): which of the framework's outcomes a command takes,
given what its argument checks and its function answer. -/

namespace Sys2Proof.Machine

/-! ### The argument checks -/

theorem needsVersion_eq_usesVersion (i : Instr) : needsVersion i = i.usesVersion := by
  cases i <;> rfl

theorem opcode_eq_valDec_iff (i : Instr) : opcode i = 0x20 ↔ i.usesOffset = true := by
  cases i <;> simp [opcode, Instr.usesOffset]

/-- The checks of R114 on the operands that a command uses. -/
theorem checkArgs_eq_ok_iff (s : State) (i : Instr) :
    s.checkArgs i = .ok () ↔
      s.latched.inLen.toNat ≤ s.params.inBufSize ∧
      (i.usesOffset = true → s.latched.inOff.toNat ≤ s.latched.inLen.toNat) ∧
      (i.usesVersion = true → s.version.toNat < 32) := by
  rw [checkArgs_ok_iff, opcode_eq_valDec_iff, needsVersion_eq_usesVersion]

/-- A command that uses neither VERSION nor IN_OFF is checked on its length alone. -/
theorem checkArgs_of_length {s : State} {i : Instr} (ho : i.usesOffset = false)
    (hv : i.usesVersion = false) (h : s.latched.inLen.toNat ≤ s.params.inBufSize) :
    s.checkArgs i = .ok () := by
  simp [checkArgs_eq_ok_iff, ho, hv, h]

theorem checkArgs_of_version {s : State} {i : Instr} (ho : i.usesOffset = false)
    (hv : s.version.toNat < 32) (h : s.latched.inLen.toNat ≤ s.params.inBufSize) :
    s.checkArgs i = .ok () := by
  simp [checkArgs_eq_ok_iff, ho, hv, h]

theorem checkArgs_valDec {s : State} (cap : Bool)
    (h : s.latched.inLen.toNat ≤ s.params.inBufSize)
    (hoff : s.latched.inOff.toNat ≤ s.latched.inLen.toNat) :
    s.checkArgs (.valDec cap) = .ok () := by
  simp [checkArgs_eq_ok_iff, Instr.usesVersion, h, hoff]

/-- VERSION is the low byte of ARG (R81). -/
theorem State.version_toNat (s : State) : s.version.toNat = s.latched.arg.toNat % 256 := by
  rw [State.version, BitVec.extractLsb'_toNat, Nat.shiftRight_zero]

/-! ### The outcomes of a command -/

section Outcomes
variable {s : State} {i : Instr}

theorem exec_fails_args (h : s.checkArgs i = .error .badArgument) :
    ∃ t, exec i s = .next t ∧ FailedWith s t .badArgument := by
  refine ⟨_, exec_eq i s, ?_⟩
  simp only [State.execute, h, commit_error]
  exact commitError_failedWith s _

theorem exec_fails {e : CmdError} (hargs : s.checkArgs i = .ok ())
    (hf : commandFunction s i s.input = .error e) :
    ∃ t, exec i s = .next t ∧ FailedWith s t e := by
  refine ⟨_, exec_eq i s, ?_⟩
  simp only [State.execute, hargs, hf, commit_error]
  exact commitError_failedWith s _

theorem exec_overflows {r : CmdResult} (hargs : s.checkArgs i = .ok ())
    (hf : commandFunction s i s.input = .ok r) (hsize : s.params.outBufSize < resultSize r) :
    ∃ t, exec i s = .next t ∧ FailedWith s t .outputOverflow := by
  refine ⟨_, exec_eq i s, ?_⟩
  simp only [State.execute, hargs, hf, if_pos hsize, commit_error]
  exact commitError_failedWith s _

theorem exec_commits {r : CmdResult} (hargs : s.checkArgs i = .ok ())
    (hf : commandFunction s i s.input = .ok r) (hsize : resultSize r ≤ s.params.outBufSize) :
    exec i s = .next (s.commit (.ok r)) := by
  rw [exec_eq]
  simp only [State.execute, hargs, hf, if_neg (Nat.not_lt.2 hsize)]

theorem exec_doneBytes {out : Bytes} (hlegal : s.params.legal) (hargs : s.checkArgs i = .ok ())
    (hf : commandFunction s i s.input = .ok (.bytes out))
    (hsize : out.length ≤ s.params.outBufSize) :
    ∃ t, exec i s = .next t ∧ DoneBytes s t out := by
  have hout := hlegal.2.1.2
  exact ⟨_, exec_commits hargs hf hsize, commitBytes_doneBytes s out (by omega)⟩

theorem exec_doneVersioned {out : Bytes} {v : Nat} (hlegal : s.params.legal)
    (hargs : s.checkArgs i = .ok ())
    (hf : commandFunction s i s.input = .ok (.versioned out v)) (hv : v < 256)
    (hsize : out.length ≤ s.params.outBufSize) :
    ∃ t, exec i s = .next t ∧ DoneVersioned s t out v := by
  have hout := hlegal.2.1.2
  exact ⟨_, exec_commits hargs hf hsize, commitVersioned_doneVersioned s out v (by omega) hv⟩

theorem exec_doneCheck (hargs : s.checkArgs i = .ok ())
    (hf : commandFunction s i s.input = .ok .check) : ∃ t, exec i s = .next t ∧ DoneCheck s t :=
  ⟨_, exec_commits hargs hf (Nat.zero_le _), commitCheck_doneCheck s⟩

/-- Where ERRCODE was clear, a code after the command is what Execute answered. -/
theorem execute_of_exec_err {t : State} {e : CmdError} (hs : s.err = none)
    (h : exec i s = .next t) (he : t.err = some e) :
    s.execute i (commandFunction s i) = .error e := by
  obtain rfl := exec_next h
  rcases commit_engine s (s.execute i (commandFunction s i)) with ⟨_, _, hkept⟩ | ⟨e', hx, _, herr⟩
  · exact nomatch (hkept.trans hs).symm.trans he
  · rw [hx, ← Option.some.inj (herr.symm.trans he)]

/-- Execute's errors, one by one (R113). -/
theorem execute_error_cases {e : CmdError} (h : s.execute i (commandFunction s i) = .error e) :
    (e = .badArgument ∧ s.checkArgs i = .error .badArgument) ∨
      (s.checkArgs i = .ok () ∧ commandFunction s i s.input = .error e) ∨
      (e = .outputOverflow ∧ s.checkArgs i = .ok () ∧
        ∃ r, commandFunction s i s.input = .ok r ∧ s.params.outBufSize < resultSize r) := by
  rcases execute_cases s i (commandFunction s i) with
    ⟨hargs, hx⟩ | ⟨hargs, e', hf, hx⟩ | ⟨hargs, r, hf, hsize, hx⟩ | ⟨_, r, _, _, hx⟩ <;>
    rw [hx] at h <;> cases h
  · exact .inl ⟨rfl, hargs⟩
  · exact .inr (.inl ⟨hargs, hf⟩)
  · exact .inr (.inr ⟨rfl, hargs, r, hf, hsize⟩)

end Outcomes

/-- Settles O20: the only commit that ends in ERROR is that of an error. -/
theorem failureLeavesOnlyTheCode : Obligations.FailureLeavesOnlyTheCode := by
  intro i s t hb h herror
  obtain rfl := exec_next h
  rcases commit_engine s (s.execute i (commandFunction s i)) with ⟨_, hdone, _⟩ | ⟨e, hx, _, _⟩
  · exact nomatch hdone.symm.trans herror
  · rw [hx, commit_error]
    refine ⟨e, commitError_failedWith s e, rfl, fun hinv => ?_⟩
    obtain ⟨hclear, _⟩ := hinv.busyClear hb
    exact { hclear with outBuf := State.commitError_outBuf s e }

/-- Settles O23: each of the three failures fails the argument checks. -/
theorem argumentChecksComeFirst : Obligations.ArgumentChecksComeFirst := by
  intro i s _ hbad
  refine exec_fails_args ((checkArgs_cases s i).resolve_left fun hok => ?_)
  obtain ⟨hlen, hoff, hversion⟩ := (checkArgs_eq_ok_iff s i).1 hok
  rcases hbad with hbad | ⟨huse, hbad⟩ | ⟨huse, hbad⟩
  · omega
  · have := hoff huse
    omega
  · have := hversion huse
    rw [State.version_toNat] at this
    omega

end Sys2Proof.Machine
end

section
/-! PROOF. The lengths of Base58 and C32 texts (R138, R175), and the checksummed forms (R136,
R137, R167 to R175): what the decoders answer on a text whose digits are known, and how they can
fail. -/

namespace Sys2Proof.Machine

/-! ### Numbers of digits -/

theorem lead_le_length {α : Type} [DecidableEq α] (s : List α) (x : α) : lead s x ≤ s.length :=
  (List.takeWhile_prefix _).length_le

theorem ofDigits_lt {base : Nat} (hb : 2 ≤ base) {d : List Nat} (hd : ∀ v ∈ d, v < base) :
    ofDigits base d < base ^ d.length := by
  have hlt := Nat.ofDigits_lt_base_pow_length (b := base) (l := d.reverse) hb (by simpa using hd)
  rwa [List.length_reverse, ← ofDigits_eq_reverse] at hlt

/-- The leading zero bytes add nothing to the value (R100, R103). -/
theorem be_lt_of_lead (b : Bytes) : be b < 256 ^ (b.length - lead b 0) := by
  have hlt := be_lt (b.drop (lead b 0))
  rwa [be_drop_lead, List.length_drop] at hlt

/-- The first byte that is no zero counts in full. -/
theorem pow_le_be {b : Bytes} (h : lead b 0 < b.length) :
    256 ^ (b.length - lead b 0 - 1) ≤ be b := by
  obtain ⟨x, rest, hdrop⟩ := List.exists_cons_of_ne_nil
    (List.ne_nil_of_length_pos (l := b.drop (lead b 0)) (by rw [List.length_drop]; omega))
  have hx : x ≠ 0 := fun h0 => head?_drop_lead_ne b 0 (by rw [hdrop, h0, List.head?_cons])
  have hpos : 0 < x.toNat := Nat.pos_of_ne_zero fun h0 => hx (BitVec.eq_of_toNat_eq h0)
  have hlen : b.length - lead b 0 - 1 = rest.length := by
    rw [← List.length_drop, hdrop, List.length_cons, Nat.add_sub_cancel]
  rw [← be_drop_lead, hdrop, be_cons, hlen]
  exact (Nat.le_mul_of_pos_left _ hpos).trans (Nat.le_add_right _ _)

@[simp] theorem paddedDigits_length (base : Nat) (b : Bytes) :
    (paddedDigits base b).length = lead b 0 + (digits base (be b)).length := by
  simp [paddedDigits]

/-- Decoding does not lengthen: a digit is worth no more than a byte. -/
theorem paddedBytes_length_le {base : Nat} (hb : 2 ≤ base) (hle : base ≤ 256) {d : List Nat}
    (hd : ∀ v ∈ d, v < base) : (paddedBytes base d).length ≤ d.length := by
  have hdigits : (digits 256 (ofDigits base d)).length ≤ d.length - lead d 0 := by
    rw [digits_length_le_iff (by decide), ← ofDigits_drop_lead, ← List.length_drop]
    exact (ofDigits_lt hb fun v hv => hd v (List.mem_of_mem_drop hv)).trans_le
      (Nat.pow_le_pow_left hle _)
  have hlead := lead_le_length d 0
  rw [paddedBytes, List.length_append, List.length_replicate, bytesMin_length]
  omega

/-! ### C32 texts -/

theorem c32Encode_length (b : Bytes) :
    (c32Encode b).length = lead b 0 + (digits 32 (be b)).length := by
  rw [c32Encode_eq_map, List.length_map, paddedDigits_length]

/-- Eight bits a byte, five bits a digit. -/
theorem digits_thirtyTwo_length_le {n k : Nat} (h : n < 256 ^ k) :
    (digits 32 n).length ≤ (8 * k + 4) / 5 := by
  rw [digits_length_le_iff (by decide)]
  calc n < 256 ^ k := h
    _ = 2 ^ (8 * k) := (pow_mul 2 8 k).symm
    _ ≤ 2 ^ (5 * ((8 * k + 4) / 5)) := Nat.pow_le_pow_right (by decide) (by omega)
    _ = 32 ^ ((8 * k + 4) / 5) := pow_mul 2 5 _

theorem c32Encode_length_le_of_lead (b : Bytes) :
    (c32Encode b).length ≤ lead b 0 + (8 * (b.length - lead b 0) + 4) / 5 := by
  rw [c32Encode_length]
  exact Nat.add_le_add_left (digits_thirtyTwo_length_le (be_lt_of_lead b)) _

theorem c32Encode_length_le (b : Bytes) : (c32Encode b).length ≤ (8 * b.length + 4) / 5 := by
  have hle := c32Encode_length_le_of_lead b
  have hlead := lead_le_length b 0
  omega

/-- A byte that counts needs its digits: fewer than four digits hold fewer than four bytes. -/
theorem four_le_c32Encode_length {b : Bytes} (h : 4 ≤ b.length) : 4 ≤ (c32Encode b).length := by
  rw [c32Encode_length]
  by_contra hshort
  have hlead : lead b 0 < b.length := by omega
  have hlow := pow_le_be hlead
  have hhigh : be b < 32 ^ (3 - lead b 0) :=
    (digits_length_le_iff (by decide) _ _).1 (by omega)
  have hpow : 32 ^ (3 - lead b 0) ≤ 256 ^ (b.length - lead b 0 - 1) :=
    (Nat.pow_le_pow_left (by decide) _).trans (Nat.pow_le_pow_right (by decide) (by omega))
  omega

theorem c32CheckEncode_length_le (v : Byte) (p : Bytes) :
    (c32CheckEncode v p).length ≤ 1 + (8 * (p.length + 4) + 4) / 5 := by
  have hle := c32Encode_length_le (p ++ checksum (v :: p))
  rw [List.length_append, checksum_length] at hle
  rw [c32CheckEncode, List.length_cons]
  omega

/-- The version and at least four symbols for the checksum. -/
theorem five_le_c32CheckEncode_length (v : Byte) (p : Bytes) :
    5 ≤ (c32CheckEncode v p).length := by
  have hfour : 4 ≤ (c32Encode (p ++ checksum (v :: p))).length :=
    four_le_c32Encode_length (by rw [List.length_append, checksum_length]; omega)
  rw [c32CheckEncode, List.length_cons]
  omega

/-- Settles O40: a count of bits bounds the digits above, and the first byte that counts bounds them
below. -/
theorem c32LengthBounds : Obligations.C32LengthBounds := by
  refine ⟨fun b => ⟨c32Encode_length_le_of_lead b, ?_⟩, c32CheckEncode_length_le,
    fun _ => four_le_c32Encode_length⟩
  have hlead := lead_le_length b 0
  omega

/-! ### A checksum behind its payload -/

theorem take_sub_four {p c : Bytes} (hc : c.length = 4) :
    (p ++ c).take ((p ++ c).length - 4) = p := by
  rw [List.length_append, hc, Nat.add_sub_cancel, List.take_left]

theorem drop_sub_four {p c : Bytes} (hc : c.length = 4) :
    (p ++ c).drop ((p ++ c).length - 4) = c := by
  rw [List.length_append, hc, Nat.add_sub_cancel, List.drop_left]

/-! ### Base58Check -/

/-- Base58Check on a text that encodes `d`: the checks on `d`, in their order (R137). -/
theorem b58CheckDecode_b58Encode (d : Bytes) :
    b58CheckDecode (b58Encode d) =
      if d.length < 4 then .error .tooShort
      else if checksum (d.take (d.length - 4)) ≠ d.drop (d.length - 4) then
        .error .checksumMismatch
      else .ok (d.take (d.length - 4)) := by
  simp only [b58CheckDecode, b58Decode_b58Encode]

theorem b58CheckDecode_append (p : Bytes) {c : Bytes} (hc : c.length = 4) :
    b58CheckDecode (b58Encode (p ++ c)) =
      if checksum p ≠ c then .error .checksumMismatch else .ok p := by
  rw [b58CheckDecode_b58Encode, take_sub_four hc, drop_sub_four hc, if_neg]
  rw [List.length_append]
  omega

theorem b58Decode_error {s : Bytes} {e : CmdError} (h : b58Decode s = .error e) :
    e = .invalidCharacter := by
  cases hlookup : lookupAll b58Rom s with
  | none => exact (Except.error.inj ((b58Decode_of_lookupAll_none hlookup).symm.trans h)).symm
  | some d => exact nomatch (b58Decode_of_lookupAll hlookup).symm.trans h

theorem b58Decode_ok_length_le {s b : Bytes} (h : b58Decode s = .ok b) : b.length ≤ s.length := by
  cases hlookup : lookupAll b58Rom s with
  | none => exact nomatch (b58Decode_of_lookupAll_none hlookup).symm.trans h
  | some d =>
    obtain rfl := Except.ok.inj ((b58Decode_of_lookupAll hlookup).symm.trans h)
    rw [← lookupAll_length hlookup]
    exact paddedBytes_length_le (by decide) (by decide)
      ((lookupAll_b58Rom_eq_some_iff _ _).1 hlookup).1

/-- Everything Base58Check decoding can answer (R137). -/
theorem b58CheckDecode_cases (s : Bytes) :
    (∃ e ∈ [CmdError.invalidCharacter, .tooShort, .checksumMismatch],
        b58CheckDecode s = .error e) ∨
      ∃ p, b58CheckDecode s = .ok p ∧ p.length ≤ s.length := by
  cases h : b58Decode s with
  | error e => exact .inl ⟨e, by simp [b58Decode_error h], by simp only [b58CheckDecode, h]⟩
  | ok d =>
    rw [← b58Encode_of_b58Decode h, b58CheckDecode_b58Encode, b58Encode_of_b58Decode h]
    split_ifs
    · exact .inl ⟨_, by simp, rfl⟩
    · exact .inl ⟨_, by simp, rfl⟩
    · exact .inr ⟨_, rfl, (List.length_take_le' _ _).trans (b58Decode_ok_length_le h)⟩

/-! ### C32Check -/

/-- C32 decodes every spelling of an encoding (R163, R166). -/
theorem c32Decode_of_canonical {s b : Bytes} (hs : ∀ c ∈ s, (c32Rom c).isSome = true)
    (h : s.map c32Canonical = c32Encode b) : c32Decode s = .ok b := by
  have hnone : lookupAll c32Rom s ≠ none := fun hnone => by
    obtain ⟨c, hc, hrom⟩ := (lookupAll_eq_none s).1 hnone
    simpa [hrom] using hs c hc
  obtain ⟨d, hd⟩ := Option.ne_none_iff_exists'.1 hnone
  have hok : c32Decode s = .ok (paddedBytes 32 d) := (c32Decode_eq_ok_iff s _).2 ⟨d, hd, rfl⟩
  have hsame : c32Encode (paddedBytes 32 d) = c32Encode b := (c32Encode_of_c32Decode hok).trans h
  have hinj := (c32Decode_c32Encode (paddedBytes 32 d)).symm.trans
    ((congrArg c32Decode hsame).trans (c32Decode_c32Encode b))
  rw [hok, hinj]

theorem c32Decode_error {s : Bytes} {e : CmdError} (h : c32Decode s = .error e) :
    e = .invalidCharacter := by
  rw [c32Decode_eq_elim] at h
  cases hlookup : lookupAll c32Rom s <;> simp [hlookup] at h
  exact h.symm

theorem c32Decode_of_foreign {s : Bytes} (h : ∃ c ∈ s, c32Rom c = none) :
    c32Decode s = .error .invalidCharacter := by
  rw [c32Decode_eq_elim, (lookupAll_eq_none s).2 h, Option.elim_none]

theorem c32Decode_ok_length_le {s b : Bytes} (h : c32Decode s = .ok b) : b.length ≤ s.length := by
  obtain ⟨d, hd, rfl⟩ := (c32Decode_eq_ok_iff s b).1 h
  rw [← lookupAll_length hd]
  exact paddedBytes_length_le (by decide) (by decide) (lookupAll_c32Rom_lt hd)

/-- The checks on the version digit and the decoded body, in their order (R170). -/
def c32CheckBody (v : Nat) (body : Bytes) : Except CmdError (Nat × Bytes) :=
  if body.length < 4 then .error .tooShort
  else if checksum (BitVec.ofNat 8 v :: body.take (body.length - 4)) ≠
      body.drop (body.length - 4) then .error .checksumMismatch
  else .ok (v, body.take (body.length - 4))

theorem c32CheckBody_append (v : Nat) (p : Bytes) {c : Bytes} (hc : c.length = 4) :
    c32CheckBody v (p ++ c) =
      if checksum (BitVec.ofNat 8 v :: p) ≠ c then .error .checksumMismatch else .ok (v, p) := by
  rw [c32CheckBody, take_sub_four hc, drop_sub_four hc, if_neg]
  rw [List.length_append]
  omega

theorem c32CheckDecode_of_short {s : Bytes} (h : s.length < 2) :
    c32CheckDecode s = .error .tooShort := by
  rw [c32CheckDecode, if_pos h]

theorem c32CheckDecode_of_foreign {s : Bytes} (hlen : 2 ≤ s.length)
    (h : ∃ c ∈ s, c32Rom c = none) : c32CheckDecode s = .error .invalidCharacter := by
  rw [c32CheckDecode, if_neg (Nat.not_lt.2 hlen), (lookupAll_eq_none s).2 h]

/-- C32Check on a text of symbols: the first is the version's digit, the others are the body. -/
theorem c32CheckDecode_cons {first : Byte} {rest body : Bytes} {v : Nat} (hrest : rest ≠ [])
    (hv : c32Rom first = some v) (hbody : c32Decode rest = .ok body) :
    c32CheckDecode (first :: rest) = c32CheckBody v body := by
  obtain ⟨d, hd, _⟩ := (c32Decode_eq_ok_iff rest body).1 hbody
  have hlookup : lookupAll c32Rom (first :: rest) = some (v :: d) := by
    rw [lookupAll_cons, hv, hd]
    rfl
  have hlen : ¬ (first :: rest).length < 2 := by
    have := List.length_pos_iff.2 hrest
    rw [List.length_cons]
    omega
  rw [c32CheckDecode, if_neg hlen, hlookup]
  simp only [List.drop_one, List.tail_cons, hbody, List.headD_cons]
  rfl

/-- C32Check decodes every spelling of a checksummed encoding (R170, R175). -/
theorem c32CheckDecode_of_canonical {v : Byte} {p text : Bytes} (hv : v.toNat < 32)
    (hs : ∀ c ∈ text, (c32Rom c).isSome = true)
    (h : text.map c32Canonical = c32CheckEncode v p) :
    c32CheckDecode text = .ok (v.toNat, p) ∧ 5 ≤ text.length := by
  have hlen : 5 ≤ text.length := by
    rw [← List.length_map c32Canonical, h]
    exact five_le_c32CheckEncode_length v p
  refine ⟨?_, hlen⟩
  obtain ⟨first, rest, rfl⟩ := List.exists_cons_of_ne_nil (List.ne_nil_of_length_pos
    (Nat.lt_of_lt_of_le (by decide) hlen))
  obtain ⟨hfirst, hrest⟩ := List.forall_mem_cons.1 hs
  rw [List.map_cons, c32CheckEncode, List.cons.injEq] at h
  obtain ⟨hsymbol, hcanonical⟩ := h
  obtain ⟨w, hw⟩ := Option.isSome_iff_exists.1 hfirst
  have hdigit : w = v.toNat := by
    rw [c32Canonical, hw, Option.getD_some] at hsymbol
    have hrom := c32Rom_c32Symbol ((c32Rom_eq_some_iff first w).1 hw).1
    rw [hsymbol, c32Rom_c32Symbol hv] at hrom
    exact (Option.some.inj hrom).symm
  have hbody : c32Decode rest = .ok (p ++ checksum (v :: p)) :=
    c32Decode_of_canonical hrest hcanonical
  have hne : rest ≠ [] := fun hnil => by simp [hnil] at hlen
  rw [c32CheckDecode_cons hne hw hbody, c32CheckBody_append _ _ (checksum_length _), hdigit,
    BitVec.ofNat_toNat, BitVec.setWidth_eq, if_neg (not_not.2 rfl)]

/-- A symbol is its own canonical spelling. -/
theorem c32Canonical_c32Symbol {v : Nat} (hv : v < 32) :
    c32Canonical (c32Symbol v) = c32Symbol v := by
  rw [c32Canonical, c32Rom_c32Symbol hv, Option.getD_some]

/-- The checksummed encoding as a digit list: the version in front of the digits of the rest. -/
theorem c32CheckEncode_eq_map (v : Byte) (p : Bytes) :
    c32CheckEncode v p =
      (v.toNat :: paddedDigits 32 (p ++ checksum (v :: p))).map c32Symbol := by
  rw [c32CheckEncode, c32Encode_eq_map, List.map_cons]

/-- Settles O39: the checksummed encoding is one of its own spellings. -/
theorem c32ChecksummedRoundTrips : Obligations.C32ChecksummedRoundTrips := by
  intro v p hv
  have hdigits : ∀ w ∈ v.toNat :: paddedDigits 32 (p ++ checksum (v :: p)), w < 32 :=
    List.forall_mem_cons.2 ⟨hv, paddedDigits_lt (by decide) _⟩
  have hs : ∀ c ∈ c32CheckEncode v p, (c32Rom c).isSome = true := by
    rw [c32CheckEncode_eq_map, List.forall_mem_map]
    exact fun w hw => by rw [c32Rom_c32Symbol (hdigits w hw), Option.isSome_some]
  have hcanonical : (c32CheckEncode v p).map c32Canonical = c32CheckEncode v p := by
    rw [c32CheckEncode_eq_map, List.map_map]
    exact List.map_congr_left fun w hw => c32Canonical_c32Symbol (hdigits w hw)
  obtain ⟨hdecode, hlen⟩ := c32CheckDecode_of_canonical hv hs hcanonical
  refine ⟨hdecode, ?_⟩
  rw [c32AddressDecode, c32AddressEncode, if_neg (by rw [List.length_cons]; omega), List.drop_one,
    List.tail_cons, hdecode]

/-- Everything C32Check decoding can answer (R170). -/
theorem c32CheckDecode_cases (s : Bytes) :
    (∃ e ∈ [CmdError.invalidCharacter, .tooShort, .checksumMismatch],
        c32CheckDecode s = .error e) ∨
      ∃ v p, c32CheckDecode s = .ok (v, p) ∧ v < 32 ∧ p.length ≤ s.length := by
  by_cases hshort : s.length < 2
  · exact .inl ⟨_, by simp, c32CheckDecode_of_short hshort⟩
  by_cases hforeign : ∃ c ∈ s, c32Rom c = none
  · exact .inl ⟨_, by simp, c32CheckDecode_of_foreign (by omega) hforeign⟩
  obtain ⟨first, rest, rfl⟩ := List.exists_cons_of_ne_nil (List.ne_nil_of_length_pos
    (l := s) (by omega))
  have hrest : rest ≠ [] := fun hnil => by simp [hnil] at hshort
  obtain ⟨v, hv⟩ := Option.ne_none_iff_exists'.1 fun hnone =>
    hforeign ⟨first, List.mem_cons_self, hnone⟩
  cases hbody : c32Decode rest with
  | error e =>
    rw [c32Decode_eq_elim] at hbody
    cases hlookup : lookupAll c32Rom rest with
    | none =>
      obtain ⟨c, hc, hnone⟩ := (lookupAll_eq_none rest).1 hlookup
      exact absurd ⟨c, List.mem_cons_of_mem _ hc, hnone⟩ hforeign
    | some d => simp [hlookup] at hbody
  | ok body =>
    rw [c32CheckDecode_cons hrest hv hbody, c32CheckBody]
    have hlen := c32Decode_ok_length_le hbody
    split_ifs
    · exact .inl ⟨_, by simp, rfl⟩
    · exact .inl ⟨_, by simp, rfl⟩
    · refine .inr ⟨v, _, rfl, ((c32Rom_eq_some_iff first v).1 hv).1, ?_⟩
      rw [List.length_take, List.length_cons]
      omega

/-- Everything the address form's decoding can answer (R172). -/
theorem c32AddressDecode_cases (s : Bytes) :
    (∃ e ∈ [CmdError.invalidCharacter, .tooShort, .checksumMismatch],
        c32AddressDecode s = .error e) ∨
      ∃ v p, c32AddressDecode s = .ok (v, p) ∧ v < 32 ∧ p.length ≤ s.length := by
  rw [c32AddressDecode]
  split_ifs
  · exact .inl ⟨_, by simp, rfl⟩
  · refine (c32CheckDecode_cases (s.drop 1)).imp_right ?_
    rintro ⟨v, p, hdecode, hv, hlen⟩
    rw [List.length_drop] at hlen
    exact ⟨v, p, hdecode, hv, by omega⟩

end Sys2Proof.Machine
end

section
/-! PROOF. The text commands (R130 to R138, R160 to R175, R205 to R209): each is its function on
IN, run through the framework. -/

namespace Sys2Proof.Machine

/-! ### The encoders -/

/-- The input with the checksum of R167 behind it, which the three C32 check encoders pack. -/
theorem c32CheckEncode_eq_alg (v : Byte) (p : Bytes) :
    c32CheckEncode v p = c32Symbol v.toNat :: c32EncodeAlg (p ++ checksum (v :: p)) := by
  rw [c32CheckEncode, c32EncodeAlg_eq_c32Encode]

/-- The text of each encoder, by the byte-array algorithms (R132, R136, R162, R168, R169, R173). -/
theorem commandFunction_encoders (s : State) :
    commandFunction s .b58Enc s.input = .ok (.bytes (b58EncodeAlg s.input)) ∧
    commandFunction s .b58chkEnc s.input =
      .ok (.bytes (b58EncodeAlg (s.input ++ checksum s.input))) ∧
    commandFunction s .c32Enc s.input = .ok (.bytes (c32EncodeAlg s.input)) := by
  rw [b58EncodeAlg_eq_b58Encode, b58EncodeAlg_eq_b58Encode, c32EncodeAlg_eq_c32Encode]
  exact ⟨rfl, rfl, rfl⟩

theorem commandFunction_checkEncoders (s : State) {text : Bytes}
    (h : text = c32Symbol s.version.toNat ::
      c32EncodeAlg (s.input ++ checksum (s.version :: s.input))) :
    commandFunction s .c32chkEnc s.input = .ok (.bytes text) ∧
    commandFunction s .c32chkEncP s.input = .ok (.bytes (s.prefixByte :: text)) ∧
    commandFunction s .c32addrEnc s.input = .ok (.bytes (0x53 :: text)) := by
  rw [← c32CheckEncode_eq_alg] at h
  subst h
  exact ⟨rfl, rfl, rfl⟩

/-- Settles O41: each encoder's text is its algorithm's. -/
theorem plainEncodersComplete : Obligations.PlainEncodersComplete := by
  intro s hlegal hlen
  obtain ⟨hb58, hb58chk, hc32⟩ := commandFunction_encoders s
  exact ⟨exec_doneBytes hlegal (checkArgs_of_length rfl rfl hlen) hb58,
    exec_doneBytes hlegal (checkArgs_of_length rfl rfl hlen) hb58chk,
    exec_doneBytes hlegal (checkArgs_of_length rfl rfl hlen) hc32⟩

/-- Settles O44: the version passes the argument check, and the text is the algorithm's. -/
theorem c32CheckEncodersComplete : Obligations.C32CheckEncodersComplete := by
  rintro s _ _ text hlegal hlen rfl hv rfl htext
  obtain ⟨henc, hencP, haddr⟩ := commandFunction_checkEncoders s htext
  exact ⟨exec_doneBytes hlegal (checkArgs_of_version rfl hv hlen) henc, fun hsize =>
    ⟨exec_doneBytes hlegal (checkArgs_of_version rfl hv hlen) hencP hsize,
      exec_doneBytes hlegal (checkArgs_of_version rfl hv hlen) haddr hsize⟩⟩

/-- Settles O25: the text is longer than OUT_BUF, which the framework finds before it commits. -/
theorem encodersOverflow : Obligations.EncodersOverflow := by
  intro s _ hlen
  obtain ⟨hb58, hb58chk, hc32⟩ := commandFunction_encoders s
  obtain ⟨henc, hencP, haddr⟩ := commandFunction_checkEncoders s rfl
  refine ⟨exec_overflows (checkArgs_of_length rfl rfl hlen) hb58,
    exec_overflows (checkArgs_of_length rfl rfl hlen) hb58chk,
    exec_overflows (checkArgs_of_length rfl rfl hlen) hc32,
    fun hv => exec_overflows (checkArgs_of_version rfl hv hlen) henc, fun hv hsize => ?_⟩
  obtain ⟨t, ht, hft⟩ := exec_overflows (checkArgs_of_version rfl hv hlen) hencP hsize
  obtain ⟨u, hu, hfu⟩ := exec_overflows (checkArgs_of_version rfl hv hlen) haddr hsize
  exact ⟨t, u, ht, hft, hu, hfu⟩

/-! ### The decoders -/

/-- Settles O42: decoding inverts encoding, and for C32 any spelling of one. -/
theorem plainDecodersComplete : Obligations.PlainDecodersComplete := by
  intro s out hlegal hlen hsize
  refine ⟨fun hin => ?_, fun hs hin => ?_⟩
  · have hf : commandFunction s .b58Dec s.input = .ok (.bytes out) := by
      rw [commandFunction, fB58Dec, hin, b58Decode_b58Encode, Except.map]
    exact exec_doneBytes hlegal (checkArgs_of_length rfl rfl hlen) hf hsize
  · have hf : commandFunction s .c32Dec s.input = .ok (.bytes out) := by
      rw [commandFunction, fC32Dec, c32Decode_of_canonical hs hin, Except.map]
    exact exec_doneBytes hlegal (checkArgs_of_length rfl rfl hlen) hf hsize

/-- Settles O43: the text encodes the payload and its own checksum. -/
theorem base58CheckDecoderCompletes : Obligations.Base58CheckDecoderCompletes := by
  intro s p hlegal hlen hsize hin
  have hf : commandFunction s .b58chkDec s.input = .ok (.bytes p) := by
    rw [commandFunction, fB58chkDec, hin, b58CheckDecode_append p (checksum_length p),
      if_neg (not_not.2 rfl), Except.map]
  exact exec_doneBytes hlegal (checkArgs_of_length rfl rfl hlen) hf hsize

/-- The address form is the checksummed form behind a tag byte (R172). -/
theorem c32AddressDecode_cons (tag : Byte) {text : Bytes} (h : 5 ≤ text.length) :
    c32AddressDecode (tag :: text) = c32CheckDecode text := by
  rw [c32AddressDecode, if_neg (by rw [List.length_cons]; omega), List.drop_one, List.tail_cons]

/-- Settles O45: C32Check decodes every spelling of a checksummed encoding. -/
theorem c32CheckDecodersComplete : Obligations.C32CheckDecodersComplete := by
  intro s v p text hlegal hlen hsize hv hs htext
  obtain ⟨hdecode, hfive⟩ := c32CheckDecode_of_canonical hv hs htext
  refine ⟨fun hin => ?_, fun tag hin => ?_⟩
  · have hf : commandFunction s .c32chkDec s.input = .ok (.versioned p v.toNat) := by
      rw [commandFunction, fC32chkDec, hin, hdecode, Except.map]
    exact exec_doneVersioned hlegal (checkArgs_of_length rfl rfl hlen) hf v.isLt hsize
  · have hf : commandFunction s .c32addrDec s.input = .ok (.versioned p v.toNat) := by
      rw [commandFunction, fC32addrDec, hin, c32AddressDecode_cons tag hfive, hdecode, Except.map]
    exact exec_doneVersioned hlegal (checkArgs_of_length rfl rfl hlen) hf v.isLt hsize

theorem b58Decode_of_foreign {s : Bytes} (h : ∃ c ∈ s, c ∉ b58Alphabet) :
    b58Decode s = .error .invalidCharacter := by
  obtain ⟨c, hc, hforeign⟩ := h
  exact b58Decode_of_lookupAll_none
    ((lookupAll_eq_none s).2 ⟨c, hc, (b58Rom_eq_none_iff c).2 hforeign⟩)

/-- Settles O47: the lookup comes first in each of the three. -/
theorem plainDecodersRejectForeignBytes : Obligations.PlainDecodersRejectForeignBytes := by
  intro s _ hlen
  refine ⟨fun hforeign => ?_, fun hforeign => ?_⟩
  · have hdecode := b58Decode_of_foreign hforeign
    have hdec : commandFunction s .b58Dec s.input = .error .invalidCharacter := by
      rw [commandFunction, fB58Dec, hdecode, Except.map]
    have hchk : commandFunction s .b58chkDec s.input = .error .invalidCharacter := by
      simp only [commandFunction, fB58chkDec, b58CheckDecode, hdecode, Except.map]
    obtain ⟨t, ht, hft⟩ := exec_fails (checkArgs_of_length rfl rfl hlen) hdec
    obtain ⟨u, hu, hfu⟩ := exec_fails (checkArgs_of_length rfl rfl hlen) hchk
    exact ⟨t, u, ht, hft, hu, hfu⟩
  · have hnone : ∃ c ∈ s.input, c32Rom c = none := by
      obtain ⟨c, hc, hrows⟩ := hforeign
      exact ⟨c, hc, (c32Rom_eq_none_iff c).2 (by simpa using hrows)⟩
    have hdec : commandFunction s .c32Dec s.input = .error .invalidCharacter := by
      rw [commandFunction, fC32Dec, c32Decode_of_foreign hnone, Except.map]
    exact exec_fails (checkArgs_of_length rfl rfl hlen) hdec

/-! ### The order of the checksummed decoders' errors -/

/-- An error of C32Check on the text that C32CHK_DEC or C32ADDR_DEC reads ends the command. -/
theorem exec_c32Check_fails {s : State} {i : Instr} {text : Bytes} {e : CmdError}
    (hlen : s.latched.inLen.toNat ≤ s.params.inBufSize)
    (hi : (i = .c32chkDec ∧ s.input = text ∧ 2 ≤ text.length) ∨
      (i = .c32addrDec ∧ s.input.drop 1 = text ∧ 5 ≤ text.length))
    (he : c32CheckDecode text = .error e) : ∃ t, exec i s = .next t ∧ FailedWith s t e := by
  rcases hi with ⟨rfl, rfl, _⟩ | ⟨rfl, rfl, hfive⟩
  · refine exec_fails (checkArgs_of_length rfl rfl hlen) ?_
    rw [commandFunction, fC32chkDec, he, Except.map]
  · refine exec_fails (checkArgs_of_length rfl rfl hlen) ?_
    rw [List.length_drop] at hfive
    rw [commandFunction, fC32addrDec, c32AddressDecode, if_neg (by omega), he, Except.map]

/-- Settles O48: the conditions of each decoder in the order in which it checks them. -/
theorem checksumDecodersReportInOrder : Obligations.ChecksumDecodersReportInOrder := by
  intro s _ hlen
  refine ⟨fun d hin => ⟨fun hshort => ?_, ?_⟩, fun hshort => ?_, fun hshort => ?_,
    fun i text hi => ⟨fun hforeign => ?_, ?_⟩⟩
  · refine exec_fails (checkArgs_of_length rfl rfl hlen) ?_
    rw [commandFunction, fB58chkDec, hin, b58CheckDecode_b58Encode, if_pos hshort, Except.map]
  · rintro p c rfl hc hsum
    refine exec_fails (checkArgs_of_length rfl rfl hlen) ?_
    rw [commandFunction, fB58chkDec, hin, b58CheckDecode_append p hc, if_pos hsum, Except.map]
  · refine exec_fails (checkArgs_of_length rfl rfl hlen) ?_
    rw [commandFunction, fC32chkDec, c32CheckDecode_of_short hshort, Except.map]
  · refine exec_fails (checkArgs_of_length rfl rfl hlen) ?_
    rw [commandFunction, fC32addrDec, c32AddressDecode, if_pos hshort, Except.map]
  · have htwo : 2 ≤ text.length := by rcases hi with ⟨_, _, h⟩ | ⟨_, _, h⟩ <;> omega
    exact exec_c32Check_fails hlen hi (c32CheckDecode_of_foreign htwo hforeign)
  · rintro first rest body rfl hs hcanonical
    have htwo : 2 ≤ (first :: rest).length := by rcases hi with ⟨_, _, h⟩ | ⟨_, _, h⟩ <;> omega
    have hne : rest ≠ [] := fun hnil => by simp [hnil] at htwo
    obtain ⟨hfirst, hrest⟩ := List.forall_mem_cons.1 hs
    obtain ⟨v, hv⟩ := Option.isSome_iff_exists.1 hfirst
    have hdecode := c32CheckDecode_cons hne hv (c32Decode_of_canonical hrest hcanonical)
    refine ⟨fun hshort => exec_c32Check_fails hlen hi ?_, ?_⟩
    · rw [hdecode, c32CheckBody, if_pos hshort]
    · rintro p c rfl hc hsum
      rw [hv, Option.getD_some] at hsum
      exact exec_c32Check_fails hlen hi (by rw [hdecode, c32CheckBody_append v p hc, if_pos hsum])

/-! ### The name checks -/

theorem isOneOf_alphaChars_iff (b : Byte) : IsOneOf alphaChars b ↔ isAlpha b = true := by
  have hchars : alphaChars.toList.map Char.toNat =
      List.range' 0x41 26 ++ List.range' 0x61 26 := by decide
  have hmem : IsOneOf alphaChars b ↔ b.toNat ∈ alphaChars.toList.map Char.toNat := by
    rw [IsOneOf, List.mem_map]
  rw [hmem, hchars, List.mem_append, List.mem_range'_1, List.mem_range'_1]
  simp only [isAlpha, Bool.or_eq_true, Bool.and_eq_true, decide_eq_true_eq]
  omega

theorem isOneOf_digits_iff (b : Byte) : IsOneOf "0123456789" b ↔ isDigit b = true := by
  have hchars : "0123456789".toList.map Char.toNat = List.range' 0x30 10 := by decide
  have hmem : IsOneOf "0123456789" b ↔ b.toNat ∈ "0123456789".toList.map Char.toNat := by
    rw [IsOneOf, List.mem_map]
  rw [hmem, hchars, List.mem_range'_1]
  simp only [isDigit, Bool.and_eq_true, decide_eq_true_eq]
  omega

/-- Characters whose codes are those of a list of bytes. -/
theorem isOneOf_iff_mem {chars : String} {bytes : Bytes}
    (h : chars.toList.map Char.toNat = bytes.map BitVec.toNat) (b : Byte) :
    IsOneOf chars b ↔ b ∈ bytes := by
  have hmem : IsOneOf chars b ↔ b.toNat ∈ chars.toList.map Char.toNat := by
    rw [IsOneOf, List.mem_map]
  rw [hmem, h, List.mem_map_of_injective fun _ _ => BitVec.eq_of_toNat_eq]

theorem isCnRest_iff (b : Byte) :
    isCnRest b = true ↔
      IsOneOf alphaChars b ∨ IsOneOf "0123456789" b ∨ IsOneOf "-_!?+<>=/*" b := by
  rw [isOneOf_alphaChars_iff, isOneOf_digits_iff, isOneOf_iff_mem
    (bytes := [0x2D, 0x5F, 0x21, 0x3F, 0x2B, 0x3C, 0x3E, 0x3D, 0x2F, 0x2A]) (by decide)]
  simp only [isCnRest, Bool.or_eq_true, List.contains_iff_mem, or_assoc]

theorem isCtnRest_iff (b : Byte) :
    isCtnRest b = true ↔
      IsOneOf alphaChars b ∨ IsOneOf "0123456789" b ∨ IsOneOf "_-" b := by
  rw [isOneOf_alphaChars_iff, isOneOf_digits_iff,
    isOneOf_iff_mem (bytes := [0x5F, 0x2D]) (by decide)]
  simp only [isCtnRest, Bool.or_eq_true, List.contains_iff_mem, or_assoc]

theorem letterThen_iff (rest : Byte → Bool) (n : Bytes) :
    letterThen rest n = true ↔
      ∃ b tail, n = b :: tail ∧ IsOneOf alphaChars b ∧ ∀ c ∈ tail, rest c = true := by
  cases n with
  | nil => simp [letterThen]
  | cons b tail => simp [letterThen, isOneOf_alphaChars_iff]

/-- The operator names, byte for byte the characters of R205. -/
theorem mem_operatorNames_iff (n : Bytes) :
    n ∈ operatorNames ↔ ∃ op ∈ ["-", "+", "=", "/", "*", "<", ">", "<=", ">="],
      n = op.toList.map (fun c => BitVec.ofNat 8 c.toNat) := by
  have hnames : operatorNames = ["-", "+", "=", "/", "*", "<", ">", "<=", ">="].map
      (fun op => op.toList.map (fun c => BitVec.ofNat 8 c.toNat)) := by decide
  simp only [hnames, List.mem_map, eq_comm]

theorem clarityNameGrammar_iff (n : Bytes) : ClarityNameGrammar n ↔ isClarityName n = true := by
  simp only [ClarityNameGrammar, isClarityName, Bool.and_eq_true, Bool.or_eq_true,
    decide_eq_true_eq, List.contains_iff_mem, mem_operatorNames_iff, letterThen_iff, isCnRest_iff]
  exact Iff.rfl

theorem contractNameGrammar_iff (n : Bytes) : ContractNameGrammar n ↔ isContractName n = true := by
  have hname : "__transient".toList.map (fun c => BitVec.ofNat 8 c.toNat) = transientName := by
    decide
  simp only [ContractNameGrammar, isContractName, hname, Bool.and_eq_true, Bool.or_eq_true,
    decide_eq_true_eq, beq_iff_eq, letterThen_iff, isCtnRest_iff]

/-- Settles O46: the grammars are the checks that the two functions make. -/
theorem nameChecksDecideTheGrammars : Obligations.NameChecksDecideTheGrammars := by
  intro s _ hlen
  rw [clarityNameGrammar_iff, contractNameGrammar_iff]
  refine ⟨fun h => ?_, fun h => ?_, fun h => ?_, fun h => ?_⟩
  · exact exec_doneCheck (checkArgs_of_length rfl rfl hlen) (if_pos h)
  · exact exec_fails (checkArgs_of_length rfl rfl hlen) (if_neg h)
  · exact exec_doneCheck (checkArgs_of_length rfl rfl hlen) (if_pos h)
  · exact exec_fails (checkArgs_of_length rfl rfl hlen) (if_neg h)

end Sys2Proof.Machine
end

section
/-! PROOF. The errors of each command (R280, R281), and the commands whose output is bounded by
their input: OutputOverflow of a decoder means an OUT_BUF smaller than IN_BUF, and R138's sizes
rule it out for Base58. -/

namespace Sys2Proof.Machine

/-! ### The errors of the value decoder -/

/-- The errors R248 gives the value decoder. -/
def decoderErrors : List CmdError :=
  [.invalidCharacter, .oversizeDeclaration, .depthExceeded, .badTypePrefix, .invalidName,
    .truncatedInput]

theorem takeBytes_error_mem {inp : Bytes} {p n : Nat} {e : CmdError}
    (h : takeBytes inp p n = .error e) : e ∈ decoderErrors := by
  simp [(takeBytes_error h).1, decoderErrors]

theorem readName_error_mem {inp : Bytes} {p : Nat} {e : CmdError} (h : readName inp p = .error e) :
    e ∈ decoderErrors := by
  rcases readName_error h with rfl | rfl <;> simp [decoderErrors]

theorem readSize_error_mem {inp : Bytes} {p : Nat} {e : CmdError} (h : readSize inp p = .error e) :
    e ∈ decoderErrors := by
  rcases readSize_cases inp p with ⟨_, _, hx⟩ | ⟨_, _, hx⟩ | ⟨_, hx⟩ <;> rw [hx] at h <;>
    cases h <;> simp [decoderErrors]

theorem utf8Split_error {s : Bytes} {e : CmdError} (h : utf8Split s = .error e) :
    e = .invalidCharacter := by
  rw [utf8Split] at h
  split at h <;> cases h
  rfl

section Errors
variable {inp : Bytes} {child : Nat → Decoded}
  (hchild : ∀ p e, child p = .error e → e ∈ decoderErrors)
include hchild

theorem decodeItems_error_mem {c p : Nat} {e : CmdError} (h : decodeItems child c p = .error e) :
    e ∈ decoderErrors := by
  induction c generalizing p with
  | zero => cases h
  | succ c ih =>
    rw [decodeItems] at h
    split at h
    next hfails =>
      cases h
      exact hchild _ _ hfails
    next =>
      split at h
      next hrest =>
        cases h
        exact ih hrest
      next => cases h

theorem decodeEntries_error_mem {c p : Nat} {seen : List Bytes} {e : CmdError}
    (h : decodeEntries inp child c seen p = .error e) : e ∈ decoderErrors := by
  induction c generalizing p seen with
  | zero => cases h
  | succ c ih =>
    rw [decodeEntries] at h
    split at h
    next hname =>
      cases h
      exact readName_error_mem hname
    next =>
      split at h
      next =>
        cases h
        simp [decoderErrors]
      next =>
        split at h
        next hfails =>
          cases h
          exact hchild _ _ hfails
        next =>
          split at h
          next hrest =>
            cases h
            exact ih hrest
          next => cases h

theorem decodePayload_error_mem {t : TypePrefix} {p : Nat} {e : CmdError}
    (h : decodePayload inp child t p = .error e) : e ∈ decoderErrors := by
  cases t <;> simp only [decodePayload] at h
  case int | uint | standardPrincipal =>
    split at h <;> cases h
    next htake => exact takeBytes_error_mem htake
  case buffer | stringAscii =>
    split at h
    next hsize =>
      cases h
      exact readSize_error_mem hsize
    next =>
      split at h <;> cases h
      next htake => exact takeBytes_error_mem htake
  case stringUtf8 =>
    split at h
    next hsize =>
      cases h
      exact readSize_error_mem hsize
    next =>
      split at h
      next htake =>
        cases h
        exact takeBytes_error_mem htake
      next =>
        split at h <;> cases h
        next hsplit => simp [utf8Split_error hsplit, decoderErrors]
  case boolTrue | boolFalse | optionalNone => cases h
  case contractPrincipal =>
    split at h
    next htake =>
      cases h
      exact takeBytes_error_mem htake
    next =>
      split at h <;> cases h
      next hname => exact readName_error_mem hname
  case responseOk | responseErr | optionalSome =>
    split at h <;> cases h
    next hfails => exact hchild _ _ hfails
  case list =>
    split at h
    next hsize =>
      cases h
      exact readSize_error_mem hsize
    next =>
      split at h <;> cases h
      next hitems => exact decodeItems_error_mem hchild hitems
  case tuple =>
    split at h
    next hsize =>
      cases h
      exact readSize_error_mem hsize
    next =>
      split at h <;> cases h
      next hentries => exact decodeEntries_error_mem hchild hentries

end Errors

theorem decodeValue_error_mem {inp : Bytes} {levels d p : Nat} {e : CmdError}
    (h : decodeValue inp levels d p = .error e) : e ∈ decoderErrors := by
  induction levels generalizing d p e with
  | zero =>
    cases h
    simp [decoderErrors]
  | succ levels ih =>
    rw [decodeValue] at h
    split at h
    next htake =>
      cases h
      exact takeBytes_error_mem htake
    next =>
      split at h
      next =>
        cases h
        simp [decoderErrors]
      next =>
        split at h <;> cases h
        next hpayload => exact decodePayload_error_mem (fun p e h => ih h) hpayload

/-! ### The errors of each command's function -/

/-- The codes of R281 that a command's own function reports. -/
def functionErrors : Instr → List CmdError
  | .b58Enc | .b58chkEnc | .c32Enc | .c32chkEnc | .c32chkEncP | .c32addrEnc => []
  | .b58Dec | .c32Dec => [.invalidCharacter]
  | .b58chkDec | .c32chkDec | .c32addrDec => [.invalidCharacter, .tooShort, .checksumMismatch]
  | .valDec _ => decoderErrors
  | .cnCheck | .ctnCheck => [.invalidName]

theorem map_eq_error {α β : Type} {x : Except CmdError α} {f : α → β} {e : CmdError}
    (h : x.map f = .error e) : x = .error e := by
  cases x <;> cases h
  rfl

theorem commandFunction_error_mem {s : State} {i : Instr} {inp : Bytes} {e : CmdError}
    (h : commandFunction s i inp = .error e) : e ∈ functionErrors i := by
  cases i with
  | b58Enc | b58chkEnc | c32Enc | c32chkEnc | c32chkEncP | c32addrEnc => cases h
  | b58Dec => simp [b58Decode_error (map_eq_error h), functionErrors]
  | c32Dec => simp [c32Decode_error (map_eq_error h), functionErrors]
  | b58chkDec =>
    rcases b58CheckDecode_cases inp with ⟨e', hmem, he⟩ | ⟨p, hok, _⟩
    · exact Except.error.inj (he.symm.trans (map_eq_error h)) ▸ hmem
    · exact nomatch hok.symm.trans (map_eq_error h)
  | c32chkDec =>
    rcases c32CheckDecode_cases inp with ⟨e', hmem, he⟩ | ⟨v, p, hok, _⟩
    · exact Except.error.inj (he.symm.trans (map_eq_error h)) ▸ hmem
    · exact nomatch hok.symm.trans (map_eq_error h)
  | c32addrDec =>
    rcases c32AddressDecode_cases inp with ⟨e', hmem, he⟩ | ⟨v, p, hok, _⟩
    · exact Except.error.inj (he.symm.trans (map_eq_error h)) ▸ hmem
    · exact nomatch hok.symm.trans (map_eq_error h)
  | valDec cap =>
    rw [commandFunction, fValDec] at h
    split at h <;> cases h
    next hdecode => exact decodeValue_error_mem hdecode
  | cnCheck =>
    rw [commandFunction, fCnCheck] at h
    split_ifs at h
    cases h
    simp [functionErrors]
  | ctnCheck =>
    rw [commandFunction, fCtnCheck] at h
    split_ifs at h
    cases h
    simp [functionErrors]

/-- No function reports what the framework reports (R113, R114). -/
theorem frameworkErrors_not_mem (i : Instr) :
    CmdError.badCommand ∉ functionErrors i ∧ CmdError.badArgument ∉ functionErrors i ∧
      CmdError.outputOverflow ∉ functionErrors i := by
  cases i <;> decide +revert

theorem functionErrors_subset (i : Instr) : functionErrors i ⊆ errorsOf i := by
  cases i <;> decide +revert

/-! ### Outputs bounded by the input -/

/-- A decoder of the text codecs writes no more bytes than it reads. -/
theorem decoder_resultSize_le {s : State} {i : Instr} {inp : Bytes} {r : CmdResult}
    (hi : i ∈ [Instr.b58Dec, .c32Dec, .b58chkDec, .c32chkDec, .c32addrDec])
    (h : commandFunction s i inp = .ok r) : resultSize r ≤ inp.length := by
  simp only [List.mem_cons, List.not_mem_nil, or_false] at hi
  rcases hi with rfl | rfl | rfl | rfl | rfl
  · cases hdecode : b58Decode inp with
    | error e => simp [commandFunction, fB58Dec, hdecode, Except.map] at h
    | ok b =>
      simp only [commandFunction, fB58Dec, hdecode, Except.map, Except.ok.injEq] at h
      exact h ▸ b58Decode_ok_length_le hdecode
  · cases hdecode : c32Decode inp with
    | error e => simp [commandFunction, fC32Dec, hdecode, Except.map] at h
    | ok b =>
      simp only [commandFunction, fC32Dec, hdecode, Except.map, Except.ok.injEq] at h
      exact h ▸ c32Decode_ok_length_le hdecode
  · rcases b58CheckDecode_cases inp with ⟨e, _, he⟩ | ⟨p, hok, hlen⟩
    · simp [commandFunction, fB58chkDec, he, Except.map] at h
    · simp only [commandFunction, fB58chkDec, hok, Except.map, Except.ok.injEq] at h
      exact h ▸ hlen
  · rcases c32CheckDecode_cases inp with ⟨e, _, he⟩ | ⟨v, p, hok, _, hlen⟩
    · simp [commandFunction, fC32chkDec, he, Except.map] at h
    · simp only [commandFunction, fC32chkDec, hok, Except.map, Except.ok.injEq] at h
      exact h ▸ hlen
  · rcases c32AddressDecode_cases inp with ⟨e, _, he⟩ | ⟨v, p, hok, _, hlen⟩
    · simp [commandFunction, fC32addrDec, he, Except.map] at h
    · simp only [commandFunction, fC32addrDec, hok, Except.map, Except.ok.injEq] at h
      exact h ▸ hlen

/-- An OutputOverflow is the framework's: some result does not fit. -/
theorem overflow_cases {s t : State} {i : Instr} (hs : s.err = none) (h : exec i s = .next t)
    (he : t.err = some .outputOverflow) :
    s.latched.inLen.toNat ≤ s.params.inBufSize ∧
      ∃ r, commandFunction s i s.input = .ok r ∧ s.params.outBufSize < resultSize r := by
  obtain ⟨_, _, hover⟩ := frameworkErrors_not_mem i
  rcases execute_error_cases (execute_of_exec_err hs h he) with ⟨hbad, _⟩ | ⟨_, hf⟩ | ⟨_, hargs, hr⟩
  · cases hbad
  · exact absurd (commandFunction_error_mem hf) hover
  · exact ⟨((checkArgs_eq_ok_iff s i).1 hargs).1, hr⟩

/-- A name check has no output to overflow (R281). -/
theorem outputOverflow_mem_errorsOf {s : State} {i : Instr} {inp : Bytes} {r : CmdResult}
    (h : commandFunction s i inp = .ok r) (hsize : 0 < resultSize r) :
    CmdError.outputOverflow ∈ errorsOf i := by
  cases i with
  | cnCheck =>
    rw [commandFunction, fCnCheck] at h
    split_ifs at h
    cases h
    exact absurd hsize (by decide)
  | ctnCheck =>
    rw [commandFunction, fCtnCheck] at h
    split_ifs at h
    cases h
    exact absurd hsize (by decide)
  | _ => simp [errorsOf]

theorem badArgument_mem_errorsOf (i : Instr) : CmdError.badArgument ∈ errorsOf i := by
  cases i <;> simp [errorsOf]

/-- STATUS of a command that ended in ERROR (R27, R280). -/
theorem statusWord_of_error {t : State} {e : CmdError} (hengine : t.engine = .error)
    (herr : t.err = some e) : t.statusWord = BitVec.ofNat 32 (256 * e.code.toNat + 3) := by
  rw [State.statusWord_eq, State.errCode, herr, hengine]
  rfl

/-- The numbers of R280's table. -/
theorem code_mem_table (e : CmdError) :
    (e, e.code.toNat) ∈ [(CmdError.invalidCharacter, 1), (.checksumMismatch, 2), (.tooShort, 3),
      (.oversizeDeclaration, 4), (.depthExceeded, 5), (.badTypePrefix, 6), (.invalidName, 7),
      (.truncatedInput, 8), (.badCommand, 9), (.badArgument, 10), (.outputOverflow, 11)] := by
  cases e <;> decide

/-- Settles O21: a code is the argument checks', the function's own or OutputOverflow, and a
decoder's output is no longer than its input. -/
theorem errorCodesOfEachCommand : Obligations.ErrorCodesOfEachCommand := by
  intro i s t e _ hs h he
  have hx := execute_of_exec_err hs h he
  have hengine : t.engine = .error := by
    obtain rfl := exec_next h
    rw [hx, commit_error, State.commitError_engine]
  refine ⟨?_, ?_, e.code.toNat, code_mem_table e, statusWord_of_error hengine he⟩
  · rcases execute_error_cases hx with ⟨rfl, _⟩ | ⟨_, hf⟩ | ⟨rfl, _, r, hf, hsize⟩
    · exact badArgument_mem_errorsOf i
    · exact functionErrors_subset i (commandFunction_error_mem hf)
    · exact outputOverflow_mem_errorsOf hf (Nat.zero_lt_of_lt hsize)
  · rintro rfl hi
    obtain ⟨hlen, r, hr, hsize⟩ := overflow_cases hs h he
    have hle := decoder_resultSize_le hi hr
    rw [State.input_length] at hle
    omega

/-- The version byte and the command of an encoded command and its operands (R81, R87). -/
theorem encodeArg_version (version prefixByte : Byte) :
    (encodeArg version prefixByte).extractLsb' 0 8 = version := by
  refine BitVec.eq_of_getLsbD_eq fun j hj => ?_
  simp only [encodeArg, BitVec.getLsbD_extractLsb', BitVec.getLsbD_or, BitVec.getLsbD_setWidth,
    BitVec.getLsbD_shiftLeft, hj]
  simp [show j < 32 by omega, show ¬ 8 ≤ j by omega]

/-- Settles O24: the latched word decodes to the command, whose operands pass the checks. -/
theorem wellFormedCommandsPassTheChecks : Obligations.WellFormedCommandsPassTheChecks := by
  intro c s t hdue hs hwf hlatched hstep
  have hdecode : decode s.latched.cmd = .ok c.instr := by rw [hlatched, decode_encode]
  rw [stepRunsTheLatchedCommand s c.instr hdue hdecode] at hstep
  have hversion : s.version = c.version := by
    rw [State.version, hlatched, encodeArg_version]
  have hargs : s.checkArgs c.instr = .ok () := by
    rw [checkArgs_eq_ok_iff, hversion, hlatched]
    simp only [Command.wellFormed, Bool.and_eq_true, Bool.or_eq_true, Bool.not_eq_true',
      decide_eq_true_eq, and_assoc] at hwf
    obtain ⟨hlen, hoff, hv⟩ := hwf
    exact ⟨hlen, fun huse => hoff.resolve_left (by simp [huse]),
      fun huse => hv.resolve_left (by simp [huse])⟩
  have hfunction : ∀ e, t.err = some e → e ∈ functionErrors c.instr ∨ e = .outputOverflow := by
    intro e he
    rcases execute_error_cases (execute_of_exec_err hs hstep he) with
      ⟨_, hbad⟩ | ⟨_, hf⟩ | ⟨hover, _⟩
    · exact nomatch hargs.symm.trans hbad
    · exact .inl (commandFunction_error_mem hf)
    · exact .inr hover
  obtain ⟨hcommand, hargument, _⟩ := frameworkErrors_not_mem c.instr
  exact ⟨fun he => (hfunction _ he).elim hcommand nofun,
    fun he => (hfunction _ he).elim hargument nofun⟩

/-! ### The sizes of Base58 (R138) -/

theorem b58Encode_length (b : Bytes) :
    (b58Encode b).length = lead b 0 + (digits 58 (be b)).length := by
  rw [b58Encode, List.length_append, List.length_replicate, List.length_map]

/-- A number has at least the digits that its last but one power needs. -/
theorem pow_le_of_lt_digits_length {base n k : Nat} (hb : 2 ≤ base)
    (h : k < (digits base n).length) : base ^ k ≤ n := by
  by_contra hlt
  exact absurd ((digits_length_le_iff hb n k).2 (Nat.lt_of_not_le hlt)) (Nat.not_le.2 h)

/-- R138's bound: the digits behind the first hold less than the bytes do. -/
theorem b58Encode_length_bound (b : Bytes) :
    (b58Encode b).length = lead b 0 ∨
      58 ^ ((b58Encode b).length - lead b 0 - 1) < 256 ^ (b.length - lead b 0) := by
  rw [b58Encode_length, Nat.add_sub_cancel_left]
  cases hlen : (digits 58 (be b)).length with
  | zero => exact .inl rfl
  | succ k =>
    rw [Nat.add_sub_cancel]
    exact .inr ((pow_le_of_lt_digits_length (by decide) (by omega)).trans_lt (be_lt_of_lead b))

/-- 183/134 is above the ratio of the two bases' logarithms, and below R138's 1.3658. -/
theorem pow_fiftyEight_bound {j k : Nat} (h : 58 ^ j < 256 ^ k) : 134 * j < 183 * k := by
  have hbase : 256 ^ 134 ≤ 58 ^ 183 := by norm_num
  refine (Nat.pow_lt_pow_iff_right (a := 58) (by decide)).1 ?_
  calc 58 ^ (134 * j) = (58 ^ j) ^ 134 := by rw [mul_comm, pow_mul]
    _ < (256 ^ k) ^ 134 := Nat.pow_lt_pow_left h (by decide)
    _ = (256 ^ 134) ^ k := pow_right_comm 256 k 134
    _ ≤ (58 ^ 183) ^ k := Nat.pow_le_pow_left hbase k
    _ = 58 ^ (183 * k) := (pow_mul 58 183 k).symm

theorem b58Encode_length_le (b : Bytes) :
    10000 * (b58Encode b).length ≤ 13658 * b.length + 10000 := by
  have hlead := lead_le_length b 0
  rcases b58Encode_length_bound b with hzero | hpow
  · omega
  · have hbound := pow_fiftyEight_bound hpow
    omega

/-- Settles O34: the bound by powers, and from it the commands' outputs against OUT_BUF. -/
theorem base58LengthBound : Obligations.Base58LengthBound := by
  refine ⟨b58Encode_length_bound, fun i s t hi _ hs hsize h he => ?_,
    fun s t _ hs hsize h he => ?_⟩
  · obtain ⟨hlen, r, hr, hover⟩ := overflow_cases hs h he
    rw [List.mem_cons] at hi
    rcases hi with rfl | hi
    · cases hr
      have hle := b58Encode_length_le s.input
      rw [State.input_length] at hle
      simp only [resultSize] at hover
      omega
    · have hdecoder : i ∈ [Instr.b58Dec, .c32Dec, .b58chkDec, .c32chkDec, .c32addrDec] := by
        simp only [List.mem_cons, List.not_mem_nil, or_false] at hi ⊢
        tauto
      have hle := decoder_resultSize_le hdecoder hr
      rw [State.input_length] at hle
      omega
  · obtain ⟨hlen, r, hr, hover⟩ := overflow_cases hs h he
    cases hr
    have hle := b58Encode_length_le (s.input ++ checksum s.input)
    rw [List.length_append, checksum_length, State.input_length] at hle
    simp only [resultSize, b58CheckEncode] at hover
    omega

/-! ### R138's last claim -/

/-- A machine that runs B58CHK_ENC on the one byte 0xFF, with R138's six bytes of OUT_BUF for it. -/
def overflowingState : State :=
  { State.reset with
    params := ⟨1, 6, 0⟩
    engine := .busy
    latched := ⟨encode .b58chkEnc, 0, 1, 0⟩
    inBuf := [(0, 0xFF)] }

theorem overflowingState_input : overflowingState.input = [0xFF] := by decide

/-- Whatever the checksum is, five bytes from 0xFF on have seven Base58 digits. -/
theorem seven_le_b58CheckEncode_length : 7 ≤ (b58CheckEncode [0xFF]).length := by
  have hvalue : be ([0xFF] ++ checksum [0xFF]) = 255 * 256 ^ 4 + be (checksum [0xFF]) := by
    have hbyte : (0xFF : Byte).toNat = 255 := rfl
    rw [be_append, checksum_length, be_singleton, hbyte]
  rw [b58CheckEncode, b58Encode_length]
  by_contra hshort
  have hlt := (digits_length_le_iff (base := 58) (by decide)
    (be ([0xFF] ++ checksum [0xFF])) 6).1 (by omega)
  omega

/-- Refutes O35: B58CHK_ENC encodes four bytes more than R138 counts, and overflows. -/
theorem not_base58OverflowBoundAsWritten : ¬ Obligations.Base58OverflowBoundAsWritten := by
  intro h
  have hf : commandFunction overflowingState .b58chkEnc overflowingState.input =
      .ok (.bytes (b58CheckEncode [0xFF])) := by
    rw [overflowingState_input]
    rfl
  obtain ⟨t, ht, hfailed⟩ := exec_overflows (s := overflowingState)
    (checkArgs_of_length rfl rfl (by decide)) hf seven_le_b58CheckEncode_length
  exact h .b58chkEnc overflowingState t (by decide) (by decide) rfl rfl (by decide) ht hfailed.err

end Sys2Proof.Machine
end

section
/-! PROOF. The UTF-8 split (R207): a sequence of the table starts a string exactly where
`wellFormedLen` finds its length, so the groups are the one way to cut the string; and tuples as
finite maps (R202): entries of distinct keys may be put in any order. -/

namespace Sys2Proof.Machine

/-! ### One sequence -/

theorem byteIn_iff (s : Bytes) (i lo hi : Nat) :
    byteIn s i lo hi = true ↔ ∃ b, s[i]? = some b ∧ lo ≤ b.toNat ∧ b.toNat ≤ hi := by
  unfold byteIn
  cases s[i]? <;> simp

theorem byteIn_drop (s : Bytes) (k i lo hi : Nat) :
    byteIn (s.drop k) i lo hi = byteIn s (k + i) lo hi := by
  simp only [byteIn, List.getElem?_drop]

/-- The bytes of a group lie in the ranges of a row of R207's table. -/
abbrev InRow (g : Bytes) (row : List (Nat × Nat)) : Prop :=
  List.Forall₂ (fun b range => range.1 ≤ b.toNat ∧ b.toNat ≤ range.2) g row

/-- The bytes at the start of a string lie in the ranges of a row. -/
def StartsRow (s : Bytes) (row : List (Nat × Nat)) : Prop :=
  row.length ≤ s.length ∧ InRow (s.take row.length) row

theorem startsRow_nil (s : Bytes) : StartsRow s [] := ⟨Nat.zero_le _, by simp [InRow]⟩

/-- A row starts a string when its first range holds the first byte and the others start the
rest. -/
theorem startsRow_cons_iff (s : Bytes) (lo hi : Nat) (row : List (Nat × Nat)) :
    StartsRow s ((lo, hi) :: row) ↔ byteIn s 0 lo hi = true ∧ StartsRow (s.drop 1) row := by
  rw [byteIn_iff]
  cases s with
  | nil => simp [StartsRow]
  | cons b s => simp [StartsRow, InRow, and_left_comm]

theorem startsRow_append {g : Bytes} {row : List (Nat × Nat)} (h : InRow g row) (rest : Bytes) :
    StartsRow (g ++ rest) row := by
  have hlen := h.length_eq
  refine ⟨?_, ?_⟩
  · rw [List.length_append]
    omega
  · rwa [← hlen, List.take_left]

/-- A length that `wellFormedLen` finds is that of a row that starts the string. -/
theorem exists_row_of_wellFormedLen {s : Bytes} (h : wellFormedLen s ≠ 0) :
    ∃ row ∈ utf8Table, row.length = wellFormedLen s ∧ StartsRow s row := by
  revert h
  unfold wellFormedLen
  simp only [Bool.and_eq_true, Bool.or_eq_true]
  split_ifs with h1 h2 h3 h4 h5 h6 h7 h8 <;> intro h
  · exact ⟨[(0x00, 0x7F)], by decide, rfl, by simp [startsRow_cons_iff, startsRow_nil, h1]⟩
  · exact ⟨[(0xC2, 0xDF), (0x80, 0xBF)], by decide, rfl,
      by simp [-List.drop_one, startsRow_cons_iff, byteIn_drop, startsRow_nil, h2]⟩
  · exact ⟨[(0xE0, 0xE0), (0xA0, 0xBF), (0x80, 0xBF)], by decide, rfl,
      by simp [-List.drop_one, startsRow_cons_iff, byteIn_drop, startsRow_nil, h3]⟩
  · obtain ⟨⟨hfirst | hfirst, hsecond⟩, hthird⟩ := h4
    · exact ⟨[(0xE1, 0xEC), (0x80, 0xBF), (0x80, 0xBF)], by decide, rfl,
        by simp [-List.drop_one, startsRow_cons_iff, byteIn_drop, startsRow_nil, hfirst, hsecond,
          hthird]⟩
    · exact ⟨[(0xEE, 0xEF), (0x80, 0xBF), (0x80, 0xBF)], by decide, rfl,
        by simp [-List.drop_one, startsRow_cons_iff, byteIn_drop, startsRow_nil, hfirst, hsecond,
          hthird]⟩
  · exact ⟨[(0xED, 0xED), (0x80, 0x9F), (0x80, 0xBF)], by decide, rfl,
      by simp [-List.drop_one, startsRow_cons_iff, byteIn_drop, startsRow_nil, h5]⟩
  · exact ⟨[(0xF0, 0xF0), (0x90, 0xBF), (0x80, 0xBF), (0x80, 0xBF)], by decide, rfl,
      by simp [-List.drop_one, startsRow_cons_iff, byteIn_drop, startsRow_nil, h6]⟩
  · exact ⟨[(0xF1, 0xF3), (0x80, 0xBF), (0x80, 0xBF), (0x80, 0xBF)], by decide, rfl,
      by simp [-List.drop_one, startsRow_cons_iff, byteIn_drop, startsRow_nil, h7]⟩
  · exact ⟨[(0xF4, 0xF4), (0x80, 0x8F), (0x80, 0xBF), (0x80, 0xBF)], by decide, rfl,
      by simp [-List.drop_one, startsRow_cons_iff, byteIn_drop, startsRow_nil, h8]⟩
  · exact absurd rfl h

/-- Where no length is found, no row starts the string. -/
theorem wellFormedLen_ne_zero {s : Bytes} {row : List (Nat × Nat)} (hrow : row ∈ utf8Table)
    (h : StartsRow s row) : wellFormedLen s ≠ 0 := by
  intro hzero
  unfold wellFormedLen at hzero
  simp only [Bool.and_eq_true, Bool.or_eq_true] at hzero
  split_ifs at hzero with h1 h2 h3 h4 h5 h6 h7 h8
  simp only [utf8Table, List.mem_cons, List.not_mem_nil, or_false] at hrow
  rcases hrow with rfl | rfl | rfl | rfl | rfl | rfl | rfl | rfl | rfl <;>
    simp only [startsRow_cons_iff, byteIn_drop, List.drop_drop, startsRow_nil, and_true] at h
  · exact h1 h
  · exact h2 h
  · exact h3 (and_assoc.2 h)
  · exact h4 ⟨⟨.inl h.1, h.2.1⟩, h.2.2⟩
  · exact h4 ⟨⟨.inr h.1, h.2.1⟩, h.2.2⟩
  · exact h5 (and_assoc.2 h)
  · exact h6 (and_assoc.2 (and_assoc.2 h))
  · exact h7 (and_assoc.2 (and_assoc.2 h))
  · exact h8 (and_assoc.2 (and_assoc.2 h))

/-- The ranges of the rows' first bytes have no byte in common. -/
theorem row_eq_of_firstByte {row row' : List (Nat × Nat)} (h : row ∈ utf8Table)
    (h' : row' ∈ utf8Table) {n : Nat} (hn : ∃ r ∈ row.head?, r.1 ≤ n ∧ n ≤ r.2)
    (hn' : ∃ r ∈ row'.head?, r.1 ≤ n ∧ n ≤ r.2) : row = row' := by
  have hall : ∀ row ∈ utf8Table, ∀ row' ∈ utf8Table, ∀ r ∈ row.head?, ∀ r' ∈ row'.head?,
      r.1 ≤ r'.2 → r'.1 ≤ r.2 → row = row' := by decide
  obtain ⟨r, hr, hlo, hhi⟩ := hn
  obtain ⟨r', hr', hlo', hhi'⟩ := hn'
  exact hall row h row' h' r hr r' hr' (hlo.trans hhi') (hlo'.trans hhi)

theorem firstByte_of_startsRow {s : Bytes} {row : List (Nat × Nat)} (hrow : row ∈ utf8Table)
    (h : StartsRow s row) : ∃ r ∈ row.head?, r.1 ≤ (s.headD 0).toNat ∧ (s.headD 0).toNat ≤ r.2 := by
  have hne : ∀ row ∈ utf8Table, row ≠ [] := by decide
  obtain ⟨⟨lo, hi⟩, row, rfl⟩ := List.exists_cons_of_ne_nil (hne row hrow)
  obtain ⟨b, hb, hrange⟩ := (byteIn_iff _ _ _ _).1 ((startsRow_cons_iff _ _ _ _).1 h).1
  have hhead : s.headD 0 = b := by simp [List.headD_eq_head?_getD, List.head?_eq_getElem?, hb]
  exact ⟨(lo, hi), rfl, hhead ▸ hrange⟩

/-- A row that starts a string is the one that `wellFormedLen` finds. -/
theorem wellFormedLen_of_startsRow {s : Bytes} {row : List (Nat × Nat)} (hrow : row ∈ utf8Table)
    (h : StartsRow s row) : wellFormedLen s = row.length := by
  obtain ⟨row', hrow', hlen, h'⟩ := exists_row_of_wellFormedLen (wellFormedLen_ne_zero hrow h)
  rw [← hlen, row_eq_of_firstByte hrow hrow' (firstByte_of_startsRow hrow h)
    (firstByte_of_startsRow hrow' h')]

/-- A sequence of the table is found whole, whatever follows it. -/
theorem wellFormedLen_append {g : Bytes} (h : Utf8Scalar g) (rest : Bytes) :
    wellFormedLen (g ++ rest) = g.length := by
  obtain ⟨row, hrow, hg⟩ := h
  rw [wellFormedLen_of_startsRow hrow (startsRow_append hg rest), hg.length_eq]

/-- A row of the table has from one to four ranges. -/
theorem utf8Scalar_ne_nil {g : Bytes} (h : Utf8Scalar g) : g ≠ [] := by
  obtain ⟨row, hrow, hg⟩ := h
  have hne : ∀ row ∈ utf8Table, row ≠ [] := by decide
  rintro rfl
  exact hne row hrow (List.forall₂_nil_left_iff.1 hg)

theorem utf8Scalar_take {s : Bytes} (h : wellFormedLen s ≠ 0) :
    Utf8Scalar (s.take (wellFormedLen s)) ∧ wellFormedLen s ≤ s.length := by
  obtain ⟨row, hrow, hlen, hle, hbytes⟩ := exists_row_of_wellFormedLen h
  rw [← hlen]
  exact ⟨⟨row, hrow, hbytes⟩, hle⟩

/-! ### The split -/

theorem isUtf8Split_nil_iff (gs : List Bytes) : IsUtf8Split [] gs ↔ gs = [] := by
  refine ⟨fun ⟨hflat, hgs⟩ => ?_, fun h => h ▸ ⟨rfl, by simp⟩⟩
  cases gs with
  | nil => rfl
  | cons g gs =>
    rw [List.flatten_cons, List.append_eq_nil_iff] at hflat
    exact absurd hflat.1 (utf8Scalar_ne_nil (hgs g List.mem_cons_self))

/-- The first group of a split is the sequence that `wellFormedLen` finds. -/
theorem isUtf8Split_cons_iff {s : Bytes} (hs : s ≠ []) (gs : List Bytes) :
    IsUtf8Split s gs ↔ wellFormedLen s ≠ 0 ∧
      ∃ rest, gs = s.take (wellFormedLen s) :: rest ∧
        IsUtf8Split (s.drop (wellFormedLen s)) rest := by
  constructor
  · rintro ⟨hflat, hgs⟩
    cases gs with
    | nil => exact absurd hflat.symm hs
    | cons g gs =>
      obtain ⟨hg, hrest⟩ := List.forall_mem_cons.1 hgs
      rw [List.flatten_cons] at hflat
      have hlen : wellFormedLen s = g.length := hflat ▸ wellFormedLen_append hg gs.flatten
      have hpos : g.length ≠ 0 := fun h => utf8Scalar_ne_nil hg (List.length_eq_zero_iff.1 h)
      rw [hlen, ← hflat, List.take_left, List.drop_left]
      exact ⟨hpos, gs, rfl, rfl, hrest⟩
  · rintro ⟨hpos, rest, rfl, hflat, hrest⟩
    refine ⟨?_, List.forall_mem_cons.2 ⟨(utf8Scalar_take hpos).1, hrest⟩⟩
    rw [List.flatten_cons, hflat, List.take_append_drop]

/-- With fuel for every byte the groups are the split, where there is one. -/
theorem utf8Groups_eq_some_iff {fuel : Nat} {s : Bytes} (h : s.length ≤ fuel) (gs : List Bytes) :
    utf8Groups fuel s = some gs ↔ IsUtf8Split s gs := by
  induction fuel generalizing s gs with
  | zero =>
    obtain rfl := List.length_eq_zero_iff.1 (Nat.le_zero.1 h)
    rw [isUtf8Split_nil_iff]
    simp [utf8Groups, eq_comm]
  | succ fuel ih =>
    cases s with
    | nil =>
      rw [isUtf8Split_nil_iff]
      simp [utf8Groups, eq_comm]
    | cons b s =>
      rw [isUtf8Split_cons_iff (List.cons_ne_nil b s)]
      by_cases hzero : wellFormedLen (b :: s) = 0
      · simp [utf8Groups, hzero]
      · have hlen : ((b :: s).drop (wellFormedLen (b :: s))).length ≤ fuel := by
          rw [List.length_drop]
          omega
        have hgroups : utf8Groups (fuel + 1) (b :: s) =
            (utf8Groups fuel ((b :: s).drop (wellFormedLen (b :: s)))).map
              ((b :: s).take (wellFormedLen (b :: s)) :: ·) := if_neg hzero
        rw [hgroups, Option.map_eq_some_iff, and_iff_right hzero]
        exact exists_congr fun rest => by rw [ih hlen, and_comm, eq_comm]

theorem utf8Split_eq_ok_iff (s : Bytes) (gs : List Bytes) :
    utf8Split s = .ok gs ↔ IsUtf8Split s gs := by
  rw [← utf8Groups_eq_some_iff le_rfl, utf8Split]
  cases utf8Groups s.length s <;> simp

/-- Settles O29: the split is the relation's only solution, and its one error is
InvalidCharacter. -/
theorem utf8SplitIsTheUniqueSplit : Obligations.Utf8SplitIsTheUniqueSplit := by
  refine ⟨utf8Split_eq_ok_iff, fun s hnone => ?_⟩
  cases h : utf8Split s with
  | error e => rw [utf8Split_error h]
  | ok gs => exact absurd ⟨gs, (utf8Split_eq_ok_iff s gs).1 h⟩ hnone

/-! ### Tuples as finite maps -/

/-- The order of keys is the lexicographic one of their bytes' numbers. -/
theorem bytesLt_iff (s r : Bytes) :
    bytesLt s r = true ↔ s.map BitVec.toNat < r.map BitVec.toNat := by
  induction s generalizing r with
  | nil => cases r <;> simp [bytesLt]
  | cons a s ih => cases r <;> simp [bytesLt, ih, List.cons_lt_cons_iff, BitVec.toNat_inj]

theorem bytesLt_irrefl (s : Bytes) : bytesLt s s = false := by
  rw [← Bool.not_eq_true, bytesLt_iff]
  exact lt_irrefl _

theorem bytesLt_trans {s r u : Bytes} (h1 : bytesLt s r = true) (h2 : bytesLt r u = true) :
    bytesLt s u = true :=
  (bytesLt_iff _ _).2 (((bytesLt_iff _ _).1 h1).trans ((bytesLt_iff _ _).1 h2))

theorem bytesLt_asymm {s r : Bytes} (h : bytesLt s r = true) : bytesLt r s = false := by
  rw [← Bool.not_eq_true, bytesLt_iff]
  exact lt_asymm ((bytesLt_iff _ _).1 h)

theorem bytesLt_trichotomy (s r : Bytes) : bytesLt s r = true ∨ s = r ∨ bytesLt r s = true := by
  rw [bytesLt_iff, bytesLt_iff]
  have hinj : s.map BitVec.toNat = r.map BitVec.toNat → s = r :=
    fun h => List.map_injective_iff.2 (fun _ _ => BitVec.eq_of_toNat_eq) h
  exact (lt_trichotomy _ _).imp_right (Or.imp_left hinj)

theorem putEntry_nil (key : Bytes) (v : Value) : putEntry key v [] = [(key, v)] := rfl

section PutEntry
variable {key k : Bytes} (v w : Value) (rest : List (Bytes × Value))

/-- Where an entry is put, by its key against the first one's. -/
theorem putEntry_of_lt (h : bytesLt key k = true) :
    putEntry key v ((k, w) :: rest) = (key, v) :: (k, w) :: rest := by
  rw [putEntry, if_pos h]

theorem putEntry_same : putEntry key v ((key, w) :: rest) = (key, v) :: rest := by
  rw [putEntry, if_neg (by simp [bytesLt_irrefl]), if_pos rfl]

theorem putEntry_of_gt (h : bytesLt k key = true) :
    putEntry key v ((k, w) :: rest) = (k, w) :: putEntry key v rest := by
  have hne : key ≠ k := by
    rintro rfl
    simp [bytesLt_irrefl] at h
  rw [putEntry, if_neg (by simp [bytesLt_asymm h]), if_neg hne]

end PutEntry

/-- Entries of two keys in ascending order, put in either order. -/
theorem putEntry_comm_of_lt {k1 k2 : Bytes} (h : bytesLt k1 k2 = true) (v1 v2 : Value)
    (m : List (Bytes × Value)) :
    putEntry k1 v1 (putEntry k2 v2 m) = putEntry k2 v2 (putEntry k1 v1 m) := by
  induction m with
  | nil => rw [putEntry_nil, putEntry_nil, putEntry_of_lt _ _ _ h, putEntry_of_gt _ _ _ h,
      putEntry_nil]
  | cons e m ih =>
    obtain ⟨k, w⟩ := e
    rcases bytesLt_trichotomy k2 k with h2 | rfl | h2
    · rw [putEntry_of_lt _ _ _ h2, putEntry_of_lt _ _ _ h,
        putEntry_of_lt _ _ _ (bytesLt_trans h h2), putEntry_of_gt _ _ _ h,
        putEntry_of_lt _ _ _ h2]
    · rw [putEntry_same, putEntry_of_lt _ _ _ h, putEntry_of_lt _ _ _ h, putEntry_of_gt _ _ _ h,
        putEntry_same]
    · rw [putEntry_of_gt _ _ _ h2]
      rcases bytesLt_trichotomy k1 k with h1 | rfl | h1
      · rw [putEntry_of_lt _ _ _ h1, putEntry_of_lt _ _ _ h1, putEntry_of_gt _ _ _ h,
          putEntry_of_gt _ _ _ h2]
      · rw [putEntry_same, putEntry_same, putEntry_of_gt _ _ _ h]
      · rw [putEntry_of_gt _ _ _ h1, putEntry_of_gt _ _ _ h1, putEntry_of_gt _ _ _ h2, ih]

theorem putEntry_comm {k1 k2 : Bytes} (h : k1 ≠ k2) (v1 v2 : Value) (m : List (Bytes × Value)) :
    putEntry k1 v1 (putEntry k2 v2 m) = putEntry k2 v2 (putEntry k1 v1 m) := by
  rcases bytesLt_trichotomy k1 k2 with hlt | heq | hlt
  · exact putEntry_comm_of_lt hlt v1 v2 m
  · exact absurd heq h
  · exact (putEntry_comm_of_lt hlt v2 v1 m).symm

/-- Settles O30: puts of distinct keys commute, so a permutation changes nothing. -/
theorem tupleValueIgnoresEntryOrder : Obligations.TupleValueIgnoresEntryOrder := by
  intro l m hperm hnodup
  refine hperm.foldl_eq' (fun x hx y hy acc => ?_) []
  by_cases hkey : x.1 = y.1
  · rw [List.inj_on_of_nodup_map hnodup hx hy hkey]
  · exact putEntry_comm (Ne.symm hkey) _ _ _

end Sys2Proof.Machine
end

section
/-! PROOF. The nodes of a decode (R237, R247, R253, R256): a value's node stands in front of those
of its children, which are whole values one after the other; so the cursor, the number of nodes,
the depths and the spans are bounded by one induction over levels. -/

namespace Sys2Proof.Machine

/-! ### Children in turn -/

/-- Whole values one after the other, each with the key of its entry if it is one: nodes and
cursors. -/
inductive Siblings (inp : Bytes) (child : Nat → Decoded) : Nat → List Node → Nat → Prop where
  | nil (p : Nat) : Siblings inp child p [] p
  | item {p p1 q : Nat} {ns rest : List Node} (hvalue : child p = .ok (ns, p1))
      (hrest : Siblings inp child p1 rest q) : Siblings inp child p (ns ++ rest) q
  | entry {p p1 p2 q : Nat} {key : Nat × Nat} {ns rest : List Node}
      (hname : readName inp p = .ok (key, p1)) (hvalue : child p1 = .ok (ns, p2))
      (hrest : Siblings inp child p2 rest q) : Siblings inp child p (setKey key ns ++ rest) q

theorem siblings_of_decodeItems {inp : Bytes} {child : Nat → Decoded} {c p q : Nat}
    {nodes : List Node} (h : decodeItems child c p = .ok (nodes, q)) :
    Siblings inp child p nodes q := by
  induction c generalizing p nodes with
  | zero =>
    cases h
    exact .nil _
  | succ c ih =>
    obtain ⟨ns, p1, rest, hns, hrest, rfl⟩ := decodeItems_succ_ok h
    exact .item hns (ih hrest)

theorem siblings_of_decodeEntries {inp : Bytes} {child : Nat → Decoded} {c p q : Nat}
    {seen : List Bytes} {nodes : List Node}
    (h : decodeEntries inp child c seen p = .ok (nodes, q)) : Siblings inp child p nodes q := by
  induction c generalizing p seen nodes with
  | zero =>
    cases h
    exact .nil _
  | succ c ih =>
    obtain ⟨key, p1, ns, p2, rest, hname, _, hns, hrest, rfl⟩ := decodeEntries_succ_ok h
    exact .entry hname hns (ih hrest)

/-- A payload reads its own fields, then its children. -/
theorem PayloadDecodes.siblings {inp : Bytes} {child : Nat → Decoded} {t : TypePrefix} {p q : Nat}
    {payload : Payload} {children : List Node}
    (h : PayloadDecodes inp child p t payload children q) (hp : p ≤ inp.length) :
    ∃ p1, p ≤ p1 ∧ p1 ≤ inp.length ∧ Siblings inp child p1 children q := by
  cases h with
  | integer _ hr | principal hr =>
    obtain ⟨hle, _, rfl, _⟩ := takeBytes_ok hr
    exact ⟨_, by omega, hle, .nil _⟩
  | data _ hn hb | utf8 hn hb =>
    obtain ⟨_, _, _, rfl⟩ := readSize_ok hn
    obtain ⟨hle, _, rfl, _⟩ := takeBytes_ok hb
    exact ⟨_, by omega, hle, .nil _⟩
  | empty => exact ⟨p, le_rfl, hp, .nil p⟩
  | contract hvh hname =>
    obtain ⟨_, _, rfl, _⟩ := takeBytes_ok hvh
    obtain ⟨_, hq, hle, _⟩ := readName_ok hname
    exact ⟨q, by omega, hle, .nil q⟩
  | wrapped _ hns =>
    exact ⟨p, le_rfl, hp, by simpa using Siblings.item hns (.nil (inp := inp) q)⟩
  | list hc hns =>
    obtain ⟨hle, _, _, rfl⟩ := readSize_ok hc
    exact ⟨_, by omega, hle, siblings_of_decodeItems hns⟩
  | tuple hc hns =>
    obtain ⟨hle, _, _, rfl⟩ := readSize_ok hc
    exact ⟨_, by omega, hle, siblings_of_decodeEntries hns⟩

/-- A decode that succeeds, as a node in front of its children's nodes. -/
theorem decodeValue_siblings {inp : Bytes} {levels d p q : Nat} {nodes : List Node}
    (h : decodeValue inp (levels + 1) d p = .ok (nodes, q)) :
    ∃ t payload children p1, nodes = ⟨t, d, none, p, q, payload⟩ :: children ∧
      p < p1 ∧ p1 ≤ inp.length ∧
      PayloadDecodes inp (fun p => decodeValue inp levels (d + 1) p) (p + 1) t payload children q ∧
      Siblings inp (fun p => decodeValue inp levels (d + 1) p) p1 children q := by
  obtain ⟨hle, t, payload, children, _, hpayload, rfl⟩ := decodeValue_ok h
  have hp := decodePayload_ok hpayload
  obtain ⟨p1, hlow, hhigh, hsiblings⟩ := hp.siblings hle
  exact ⟨t, payload, children, p1, rfl, by omega, hhigh, hp, hsiblings⟩

/-! ### Keys are no part of a value -/

/-- A node without its key (R241). -/
def Node.unkeyed (n : Node) : Node := { n with key := none }

theorem setKey_map {α : Type} (f : Node → α) (hf : ∀ n k, f { n with key := k } = f n)
    (key : Nat × Nat) (ns : List Node) : (setKey key ns).map f = ns.map f := by
  cases ns <;> simp [setKey, hf]

theorem setKey_map_depth (key : Nat × Nat) (ns : List Node) :
    (setKey key ns).map Node.depth = ns.map Node.depth := setKey_map _ (fun _ _ => rfl) key ns

/-! ### Bounds -/

/-- What holds of the nodes of a value, or of values in turn, at cursors `p` to `q`. -/
structure NodesWithin (inp : Bytes) (d levels : Nat) (p q : Nat) (nodes : List Node) : Prop where
  cursor : p ≤ q
  inside : q ≤ inp.length
  count : nodes.length ≤ q - p
  depths : ∀ x ∈ nodes.map Node.depth, d ≤ x ∧ x < d + levels

theorem NodesWithin.append {inp : Bytes} {d levels p p1 q : Nat} {ns rest : List Node}
    (h : NodesWithin inp d levels p p1 ns) (hrest : NodesWithin inp d levels p1 q rest) :
    NodesWithin inp d levels p q (ns ++ rest) where
  cursor := h.cursor.trans hrest.cursor
  inside := hrest.inside
  count := by
    have := h.cursor
    have := h.count
    have := hrest.cursor
    have := hrest.count
    rw [List.length_append]
    omega
  depths := by
    rw [List.map_append, List.forall_mem_append]
    exact ⟨h.depths, hrest.depths⟩

theorem NodesWithin.setKey {inp : Bytes} {d levels p q : Nat} {ns : List Node}
    (h : NodesWithin inp d levels p q ns) (key : Nat × Nat) :
    NodesWithin inp d levels p q (setKey key ns) where
  cursor := h.cursor
  inside := h.inside
  count := by rw [setKey_length]; exact h.count
  depths := by rw [setKey_map_depth]; exact h.depths

/-- Reading more before the first node keeps the bounds. -/
theorem NodesWithin.of_le {inp : Bytes} {d levels p p' q : Nat} {ns : List Node}
    (h : NodesWithin inp d levels p q ns) (hle : p' ≤ p) : NodesWithin inp d levels p' q ns where
  cursor := hle.trans h.cursor
  inside := h.inside
  count := h.count.trans (Nat.sub_le_sub_left hle q)
  depths := h.depths

theorem Siblings.within {inp : Bytes} {child : Nat → Decoded} {d levels p q : Nat}
    {nodes : List Node} (h : Siblings inp child p nodes q)
    (hchild : ∀ p ns q, child p = .ok (ns, q) → NodesWithin inp d levels p q ns)
    (hp : p ≤ inp.length) : NodesWithin inp d levels p q nodes := by
  induction h with
  | nil p => exact ⟨le_rfl, hp, Nat.zero_le _, by simp⟩
  | item hvalue _ ih =>
    have hns := hchild _ _ _ hvalue
    exact hns.append (ih hns.inside)
  | entry hname hvalue _ ih =>
    obtain ⟨_, rfl, _⟩ := readName_ok hname
    have hns := hchild _ _ _ hvalue
    exact ((hns.setKey _).of_le (by omega)).append (ih hns.inside)

/-- A value's node, and its children one level down. -/
theorem NodesWithin.cons {inp : Bytes} {d levels p p1 q : Nat} {children : List Node}
    (h : NodesWithin inp (d + 1) levels p1 q children) (hp : p < p1) (n : Node) (hn : n.depth = d) :
    NodesWithin inp d (levels + 1) p q (n :: children) where
  cursor := hp.le.trans h.cursor
  inside := h.inside
  count := by
    have := h.cursor
    have := h.count
    rw [List.length_cons]
    omega
  depths := by
    rw [List.map_cons, List.forall_mem_cons, hn]
    refine ⟨by omega, fun x hx => ?_⟩
    have := h.depths x hx
    omega

theorem decodeValue_within {inp : Bytes} {levels d p q : Nat} {nodes : List Node}
    (h : decodeValue inp levels d p = .ok (nodes, q)) : NodesWithin inp d levels p q nodes := by
  induction levels generalizing d p q nodes with
  | zero => cases h
  | succ levels ih =>
    obtain ⟨t, payload, children, p1, rfl, hlt, hle, _, hsiblings⟩ := decodeValue_siblings h
    exact (hsiblings.within (fun _ _ _ hns => ih hns) hle).cons hlt _ rfl

/-- The first node of a value is the value's own. -/
theorem decodeValue_head {inp : Bytes} {levels d p q : Nat} {nodes : List Node}
    (h : decodeValue inp levels d p = .ok (nodes, q)) :
    ∃ t payload children, nodes = ⟨t, d, none, p, q, payload⟩ :: children ∧ p < q ∧
      ∀ n ∈ children, d < n.depth := by
  cases levels with
  | zero => cases h
  | succ levels =>
    obtain ⟨t, payload, children, p1, rfl, hlt, hle, _, hsiblings⟩ := decodeValue_siblings h
    have hwithin := hsiblings.within (fun _ _ _ hns => decodeValue_within hns) hle
    exact ⟨t, payload, children, rfl, hlt.trans_le hwithin.cursor,
      fun n hn => (hwithin.depths _ (List.mem_map_of_mem hn)).1⟩

/-! ### Spans -/

/-- Every node of a list decodes again at its span start, with `total` levels below depth 0, to
itself without its key and the nodes after it that are deeper (R256, R259). -/
def SpansDecode (inp : Bytes) (total : Nat) : List Node → Prop
  | [] => True
  | n :: rest =>
    decodeValue inp (total - n.depth) n.depth n.spanStart =
      .ok (n.unkeyed :: rest.takeWhile (fun x => n.depth < x.depth), n.spanEnd) ∧
    SpansDecode inp total rest

theorem SpansDecode.setKey {inp : Bytes} {total : Nat} {ns : List Node}
    (h : SpansDecode inp total ns) (key : Nat × Nat) : SpansDecode inp total (setKey key ns) := by
  cases ns with
  | nil => exact h
  | cons n rest => exact h

/-- Nodes that begin no deeper than all before them belong to no subtree of those. -/
theorem SpansDecode.append {inp : Bytes} {total d : Nat} {ns rest : List Node}
    (h : SpansDecode inp total ns) (hrest : SpansDecode inp total rest)
    (hdepths : ∀ n ∈ ns, d ≤ n.depth) (hhead : ∀ n ∈ rest.head?, n.depth = d) :
    SpansDecode inp total (ns ++ rest) := by
  induction ns with
  | nil => exact hrest
  | cons n ns ih =>
    obtain ⟨hn, hdepths⟩ := List.forall_mem_cons.1 hdepths
    have hstop : rest.takeWhile (fun x => n.depth < x.depth) = [] := by
      cases rest with
      | nil => rfl
      | cons m rest =>
        have hm := hhead m rfl
        rw [List.takeWhile_cons_of_neg (by rw [decide_eq_true_eq]; omega)]
    have hsame : (ns ++ rest).takeWhile (fun x => n.depth < x.depth) =
        ns.takeWhile (fun x => n.depth < x.depth) := by
      rw [List.takeWhile_append]
      split_ifs with hall
      · rw [hstop, List.append_nil]
        exact ((List.takeWhile_prefix _).eq_of_length hall).symm
      · rfl
    rw [List.cons_append, SpansDecode, hsame]
    exact ⟨h.1, ih h.2 hdepths⟩

theorem Siblings.spansDecode {inp : Bytes} {total levels d p q : Nat} {nodes : List Node}
    (h : Siblings inp (fun p => decodeValue inp levels d p) p nodes q)
    (hchild : ∀ p ns q, decodeValue inp levels d p = .ok (ns, q) → SpansDecode inp total ns) :
    SpansDecode inp total nodes ∧ ∀ n ∈ nodes.head?, n.depth = d := by
  have hdepths {p q : Nat} {ns : List Node} (hns : decodeValue inp levels d p = .ok (ns, q)) :
      ∀ x ∈ ns.map Node.depth, d ≤ x := fun x hx => ((decodeValue_within hns).depths x hx).1
  have hhead {p q : Nat} {ns : List Node} (hns : decodeValue inp levels d p = .ok (ns, q)) :
      ∃ n tail, ns = n :: tail ∧ n.depth = d := by
    obtain ⟨t, payload, children, rfl, _⟩ := decodeValue_head hns
    exact ⟨_, children, rfl, rfl⟩
  induction h with
  | nil => exact ⟨trivial, by simp⟩
  | item hvalue _ ih =>
    obtain ⟨n, tail, hns, hn⟩ := hhead hvalue
    refine ⟨(hchild _ _ _ hvalue).append ih.1 (List.forall_mem_map.1 (hdepths hvalue)) ih.2, ?_⟩
    simpa [hns] using hn
  | @entry _ _ _ _ key ns _ _ hvalue _ ih =>
    obtain ⟨n, tail, hns, hn⟩ := hhead hvalue
    have hkeyed := hdepths hvalue
    rw [← setKey_map_depth key, List.forall_mem_map] at hkeyed
    refine ⟨((hchild _ _ _ hvalue).setKey key).append ih.1 hkeyed ih.2, ?_⟩
    simpa [hns, setKey] using hn

theorem decodeValue_spansDecode {inp : Bytes} {levels d p q : Nat} {nodes : List Node}
    (h : decodeValue inp levels d p = .ok (nodes, q)) : SpansDecode inp (d + levels) nodes := by
  induction levels generalizing d p q nodes with
  | zero => cases h
  | succ levels ih =>
    obtain ⟨t, payload, children, p1, rfl, _, _, _, hsiblings⟩ := decodeValue_siblings h
    obtain ⟨_, _, _, hnodes, _, hdeeper⟩ := decodeValue_head h
    obtain rfl := (List.cons.inj hnodes).2
    have hchildren := (hsiblings.spansDecode (total := d + 1 + levels) fun _ _ _ hns => ih hns).1
    have htotal : d + (levels + 1) = d + 1 + levels := by omega
    refine ⟨?_, htotal ▸ hchildren⟩
    have hall : children.takeWhile (fun x => decide (d < x.depth)) = children :=
      List.takeWhile_eq_self_iff.2 fun n hn => decide_eq_true (hdeeper n hn)
    simp only [Node.unkeyed, Nat.add_sub_cancel_left, hall]
    exact h

theorem SpansDecode.getElem? {inp : Bytes} {total k : Nat} {nodes : List Node} {n : Node}
    (h : SpansDecode inp total nodes) (hk : nodes[k]? = some n) :
    decodeValue inp (total - n.depth) n.depth n.spanStart =
      .ok (n.unkeyed :: (nodes.drop (k + 1)).takeWhile (fun x => n.depth < x.depth),
        n.spanEnd) := by
  induction nodes generalizing k with
  | nil => cases hk
  | cons m rest ih =>
    cases k with
    | zero =>
      obtain rfl := Option.some.inj hk
      exact h.1
    | succ k => exact ih h.2 hk

/-- Settles O58: each node was decoded at its span start, with the levels left at its depth. -/
theorem spansDecodeToTheirSubtrees : Obligations.SpansDecodeToTheirSubtrees := by
  intro inp start q k nodes node h hk
  exact (decodeValue_spansDecode h).getElem? hk

end Sys2Proof.Machine
end

section
/-! PROOF. What the decoder reads (R55, R240, R247, R253): nothing before its start cursor, and,
where it succeeds, nothing from its end cursor on. -/

namespace Sys2Proof.Machine

/-! ### The readers, written out -/

theorem readSize_eq (inp : Bytes) (p : Nat) :
    readSize inp p =
      if inp.length < p + 4 then .error .truncatedInput
      else if maxDecl < be (slice inp p 4) then .error .oversizeDeclaration
      else .ok (be (slice inp p 4), p + 4) := by
  simp only [readSize, takeBytes]
  split_ifs <;> simp_all

/-- `ReadName` in the order of its checks (R238). -/
theorem readName_eq (inp : Bytes) (p : Nat) :
    readName inp p =
      if inp.length < p + 1 then .error .truncatedInput
      else if be (slice inp p 1) = 0 ∨ nameMax < be (slice inp p 1) then .error .invalidName
      else if inp.length < p + 1 + be (slice inp p 1) then .error .truncatedInput
      else if isClarityName (slice inp (p + 1) (be (slice inp p 1))) = true then
        .ok ((p + 1, be (slice inp p 1)), p + 1 + be (slice inp p 1))
      else .error .invalidName := by
  rcases takeBytes_cases inp p 1 with ⟨hle, htake⟩ | ⟨hlt, htake⟩
  · rw [if_neg (Nat.not_lt.2 hle)]
    simp only [readName, htake]
    split_ifs with hbad hcut hname
    · rfl
    · simp only [takeBytes, if_pos hcut]
    · simp only [takeBytes, if_neg hcut, if_pos hname]
    · simp only [takeBytes, if_neg hcut, if_neg hname]
  · rw [if_pos hlt]
    simp only [readName, htake]

theorem getElem?_slice (s : Bytes) (off n j : Nat) :
    (slice s off n)[j]? = if j < n then s[off + j]? else none := by
  rw [slice, List.getElem?_take, List.getElem?_drop]

/-! ### Nothing before the start -/

/-- Two inputs of one length agree from a cursor on. -/
structure SameFrom (inp other : Bytes) (start : Nat) : Prop where
  length : inp.length = other.length
  bytes : inp.drop start = other.drop start

section SameFrom
variable {inp other : Bytes} {start p : Nat}

theorem SameFrom.slice_eq (h : SameFrom inp other start) (hp : start ≤ p) (n : Nat) :
    slice inp p n = slice other p n := by
  obtain ⟨k, rfl⟩ := Nat.exists_eq_add_of_le hp
  rw [slice, slice, ← List.drop_drop, ← List.drop_drop, h.bytes]

theorem SameFrom.takeBytes_eq (h : SameFrom inp other start) (hp : start ≤ p) (n : Nat) :
    takeBytes inp p n = takeBytes other p n := by
  rw [takeBytes, takeBytes, h.length, h.slice_eq hp]

theorem SameFrom.readSize_eq (h : SameFrom inp other start) (hp : start ≤ p) :
    readSize inp p = readSize other p := by
  rw [readSize, readSize, h.takeBytes_eq hp]

theorem SameFrom.readName_eq (h : SameFrom inp other start) (hp : start ≤ p) :
    readName inp p = readName other p := by
  rw [Machine.readName_eq, Machine.readName_eq, h.length, h.slice_eq hp,
    h.slice_eq (p := p + 1) (by omega)]

variable {child child' : Nat → Decoded} (hchild : ∀ p, start ≤ p → child p = child' p)
  (hmono : ∀ p ns q, child' p = .ok (ns, q) → p ≤ q)
include hchild hmono

theorem decodeItems_congr (c : Nat) (hp : start ≤ p) :
    decodeItems child c p = decodeItems child' c p := by
  induction c generalizing p with
  | zero => rfl
  | succ c ih =>
    rw [decodeItems, decodeItems, hchild p hp]
    cases hvalue : child' p with
    | error e => rfl
    | ok r => simp only [ih (hp.trans (hmono p r.1 r.2 hvalue))]

theorem decodeEntries_congr (h : SameFrom inp other start) (c : Nat) (seen : List Bytes)
    (hp : start ≤ p) : decodeEntries inp child c seen p = decodeEntries other child' c seen p := by
  induction c generalizing p seen with
  | zero => rfl
  | succ c ih =>
    rw [decodeEntries, decodeEntries, h.readName_eq hp]
    cases hname : readName other p with
    | error e => rfl
    | ok r =>
      obtain ⟨key, p1⟩ := r
      obtain ⟨rfl, rfl, _⟩ := readName_ok hname
      have hvalue := hchild (p + 1 + be (slice other p 1)) (by omega)
      simp only [h.slice_eq (p := p + 1) (by omega), hvalue]
      split_ifs
      · rfl
      · cases hvalue : child' (p + 1 + be (slice other p 1)) with
        | error e => rfl
        | ok r =>
          have := hmono _ r.1 r.2 hvalue
          simp only [ih _ (p := r.2) (by omega)]

theorem decodePayload_congr (h : SameFrom inp other start) (t : TypePrefix) (hp : start ≤ p) :
    decodePayload inp child t p = decodePayload other child' t p := by
  have htake {q : Nat} (hq : p ≤ q) (n : Nat) : takeBytes inp q n = takeBytes other q n :=
    h.takeBytes_eq (hp.trans hq) n
  cases t <;> simp only [decodePayload, h.readSize_eq hp, htake le_rfl, hchild p hp]
  case buffer | stringAscii | stringUtf8 =>
    cases hsize : readSize other p with
    | error e => rfl
    | ok r =>
      obtain ⟨_, _, _, hq⟩ := readSize_ok (n := r.1) (q := r.2) hsize
      simp only [htake (q := r.2) (by omega)]
  case contractPrincipal =>
    cases hvh : takeBytes other p 21 with
    | error e => rfl
    | ok r =>
      obtain ⟨_, _, hq, _⟩ := takeBytes_ok (b := r.1) (q := r.2) hvh
      simp only [h.readName_eq (p := r.2) (by omega)]
  case list =>
    cases hsize : readSize other p with
    | error e => rfl
    | ok r =>
      obtain ⟨_, _, _, hq⟩ := readSize_ok (n := r.1) (q := r.2) hsize
      simp only [decodeItems_congr hchild hmono r.1 (p := r.2) (by omega)]
  case tuple =>
    cases hsize : readSize other p with
    | error e => rfl
    | ok r =>
      obtain ⟨_, _, _, hq⟩ := readSize_ok (n := r.1) (q := r.2) hsize
      simp only [decodeEntries_congr hchild hmono h r.1 [] (p := r.2) (by omega)]

end SameFrom

theorem SameFrom.decodeValue_eq {inp other : Bytes} {start : Nat} (h : SameFrom inp other start)
    (levels d : Nat) {p : Nat} (hp : start ≤ p) :
    decodeValue inp levels d p = decodeValue other levels d p := by
  induction levels generalizing d p with
  | zero => rfl
  | succ levels ih =>
    rw [decodeValue, decodeValue, h.takeBytes_eq hp]
    cases htake : takeBytes other p 1 with
    | error e => rfl
    | ok r =>
      obtain ⟨_, _, hq, _⟩ := takeBytes_ok (b := r.1) (q := r.2) htake
      have hpayload (t : TypePrefix) :=
        decodePayload_congr (p := r.2) (fun q hq => ih (d + 1) hq)
          (fun _ _ _ hns => (decodeValue_within hns).cursor) h t (by omega)
      simp only [hpayload]

/-- Settles O57: every read of the decoder is at its start cursor or behind it. -/
theorem decoderReadsNothingBeforeItsStart : Obligations.DecoderReadsNothingBeforeItsStart := by
  intro inp other start hlen hbytes
  exact SameFrom.decodeValue_eq ⟨hlen, hbytes⟩ (maxDepth + 1) 0 le_rfl

/-! ### Nothing behind the end -/

/-- A payload that decodes is the decoder's answer. -/
theorem PayloadDecodes.decodePayload_eq {inp : Bytes} {child : Nat → Decoded} {t : TypePrefix}
    {p q : Nat} {payload : Payload} {children : List Node}
    (h : PayloadDecodes inp child p t payload children q) :
    decodePayload inp child t p = .ok (payload, children, q) := by
  cases h with
  | integer ht hr => rcases ht with rfl | rfl <;> simp only [decodePayload, hr]
  | data ht hn hb => rcases ht with rfl | rfl <;> simp only [decodePayload, hn, hb]
  | utf8 hn hb hg => simp only [decodePayload, hn, hb, hg]
  | empty ht => rcases ht with rfl | rfl | rfl <;> rfl
  | principal hvh => simp only [decodePayload, hvh]
  | contract hvh hname => simp only [decodePayload, hvh, hname]
  | wrapped ht hns => rcases ht with rfl | rfl | rfl <;> simp only [decodePayload, hns]
  | list hc hns => simp only [decodePayload, hc, hns]
  | tuple hc hns => simp only [decodePayload, hc, hns]

/-- Two inputs hold the same bytes from a cursor up to another, which both reach. -/
structure SameUpTo (inp other : Bytes) (p q : Nat) : Prop where
  inside : q ≤ other.length
  bytes : ∀ i, p ≤ i → i < q → inp[i]? = other[i]?

section SameUpTo
variable {inp other : Bytes} {p q : Nat}

theorem SameUpTo.mono (h : SameUpTo inp other p q) {p' q' : Nat} (hp : p ≤ p') (hq : q' ≤ q) :
    SameUpTo inp other p' q' where
  inside := hq.trans h.inside
  bytes i hi hiq := h.bytes i (hp.trans hi) (hiq.trans_le hq)

theorem SameUpTo.slice_eq (h : SameUpTo inp other p q) {off n : Nat} (hlo : p ≤ off)
    (hhi : off + n ≤ q) : slice other off n = slice inp off n := by
  refine List.ext_getElem? fun j => ?_
  rw [getElem?_slice, getElem?_slice]
  split_ifs
  · exact (h.bytes (off + j) (by omega) (by omega)).symm
  · rfl

theorem SameUpTo.takeBytes_ok (h : SameUpTo inp other p q) {off n r : Nat} {b : Bytes}
    (hlo : p ≤ off) (hr : r ≤ q) (ht : takeBytes inp off n = .ok (b, r)) :
    takeBytes other off n = .ok (b, r) := by
  obtain ⟨_, rfl, rfl, _⟩ := Machine.takeBytes_ok ht
  have := h.inside
  rw [takeBytes, if_neg (by omega), h.slice_eq hlo hr]

theorem SameUpTo.readSize_ok (h : SameUpTo inp other p q) {off n r : Nat} (hlo : p ≤ off)
    (hr : r ≤ q) (hs : readSize inp off = .ok (n, r)) : readSize other off = .ok (n, r) := by
  obtain ⟨_, rfl, hle, rfl⟩ := Machine.readSize_ok hs
  have := h.inside
  rw [Machine.readSize_eq, if_neg (by omega), h.slice_eq hlo hr, if_neg (by omega)]

theorem SameUpTo.readName_ok (h : SameUpTo inp other p q) {off r : Nat} {key : Nat × Nat}
    (hlo : p ≤ off) (hr : r ≤ q) (hn : readName inp off = .ok (key, r)) :
    readName other off = .ok (key, r) := by
  obtain ⟨rfl, rfl, _, hpos, hmax, hname⟩ := Machine.readName_ok hn
  have := h.inside
  have hlength : slice other off 1 = slice inp off 1 := h.slice_eq hlo (by omega)
  have hbytes : slice other (off + 1) (be (slice inp off 1)) =
      slice inp (off + 1) (be (slice inp off 1)) := h.slice_eq (by omega) hr
  rw [Machine.readName_eq, if_neg (by omega), hlength, if_neg (by omega), if_neg (by omega), hbytes,
    if_pos hname]

variable {child child' : Nat → Decoded}
  (hmono : ∀ p ns q, child p = .ok (ns, q) → p ≤ q)
  (hchild : ∀ p' ns q', child p' = .ok (ns, q') → SameUpTo inp other p' q' →
    child' p' = .ok (ns, q'))
include hmono

theorem decodeItems_mono {c : Nat} {nodes : List Node}
    (h : decodeItems child c p = .ok (nodes, q)) :
    p ≤ q := by
  induction c generalizing p nodes with
  | zero => cases h; exact le_rfl
  | succ c ih =>
    obtain ⟨ns, p1, rest, hns, hrest, rfl⟩ := decodeItems_succ_ok h
    exact (hmono _ _ _ hns).trans (ih hrest)

theorem decodeEntries_mono {c : Nat} {seen : List Bytes} {nodes : List Node}
    (h : decodeEntries inp child c seen p = .ok (nodes, q)) : p ≤ q := by
  induction c generalizing p seen nodes with
  | zero => cases h; exact le_rfl
  | succ c ih =>
    obtain ⟨key, p1, ns, p2, rest, hname, _, hns, hrest, rfl⟩ := decodeEntries_succ_ok h
    obtain ⟨_, hq, _⟩ := readName_ok hname
    have := hmono _ _ _ hns
    have := ih hrest
    omega

include hchild

theorem SameUpTo.decodeItems_ok (h : SameUpTo inp other p q) {c : Nat} {nodes : List Node}
    (hd : decodeItems child c p = .ok (nodes, q)) : decodeItems child' c p = .ok (nodes, q) := by
  induction c generalizing p nodes with
  | zero => exact hd
  | succ c ih =>
    obtain ⟨ns, p1, rest, hns, hrest, rfl⟩ := decodeItems_succ_ok hd
    have hfirst := hmono _ _ _ hns
    have hlast := decodeItems_mono hmono hrest
    simp only [decodeItems, hchild _ _ _ hns (h.mono le_rfl hlast),
      ih (h.mono hfirst le_rfl) hrest]

theorem SameUpTo.decodeEntries_ok (h : SameUpTo inp other p q) {c : Nat} {seen : List Bytes}
    {nodes : List Node} (hd : decodeEntries inp child c seen p = .ok (nodes, q)) :
    decodeEntries other child' c seen p = .ok (nodes, q) := by
  induction c generalizing p seen nodes with
  | zero => exact hd
  | succ c ih =>
    obtain ⟨key, p1, ns, p2, rest, hname, hnew, hns, hrest, rfl⟩ := decodeEntries_succ_ok hd
    have hfirst := hmono _ _ _ hns
    have hlast := decodeEntries_mono hmono hrest
    obtain ⟨hkey, hp1, _⟩ := Machine.readName_ok hname
    have hslice : slice other key.1 key.2 = slice inp key.1 key.2 := by
      rw [hkey]
      exact h.slice_eq (by omega) (by omega)
    have hvalue := hchild _ _ _ hns (h.mono (by omega) hlast)
    have hothers := ih (h.mono (by omega) le_rfl) hrest
    simp only [decodeEntries, h.readName_ok le_rfl (by omega) hname, hslice, hvalue, hothers,
      List.contains_iff_mem, if_neg hnew]

theorem SameUpTo.payloadDecodes (h : SameUpTo inp other p q) {t : TypePrefix} {payload : Payload}
    {children : List Node} (hd : PayloadDecodes inp child p t payload children q) :
    PayloadDecodes other child' p t payload children q := by
  cases hd with
  | integer ht hr => exact .integer ht (h.takeBytes_ok le_rfl le_rfl hr)
  | data ht hn hb =>
    obtain ⟨_, _, _, rfl⟩ := Machine.readSize_ok hn
    obtain ⟨_, _, hq, _⟩ := Machine.takeBytes_ok hb
    exact .data ht (h.readSize_ok le_rfl (by omega) hn) (h.takeBytes_ok (by omega) le_rfl hb)
  | utf8 hn hb hg =>
    obtain ⟨_, _, _, rfl⟩ := Machine.readSize_ok hn
    obtain ⟨_, _, hq, _⟩ := Machine.takeBytes_ok hb
    exact .utf8 (h.readSize_ok le_rfl (by omega) hn) (h.takeBytes_ok (by omega) le_rfl hb) hg
  | empty ht => exact .empty ht
  | principal hvh => exact .principal (h.takeBytes_ok le_rfl le_rfl hvh)
  | contract hvh hname =>
    obtain ⟨_, _, rfl, _⟩ := Machine.takeBytes_ok hvh
    obtain ⟨_, hq, _⟩ := Machine.readName_ok hname
    exact .contract (h.takeBytes_ok le_rfl (by omega) hvh) (h.readName_ok (by omega) le_rfl hname)
  | wrapped ht hns => exact .wrapped ht (hchild _ _ _ hns h)
  | list hc hns =>
    obtain ⟨_, _, _, rfl⟩ := Machine.readSize_ok hc
    have hlast := decodeItems_mono hmono hns
    exact .list (h.readSize_ok le_rfl hlast hc)
      ((h.mono (by omega) le_rfl).decodeItems_ok hmono hchild hns)
  | tuple hc hns =>
    obtain ⟨_, _, _, rfl⟩ := Machine.readSize_ok hc
    have hlast := decodeEntries_mono hmono hns
    exact .tuple (h.readSize_ok le_rfl hlast hc)
      ((h.mono (by omega) le_rfl).decodeEntries_ok hmono hchild hns)

end SameUpTo

theorem headD_slice_one (s : Bytes) (p : Nat) : (slice s p 1).headD 0 = s.getD p 0 := by
  rw [List.headD_eq_head?_getD, List.head?_eq_getElem?, getElem?_slice, if_pos Nat.one_pos,
    List.getD_eq_getElem?_getD, Nat.add_zero]

theorem SameUpTo.decodeValue_ok {inp other : Bytes} {levels d p q : Nat} {nodes : List Node}
    (h : SameUpTo inp other p q) (hd : decodeValue inp levels d p = .ok (nodes, q)) :
    decodeValue other levels d p = .ok (nodes, q) := by
  induction levels generalizing d p q nodes with
  | zero => cases hd
  | succ levels ih =>
    obtain ⟨hle, t, payload, children, ht, hpayload, rfl⟩ := Machine.decodeValue_ok hd
    have hpq : p + 1 ≤ q := by
      obtain ⟨_, _, _, _, hlt, _⟩ := decodeValue_head hd
      exact hlt
    have hp := (h.mono (p' := p + 1) (by omega) le_rfl).payloadDecodes
      (child' := fun q => decodeValue other levels (d + 1) q)
      (fun _ _ _ hns => (decodeValue_within hns).cursor)
      (fun _ _ _ hns hsame => ih hsame hns) (decodePayload_ok hpayload)
    have hbyte : other[p]? = some (inp.getD p 0) := by
      rw [← h.bytes p le_rfl hpq, List.getD_eq_getElem?_getD,
        List.getElem?_eq_getElem (Nat.lt_of_succ_le hle)]
      rfl
    rw [headD_slice_one] at ht
    rw [decodeValue_of_prefix hbyte ht, hp.decodePayload_eq]
    rfl

/-- Settles O56: the bounds of a decode's nodes, and its answer on an input with the same bytes. -/
theorem decoderConsumesExactlyItsBytes : Obligations.DecoderConsumesExactlyItsBytes := by
  intro inp p nodes q h
  have hwithin := decodeValue_within h
  obtain ⟨t, payload, children, rfl, hpq, hdeeper⟩ := decodeValue_head h
  refine ⟨⟨hpq, hwithin.inside⟩, ⟨by simp, hwithin.count⟩, rfl, fun n hn => ?_,
    fun other hq hsame => ?_⟩
  · have hmem : n ∈ children := by simpa using hn
    obtain ⟨_, hdepth⟩ := hwithin.depths _ (List.mem_map_of_mem (List.mem_cons_of_mem _ hmem))
    have := hdeeper n hmem
    have hmax : maxDepth = 16 := rfl
    omega
  · refine SameUpTo.decodeValue_ok ⟨hq, fun i hp hi => ?_⟩ h
    have hbyte := congrArg (fun s : Bytes => s[i - p]?) hsame
    simp only [getElem?_slice, if_pos (show i - p < q - p by omega),
      Nat.add_sub_cancel' hp] at hbyte
    exact hbyte.symm

/-! ### VAL_DEC's errors -/

/-- Settles O50: the function's error is the decoder's, and the size is checked behind it. -/
theorem valDecReportsDecodeErrorsBeforeOverflow :
    Obligations.ValDecReportsDecodeErrorsBeforeOverflow := by
  intro cap s _ hlen hoff
  refine ⟨fun e he => exec_fails (checkArgs_valDec cap hlen hoff) ?_, fun nodes q hok hsize =>
    exec_overflows (r := .records (nodes.map (emitNode cap)) q) (checkArgs_valDec cap hlen hoff) ?_
      ?_⟩
  · simp only [commandFunction, fValDec, State.startCursor, he]
  · simp only [commandFunction, fValDec, State.startCursor, hok]
  · simpa [resultSize] using hsize

end Sys2Proof.Machine
end

section
/-! PROOF. The node records (R255, R258): a record is read part by part, each part a byte or a
four-byte field; what a node holds is what the wire format has at its span, so the record shows
it. -/

namespace Sys2Proof.Machine

/-! ### The parts of a record -/

section Parts
variable (cap : Bool) (n : Node)

/-- PREFIX, DEPTH, FLAGS and KEY_LEN, bytes 0 to 3. -/
theorem emitNode_header :
    (emitNode cap n)[0]? = some (typePrefixByte n.tag) ∧
    (emitNode cap n)[1]? = some (BitVec.ofNat 8 n.depth) ∧
    (emitNode cap n)[2]? = some (emitFlags n cap) ∧
    (emitNode cap n)[3]? = some (BitVec.ofNat 8 ((n.key.map Prod.snd).getD 0)) :=
  ⟨rfl, rfl, rfl, rfl⟩

/-- KEY_OFF, SPAN_START and SPAN_END, bytes 4 to 15. -/
theorem emitNode_fields {j : Nat} (hj : j < 4) :
    (emitNode cap n)[4 + j]? = (beField 4 ((n.key.map Prod.fst).getD 0))[j]? ∧
    (emitNode cap n)[8 + j]? = (beField 4 (if cap then n.spanStart else 0))[j]? ∧
    (emitNode cap n)[12 + j]? = (beField 4 (if cap then n.spanEnd else 0))[j]? := by
  interval_cases j <;> exact ⟨rfl, rfl, rfl⟩

/-- PAYLOAD, from byte 16 on. -/
theorem emitNode_payload (j : Nat) : (emitNode cap n)[16 + j]? = (emitPayload n.payload)[j]? := by
  rw [emitNode, List.getElem?_append_right (by simp)]
  exact congrArg _ (Nat.add_sub_cancel_left 16 j)

end Parts

theorem getElem?_beField_four (v : Nat) {j : Nat} (hj : j < 4) :
    (beField 4 v)[j]? = some (BitVec.ofNat 8 (v / 256 ^ (3 - j))) := by
  interval_cases j <;> rfl

/-- A four-byte field of a record. -/
theorem wordAt_of_beField {record : Nat → Option Byte} {off v : Nat} (hv : v < 2 ^ 32)
    (h : ∀ j, j < 4 → record (off + j) = (beField 4 v)[j]?) : WordAt record off v :=
  ⟨hv, fun j hj => (h j hj).trans (getElem?_beField_four v hj)⟩

/-! ### The keys of a decode -/

/-- Every key was read as a name field that ends at its value's span start (R241). -/
def KeysRead (inp : Bytes) (nodes : List Node) : Prop :=
  ∀ n ∈ nodes, ∀ key, n.key = some key → ∃ p, readName inp p = .ok (key, n.spanStart)

theorem KeysRead.append {inp : Bytes} {ns rest : List Node} (h : KeysRead inp ns)
    (hrest : KeysRead inp rest) : KeysRead inp (ns ++ rest) :=
  List.forall_mem_append.2 ⟨h, hrest⟩

theorem Siblings.keysRead {inp : Bytes} {levels d p q : Nat} {nodes : List Node}
    (h : Siblings inp (fun p => decodeValue inp levels d p) p nodes q)
    (hchild : ∀ p ns q, decodeValue inp levels d p = .ok (ns, q) → KeysRead inp ns) :
    KeysRead inp nodes := by
  induction h with
  | nil => exact List.forall_mem_nil _
  | item hvalue _ ih => exact (hchild _ _ _ hvalue).append ih
  | @entry p p1 p2 q key ns rest hname hvalue _ ih =>
    obtain ⟨t, payload, children, rfl, _⟩ := decodeValue_head hvalue
    have hns := (List.forall_mem_cons.1 (hchild _ _ _ hvalue)).2
    refine KeysRead.append (List.forall_mem_cons.2 ⟨fun k hk => ?_, hns⟩) ih
    obtain rfl := Option.some.inj hk
    exact ⟨p, hname⟩

theorem decodeValue_keysRead {inp : Bytes} {levels d p q : Nat} {nodes : List Node}
    (h : decodeValue inp levels d p = .ok (nodes, q)) : KeysRead inp nodes := by
  induction levels generalizing d p q nodes with
  | zero => cases h
  | succ levels ih =>
    obtain ⟨t, payload, children, p1, rfl, _, _, _, hsiblings⟩ := decodeValue_siblings h
    exact List.forall_mem_cons.2 ⟨nofun, hsiblings.keysRead fun _ _ _ hns => ih hns⟩

/-! ### A node on the wire -/

/-- What a node of a decode stands for: its type byte and its payload, read at its span start. -/
structure NodeOnWire (inp : Bytes) (n : Node) : Prop where
  start : n.spanStart + 1 ≤ inp.length
  tag : typePrefixOf (inp.getD n.spanStart 0) = some n.tag
  payload : ∃ child children,
    PayloadDecodes inp child (n.spanStart + 1) n.tag n.payload children n.spanEnd
  stop : n.spanEnd ≤ inp.length
  depth : n.depth ≤ 16

theorem nodeOnWire_of_decodeTop {inp : Bytes} {start q k : Nat} {nodes : List Node} {n : Node}
    (h : decodeTop inp start = .ok (nodes, q)) (hk : nodes[k]? = some n) : NodeOnWire inp n := by
  have hmem := List.mem_map_of_mem (f := Node.depth) (List.mem_of_getElem? hk)
  obtain ⟨_, hdepth⟩ := (decodeValue_within h).depths _ hmem
  have hmax : maxDepth = 16 := rfl
  have hlevels : 17 - n.depth = 16 - n.depth + 1 := by omega
  have hspan := spansDecodeToTheirSubtrees inp start q k nodes n h hk
  rw [hlevels] at hspan
  obtain ⟨hle, t, payload, children, ht, hpayload, hnode⟩ := decodeValue_ok hspan
  obtain ⟨rfl, _, _, _, _, rfl⟩ := Node.mk.inj (List.cons.inj hnode).1
  rw [headD_slice_one] at ht
  exact ⟨hle, ht, ⟨_, children, decodePayload_ok hpayload⟩, (decodeValue_within hspan).inside,
    by omega⟩

/-- The type byte of each variant (R231). -/
theorem typePrefixOf_eq_some_iff (b : Byte) (t : TypePrefix) :
    typePrefixOf b = some t ↔ b = typePrefixByte t := by
  refine ⟨fun h => ?_, fun h => h ▸ typePrefixOf_byte t⟩
  have hinj : ∀ t, (typePrefixes[(typePrefixByte t).toNat]?) = some t := typePrefixOf_byte
  have hnodup : typePrefixes.Nodup := by decide
  obtain ⟨hlt, hb⟩ := List.getElem?_eq_some_iff.1 h
  obtain ⟨hlt', ht⟩ := List.getElem?_eq_some_iff.1 (hinj t)
  exact BitVec.eq_of_toNat_eq ((List.Nodup.getElem_inj_iff hnodup).1 (hb.trans ht.symm))

/-- A split has no more groups than bytes. -/
theorem IsUtf8Split.length_le {s : Bytes} {groups : List Bytes} (h : IsUtf8Split s groups) :
    groups.length ≤ s.length := by
  obtain ⟨rfl, hgroups⟩ := h
  induction groups with
  | nil => exact Nat.zero_le _
  | cons g groups ih =>
    obtain ⟨hg, hrest⟩ := List.forall_mem_cons.1 hgroups
    have hpos := List.length_pos_iff.2 (utf8Scalar_ne_nil hg)
    have := ih hrest
    rw [List.flatten_cons, List.length_append, List.length_cons]
    omega

/-! ### The payload of a record -/

/-- Bytes 16 to 31 of a record are those of a payload. -/
def HoldsPayload (record : Nat → Option Byte) (payload : Payload) : Prop :=
  ∀ j, j < 16 → record (16 + j) = (emitPayload payload)[j]?

section Payload
variable {inp : Bytes} {record : Nat → Option Byte} {payload : Payload}

theorem HoldsPayload.wordAt (h : HoldsPayload record payload) {k v : Nat} (hk : k + 4 ≤ 16)
    (hv : v < 2 ^ 32) (hpart : ∀ j, j < 4 → (emitPayload payload)[k + j]? = (beField 4 v)[j]?) :
    WordAt record (16 + k) v :=
  wordAt_of_beField hv fun j hj => by
    rw [Nat.add_assoc, h (k + j) (by omega), hpart j hj]

theorem HoldsPayload.zerosAt (h : HoldsPayload record payload) {k m : Nat} (hk : k + m ≤ 16)
    (hpart : ∀ j, j < m → (emitPayload payload)[k + j]? = some 0) :
    ZerosAt record (16 + k) m := fun j hj => by
  rw [Nat.add_assoc, h (k + j) (by omega), hpart j hj]

theorem HoldsPayload.data {len off : Nat} (h : HoldsPayload record (.data len off))
    (hlen : len < 2 ^ 32) (hoff : off < 2 ^ 32) :
    WordAt record 16 len ∧ WordAt record 20 off ∧ ZerosAt record 24 8 :=
  ⟨h.wordAt (k := 0) (by decide) hlen fun j hj => by interval_cases j <;> rfl,
    h.wordAt (k := 4) (by decide) hoff fun j hj => by interval_cases j <;> rfl,
    h.zerosAt (k := 8) (by decide) fun j hj => by interval_cases j <;> rfl⟩

theorem HoldsPayload.utf8 {len off scalars : Nat} (h : HoldsPayload record (.utf8 len off scalars))
    (hlen : len < 2 ^ 32) (hoff : off < 2 ^ 32) (hscalars : scalars < 2 ^ 32) :
    WordAt record 16 len ∧ WordAt record 20 off ∧ WordAt record 24 scalars ∧
      ZerosAt record 28 4 :=
  ⟨h.wordAt (k := 0) (by decide) hlen fun j hj => by interval_cases j <;> rfl,
    h.wordAt (k := 4) (by decide) hoff fun j hj => by interval_cases j <;> rfl,
    h.wordAt (k := 8) (by decide) hscalars fun j hj => by interval_cases j <;> rfl,
    h.zerosAt (k := 12) (by decide) fun j hj => by interval_cases j <;> rfl⟩

theorem HoldsPayload.principal {version : Byte} {off : Nat}
    (h : HoldsPayload record (.principal version off)) (hoff : off < 2 ^ 32) :
    record 16 = some version ∧ ZerosAt record 17 3 ∧ WordAt record 20 off ∧ ZerosAt record 24 8 :=
  ⟨h 0 (by decide), h.zerosAt (k := 1) (by decide) fun j hj => by interval_cases j <;> rfl,
    h.wordAt (k := 4) (by decide) hoff fun j hj => by interval_cases j <;> rfl,
    h.zerosAt (k := 8) (by decide) fun j hj => by interval_cases j <;> rfl⟩

theorem HoldsPayload.contract {version : Byte} {off nameOff nameLen : Nat}
    (h : HoldsPayload record (.contract version off nameOff nameLen)) (hoff : off < 2 ^ 32)
    (hname : nameOff < 2 ^ 32) :
    record 16 = some version ∧ record 17 = some (BitVec.ofNat 8 nameLen) ∧ ZerosAt record 18 2 ∧
      WordAt record 20 off ∧ WordAt record 24 nameOff ∧ ZerosAt record 28 4 :=
  ⟨h 0 (by decide), h 1 (by decide),
    h.zerosAt (k := 2) (by decide) fun j hj => by interval_cases j <;> rfl,
    h.wordAt (k := 4) (by decide) hoff fun j hj => by interval_cases j <;> rfl,
    h.wordAt (k := 8) (by decide) hname fun j hj => by interval_cases j <;> rfl,
    h.zerosAt (k := 12) (by decide) fun j hj => by interval_cases j <;> rfl⟩

theorem HoldsPayload.count {c : Nat} (h : HoldsPayload record (.count c)) (hc : c < 2 ^ 32) :
    WordAt record 16 c ∧ ZerosAt record 20 12 :=
  ⟨h.wordAt (k := 0) (by decide) hc fun j hj => by interval_cases j <;> rfl,
    h.zerosAt (k := 4) (by decide) fun j hj => by interval_cases j <;> rfl⟩

theorem HoldsPayload.empty (h : HoldsPayload record .empty) : ZerosAt record 16 16 :=
  h.zerosAt (k := 0) (by decide) fun j hj => by interval_cases j <;> rfl

theorem headD_slice (s : Bytes) (p n : Nat) : (slice s p (n + 1)).headD 0 = s.getD p 0 := by
  rw [List.headD_eq_head?_getD, List.head?_eq_getElem?, getElem?_slice, if_pos (Nat.succ_pos n),
    List.getD_eq_getElem?_getD, Nat.add_zero]

theorem some_getD_of_lt {s : Bytes} {p : Nat} (h : p < s.length) : some (s.getD p 0) = s[p]? := by
  rw [List.getD_eq_getElem?_getD, List.getElem?_eq_getElem h]
  rfl

/-- A one-byte field as a number. -/
theorem ofNat_be_slice_one {s : Bytes} {p : Nat} (h : p < s.length) :
    some (BitVec.ofNat 8 (be (slice s p 1))) = s[p]? := by
  have hslice : slice s p 1 = [s[p]] := by
    rw [slice, List.drop_eq_getElem_cons h]
    rfl
  rw [hslice, be_singleton, BitVec.ofNat_toNat, BitVec.setWidth_eq, List.getElem?_eq_getElem h]

/-- The record's payload shows the fields that the wire has behind the type byte (R255). -/
theorem payloadOf_of_wire {n : Node} (hn : NodeOnWire inp n) (hlen : inp.length < 2 ^ 32)
    (hrec : HoldsPayload record n.payload) : PayloadOf inp n.spanStart record := by
  obtain ⟨tag, depth, key, start, stop, payload⟩ := n
  obtain ⟨_, htag, ⟨child, children, hp⟩, hstop, _⟩ := hn
  have hbyte : inp.getD start 0 = typePrefixByte tag := (typePrefixOf_eq_some_iff _ _).1 htag
  simp only at hp hrec hstop ⊢
  rw [PayloadOf, hbyte]
  cases hp with
  | integer ht hr =>
    obtain ⟨_, rfl, _, _⟩ := takeBytes_ok hr
    rcases ht with rfl | rfl <;>
      exact fun j hj => (hrec j hj).trans (by rw [emitPayload, getElem?_slice, if_pos hj])
  | data ht hn hb =>
    obtain ⟨_, rfl, hmax, rfl⟩ := readSize_ok hn
    have := hmax.trans_lt (show maxDecl < 2 ^ 32 by decide)
    rcases ht with rfl | rfl <;> exact hrec.data (by omega) (by omega)
  | utf8 hn hb hg =>
    obtain ⟨_, rfl, hmax, rfl⟩ := readSize_ok hn
    obtain ⟨_, rfl, _, hblen⟩ := takeBytes_ok hb
    have hsplit := (utf8Split_eq_ok_iff _ _).1 hg
    have hgroups := hsplit.length_le
    have := hmax.trans_lt (show maxDecl < 2 ^ 32 by decide)
    obtain ⟨hsize, hoff, hscalars, hzeros⟩ := hrec.utf8 (by omega) (by omega) (by omega)
    exact ⟨hsize, hoff, ⟨_, hsplit, hscalars⟩, hzeros⟩
  | empty ht => rcases ht with rfl | rfl | rfl <;> exact hrec.empty
  | principal hvh =>
    obtain ⟨hle, rfl, hq, _⟩ := takeBytes_ok hvh
    have hoff : stop - principalHashLen = start + 2 := by rw [hq]; exact Nat.add_sub_cancel _ 20
    rw [hoff, headD_slice] at hrec
    obtain ⟨hversion, hzeros, hhash, htail⟩ := hrec.principal (by omega)
    exact ⟨hversion.trans (some_getD_of_lt (by omega)), hzeros, hhash, htail⟩
  | contract hvh hname =>
    obtain ⟨hle, rfl, rfl, _⟩ := takeBytes_ok hvh
    obtain ⟨rfl, hq, hle', _⟩ := readName_ok hname
    have hoff : start + 1 + 21 - principalHashLen = start + 2 := Nat.add_sub_cancel _ 20
    rw [hoff, headD_slice] at hrec
    obtain ⟨hversion, hlength, hzeros, hhash, hnameOff, htail⟩ :=
      hrec.contract (by omega) (by omega)
    exact ⟨hversion.trans (some_getD_of_lt (by omega)),
      hlength.trans (ofNat_be_slice_one (by omega)), hzeros, hhash, hnameOff, htail⟩
  | wrapped ht _ => rcases ht with rfl | rfl | rfl <;> exact hrec.empty
  | list hc _ =>
    obtain ⟨_, rfl, hmax, _⟩ := readSize_ok hc
    exact hrec.count (hmax.trans_lt (by decide))
  | tuple hc _ =>
    obtain ⟨_, rfl, hmax, _⟩ := readSize_ok hc
    exact hrec.count (hmax.trans_lt (by decide))

end Payload

/-! ### The whole record -/

/-- KEYED, SPAN and the zeros of FLAGS. -/
theorem emitFlags_bits (n : Node) (cap : Bool) :
    (emitFlags n cap).getLsbD 0 = n.key.isSome ∧ (emitFlags n cap).getLsbD 1 = cap ∧
      (emitFlags n cap).extractLsb' 2 6 = 0 := by
  unfold emitFlags
  cases n.key.isSome <;> cases cap <;> decide

/-- A record of a decoded node has R255's fields. -/
theorem recordOf_emitNode {cap : Bool} {inp : Bytes} {n : Node} {record : Nat → Option Byte}
    (hlen : inp.length < 2 ^ 32) (hn : NodeOnWire inp n)
    (hkey : ∀ key, n.key = some key → ∃ p, readName inp p = .ok (key, n.spanStart))
    (hrec : ∀ j, j < 32 → record j = (emitNode cap n)[j]?) : RecordOf cap inp n record := by
  obtain ⟨hprefix, hdepth, hflags, hkeyLen⟩ := emitNode_header cap n
  have hstart := hn.start
  have hstop := hn.stop
  have hspan {v : Nat} (hv : v ≤ inp.length) : (if cap then v else 0) < 2 ^ 32 := by
    split_ifs <;> omega
  have hword {off v : Nat} (hoff : off + 4 ≤ 32) (hv : v < 2 ^ 32)
      (h : ∀ j, j < 4 → (emitNode cap n)[off + j]? = (beField 4 v)[j]?) : WordAt record off v :=
    wordAt_of_beField hv fun j hj => (hrec _ (by omega)).trans (h j hj)
  refine ⟨⟨by omega, ?_⟩, ⟨hn.depth, (hrec 1 (by decide)).trans hdepth⟩,
    ⟨_, (hrec 2 (by decide)).trans hflags, emitFlags_bits n cap⟩, fun hnone => ?_,
    fun off len hsome => ?_, ⟨?_, ?_⟩, ?_⟩
  · rw [hrec 0 (by decide), hprefix, ← (typePrefixOf_eq_some_iff _ _).1 hn.tag,
      some_getD_of_lt (by omega)]
  · intro j hj
    rw [hrec _ (by omega), emitNode, hnone]
    interval_cases j <;> rfl
  · obtain ⟨p, hname⟩ := hkey _ hsome
    obtain ⟨hkeyEq, hspanEq, _, hpos, hmax, _⟩ := readName_ok hname
    obtain ⟨rfl, rfl⟩ := Prod.mk.inj hkeyEq
    have hlast := hkeyLen
    rw [hsome, Option.map_some, Option.getD_some] at hlast
    have hlength := (hrec 3 (by decide)).trans hlast
    refine ⟨⟨hpos, hmax, by omega, hspanEq.symm⟩, ?_, hlength, hword (by decide) (by omega) ?_⟩
    · rw [hlength, Nat.add_sub_cancel]
      exact ofNat_be_slice_one (by omega)
    · intro j hj
      rw [(emitNode_fields cap n hj).1, hsome]
      rfl
  · exact hword (by decide) (hspan (by omega)) fun j hj => (emitNode_fields cap n hj).2.1
  · exact hword (by decide) (hspan hstop) fun j hj => (emitNode_fields cap n hj).2.2
  · exact payloadOf_of_wire hn hlen fun j hj =>
      (hrec _ (by omega)).trans (emitNode_payload cap n j)

/-! ### VAL_DEC -/

/-- The records of a decode, 32 bytes each (R255). -/
theorem emitNode_length_of_decodeTop {inp : Bytes} {start q : Nat} {nodes : List Node}
    (h : decodeTop inp start = .ok (nodes, q)) (cap : Bool) :
    ∀ r ∈ nodes.map (emitNode cap), r.length = 32 :=
  List.forall_mem_map.2 fun n hn => emitNode_length cap n (decodeTop_raw_length h n hn)

/-- Byte j of record k, in the records one after the other. -/
theorem getElem?_flatten_records {rs : List Bytes} (hrs : ∀ r ∈ rs, r.length = 32) {k j : Nat}
    {r : Bytes} (hr : rs[k]? = some r) (hj : j < 32) : rs.flatten[32 * k + j]? = r[j]? := by
  have hk : k < rs.length := (List.getElem?_eq_some_iff.1 hr).1
  have hslice := congrArg (fun l : List Bytes => l[k]?) (map_slice_flatten hrs)
  simp only [List.getElem?_map, List.getElem?_range hk, Option.map_some] at hslice
  rw [← Option.some.inj (hslice.trans hr), getElem?_slice, if_pos hj]

/-- Settles O49: the nodes fit, so their records are committed, and each shows what the wire has. -/
theorem valDecCompletes : Obligations.ValDecCompletes := by
  intro cap s nodes q hlegal hlen hoff h hsize
  have hout := hlegal.2.1.2
  have hin := hlegal.1.2
  have hrecords := emitNode_length_of_decodeTop h cap
  have hcount : 32 * (nodes.map (emitNode cap)).length ≤ s.params.outBufSize := by
    rwa [List.length_map]
  have hf : commandFunction s (.valDec cap) s.input =
      .ok (.records (nodes.map (emitNode cap)) q) := by
    simp only [commandFunction, fValDec, State.startCursor, h]
  obtain ⟨⟨hpq, hq⟩, ⟨hone, _⟩, _⟩ := decoderConsumesExactlyItsBytes _ _ _ _ h
  rw [State.input_length] at hq
  have hdone := commitRecords_doneRecords s (nodes.map (emitNode cap)) q hrecords (by omega)
    (by omega)
  refine ⟨_, exec_commits (checkArgs_valDec cap hlen hoff) hf hcount, hdone, ⟨hone, hpq, hq⟩,
    fun k n hk => ?_⟩
  have hinput : s.input.length < 2 ^ 32 := by
    rw [State.input_length]
    omega
  refine recordOf_emitNode hinput (nodeOnWire_of_decodeTop h hk)
    (decodeValue_keysRead h n (List.mem_of_getElem? hk)) fun j hj => ?_
  have hr : (nodes.map (emitNode cap))[k]? = some (emitNode cap n) := by
    rw [List.getElem?_map, hk, Option.map_some]
  rw [commit_records, hdone.result.outByte, getElem?_flatten_records hrecords hr hj]

/-! ### CAP -/

/-- The function's answer, with the records of the decoder's nodes. -/
theorem fValDec_eq_map (cap : Bool) (start : Nat) (inp : Bytes) :
    fValDec cap start inp =
      (decodeTop inp start).map (fun r => .records (r.1.map (emitNode cap)) r.2) := by
  rw [fValDec]
  cases decodeTop inp start <;> rfl

theorem fValDec_error_iff (cap : Bool) (start : Nat) (inp : Bytes) (e : CmdError) :
    fValDec cap start inp = .error e ↔ decodeTop inp start = .error e := by
  rw [fValDec_eq_map]
  cases decodeTop inp start <;> simp [Except.map]

/-- Bytes 8 to 15 of a record. -/
theorem slice_emitNode_span (cap : Bool) (n : Node) :
    slice (emitNode cap n) 8 8 =
      beField 4 (if cap then n.spanStart else 0) ++ beField 4 (if cap then n.spanEnd else 0) := rfl

theorem slice_emitNode_uncaptured (n : Node) :
    slice (emitNode false n) 8 8 = List.replicate 8 0 := by
  rw [slice_emitNode_span]
  show beField 4 0 ++ beField 4 0 = _
  decide

/-- The two records of a node, byte by byte. -/
theorem getElem?_emitNode_cap (n : Node) {j : Nat} (h2 : j ≠ 2) (hj : j < 8 ∨ 16 ≤ j) :
    (emitNode true n)[j]? = (emitNode false n)[j]? := by
  rcases hj with hj | hj
  · interval_cases j
    on_goal 3 => exact absurd rfl h2
    all_goals rfl
  · obtain ⟨i, rfl⟩ := Nat.exists_eq_add_of_le hj
    rw [emitNode_payload, emitNode_payload]

theorem emitFlags_cap (n : Node) :
    emitFlags n true = emitFlags n false ||| 2 ∧ emitFlags n false &&& 2 = 0 := by
  unfold emitFlags
  cases n.key.isSome <;> decide

/-- Settles O59: both runs emit the records of one list of nodes. -/
theorem captureChangesOnlySpanFields : Obligations.CaptureChangesOnlySpanFields := by
  refine ⟨fun inp start e => (fValDec_error_iff _ _ _ _).trans (fValDec_error_iff _ _ _ _).symm,
    fun inp start q rs h => ?_⟩
  cases hdecode : decodeTop inp start with
  | error e => exact nomatch ((fValDec_error_iff true start inp e).2 hdecode).symm.trans h
  | ok r =>
    obtain ⟨nodes, q'⟩ := r
    rw [fValDec_eq_map, hdecode] at h
    obtain ⟨rfl, rfl⟩ : nodes.map (emitNode true) = rs ∧ q' = q := by simpa [Except.map] using h
    have hspan : ∀ (k : Nat) (n : Node) (r : Bytes), nodes[k]? = some n →
        (nodes.map (emitNode true))[k]? = some r →
          slice r 8 8 = beField 4 n.spanStart ++ beField 4 n.spanEnd := by
      intro k n r hn hr
      rw [List.getElem?_map, hn, Option.map_some] at hr
      rw [← Option.some.inj hr, slice_emitNode_span]
      rfl
    refine ⟨nodes.map (emitNode false), by rw [fValDec_eq_map, hdecode]; rfl, by simp, ?_,
      ⟨nodes, rfl, by simp, hspan⟩, fun k r r0 hr hr0 => ?_⟩
    · obtain ⟨t, payload, children, hnodes, _⟩ := decodeValue_head hdecode
      refine ⟨_, by rw [hnodes, List.map_cons, List.getElem?_cons_zero], ?_⟩
      rw [slice_emitNode_span]
      rfl
    · rw [List.getElem?_map, Option.map_eq_some_iff] at hr hr0
      obtain ⟨n, hn, rfl⟩ := hr
      obtain ⟨n', hn', rfl⟩ := hr0
      obtain rfl := Option.some.inj (hn.symm.trans hn')
      have hraw := decodeTop_raw_length hdecode n (List.mem_of_getElem? hn)
      obtain ⟨hflags, hclear⟩ := emitFlags_cap n
      exact ⟨⟨emitNode_length _ n hraw, emitNode_length _ n hraw⟩, slice_emitNode_uncaptured n,
        fun j h2 hj => getElem?_emitNode_cap n h2 hj, hflags, hclear⟩

end Sys2Proof.Machine
end

section
/-! PROOF. The wire format at a cursor (R230 to R243): what each reader answers where given bytes
stand, and from that the leaf values, the wrappers and the containers. -/

namespace Sys2Proof.Machine

/-! ### Bytes that stand at a cursor -/

/-- The bytes `w` stand at cursor `p` of the input; or records at an index of a list of them. -/
def StandsAt {α : Type} (w inp : List α) (p : Nat) : Prop :=
  ∃ pre post, inp = pre ++ w ++ post ∧ pre.length = p

section StandsAt
variable {α : Type} {inp w v : List α} {p : Nat}

theorem standsAt_append (pre w post : List α) : StandsAt w (pre ++ w ++ post) pre.length :=
  ⟨pre, post, rfl, rfl⟩

theorem StandsAt.left (h : StandsAt (w ++ v) inp p) : StandsAt w inp p := by
  obtain ⟨pre, post, rfl, rfl⟩ := h
  exact ⟨pre, v ++ post, by simp, rfl⟩

theorem StandsAt.right (h : StandsAt (w ++ v) inp p) : StandsAt v inp (p + w.length) := by
  obtain ⟨pre, post, rfl, rfl⟩ := h
  exact ⟨pre ++ w, post, by simp, by simp⟩

theorem StandsAt.tail {b : α} (h : StandsAt (b :: w) inp p) : StandsAt w inp (p + 1) :=
  StandsAt.right (w := [b]) h

theorem StandsAt.getElem? {b : α} (h : StandsAt (b :: w) inp p) : inp[p]? = some b := by
  obtain ⟨pre, post, rfl, rfl⟩ := h
  simp

theorem StandsAt.le (h : StandsAt w inp p) : p + w.length ≤ inp.length := by
  obtain ⟨pre, post, rfl, rfl⟩ := h
  simp

end StandsAt

section BytesAt
variable {inp w : Bytes} {p : Nat}

theorem StandsAt.slice_eq (h : StandsAt w inp p) : slice inp p w.length = w := by
  obtain ⟨pre, post, rfl, rfl⟩ := h
  exact slice_middle pre w post

theorem StandsAt.takeBytes_eq (h : StandsAt w inp p) :
    takeBytes inp p w.length = .ok (w, p + w.length) := by
  rw [takeBytes, if_neg (Nat.not_lt.2 h.le), h.slice_eq]

theorem StandsAt.takeBytes_of_length {n : Nat} (h : StandsAt w inp p) (hn : w.length = n) :
    takeBytes inp p n = .ok (w, p + n) := hn ▸ h.takeBytes_eq

theorem standsAt_of_drop {post : Bytes} (h : inp.drop p = w ++ post) (hw : w ≠ []) :
    StandsAt w inp p := by
  have hp : p ≤ inp.length := by
    by_contra hp
    rw [List.drop_eq_nil_of_le (by omega)] at h
    exact hw (List.append_eq_nil_iff.1 h.symm).1
  refine ⟨inp.take p, post, ?_, List.length_take_of_le hp⟩
  rw [List.append_assoc, ← h, List.take_append_drop]

theorem standsAt_of_slice (h : slice inp p w.length = w) (hw : w ≠ []) : StandsAt w inp p :=
  standsAt_of_drop (post := (inp.drop p).drop w.length)
    ((List.take_append_drop w.length (inp.drop p)).symm.trans (congrArg (· ++ _) h)) hw

end BytesAt

/-! ### The readers -/

section Readers
variable {inp : Bytes} {p : Nat}

theorem takeBytes_of_cut {n : Nat} (h : inp.length < p + n) :
    takeBytes inp p n = .error .truncatedInput := if_pos h

/-- A size field is known by its bytes. -/
theorem readSize_of_slice {c : Nat} (hslice : slice inp p 4 = beField 4 c) (hc : c ≤ maxDecl) :
    readSize inp p = .ok (c, p + 4) := by
  have hlength : (slice inp p 4).length = 4 := by rw [hslice, beField_length]
  have hle : ¬ inp.length < p + 4 := by
    rw [slice, List.length_take, List.length_drop] at hlength
    omega
  have hvalue : be (slice inp p 4) = c := by
    rw [hslice, be_beField, Nat.mod_eq_of_lt (hc.trans_lt (by decide))]
  rw [readSize_eq, hvalue, if_neg hle, if_neg (Nat.not_lt.2 hc)]

theorem StandsAt.readSize_eq {c : Nat} (h : StandsAt (beField 4 c) inp p) (hc : c ≤ maxDecl) :
    readSize inp p = .ok (c, p + 4) :=
  readSize_of_slice (by simpa using h.slice_eq) hc

theorem be_slice_one {k : Byte} (hk : inp[p]? = some k) : be (slice inp p 1) = k.toNat := by
  obtain ⟨hlt, rfl⟩ := List.getElem?_eq_some_iff.1 hk
  rw [slice, List.drop_eq_getElem_cons hlt]
  exact be_singleton _

theorem readName_of_cut (h : inp.length < p + 1) : readName inp p = .error .truncatedInput := by
  rw [readName_eq, if_pos h]

/-- `ReadName` behind a length byte that is there (R238). -/
theorem readName_of_getElem? {k : Byte} (hk : inp[p]? = some k) :
    readName inp p =
      if k.toNat = 0 ∨ nameMax < k.toNat then .error .invalidName
      else if inp.length < p + 1 + k.toNat then .error .truncatedInput
      else if isClarityName (slice inp (p + 1) k.toNat) = true then
        .ok ((p + 1, k.toNat), p + 1 + k.toNat)
      else .error .invalidName := by
  obtain ⟨hlt, _⟩ := List.getElem?_eq_some_iff.1 hk
  rw [readName_eq, if_neg (by omega), be_slice_one hk]

theorem readName_of_bad_length {k : Byte} (hk : inp[p]? = some k)
    (hbad : k.toNat = 0 ∨ 128 < k.toNat) : readName inp p = .error .invalidName := by
  rw [readName_of_getElem? hk]
  exact if_pos hbad

theorem readName_of_cut_name {k : Byte} (hk : inp[p]? = some k) (hpos : 0 < k.toNat)
    (hle : k.toNat ≤ 128) (hcut : inp.length < p + 1 + k.toNat) :
    readName inp p = .error .truncatedInput := by
  have hgood : ¬ (k.toNat = 0 ∨ nameMax < k.toNat) := not_or.2 ⟨hpos.ne', Nat.not_lt.2 hle⟩
  rw [readName_of_getElem? hk, if_neg hgood, if_pos hcut]

theorem length_of_isClarityName {name : Bytes} (h : isClarityName name = true) :
    1 ≤ name.length ∧ name.length ≤ 128 := by
  simp only [isClarityName, Bool.and_eq_true, decide_eq_true_eq] at h
  exact h.1

/-- A name field of any length up to 128 is judged by its name. -/
theorem StandsAt.readName_eq {name : Bytes} (h : StandsAt (wireName name) inp p)
    (hlen : name.length ≤ 128) :
    readName inp p =
      if isClarityName name = true then .ok ((p + 1, name.length), p + 1 + name.length)
      else .error .invalidName := by
  have hk : (BitVec.ofNat 8 name.length).toNat = name.length :=
    (BitVec.toNat_ofNat ..).trans (Nat.mod_eq_of_lt (by omega))
  have hname : StandsAt name inp (p + 1) := h.tail
  rw [readName_of_getElem? h.getElem?, hk, hname.slice_eq, if_neg (Nat.not_lt.2 hname.le)]
  rcases Nat.eq_zero_or_pos name.length with hzero | hpos
  · have hempty : ¬ isClarityName name = true := fun hname => by
      have := length_of_isClarityName hname
      omega
    rw [if_pos (.inl hzero), if_neg hempty]
  · have hlength : ¬ (name.length = 0 ∨ nameMax < name.length) :=
      not_or.2 ⟨hpos.ne', Nat.not_lt.2 hlen⟩
    rw [if_neg hlength]

theorem StandsAt.readName_ok {name : Bytes} (h : StandsAt (wireName name) inp p)
    (hname : isClarityName name = true) :
    readName inp p = .ok ((p + 1, name.length), p + 1 + name.length) := by
  rw [h.readName_eq (length_of_isClarityName hname).2, if_pos hname]

end Readers

/-! ### Payloads by their bytes -/

section Payloads
variable {inp : Bytes} {child : Nat → Decoded} {p : Nat} {t : TypePrefix}

theorem StandsAt.integer {r : Bytes} (h : StandsAt r inp p) (hr : r.length = 16)
    (ht : t = .int ∨ t = .uint) : PayloadDecodes inp child p t (.raw r) [] (p + 16) :=
  .integer ht (h.takeBytes_of_length hr)

section Sized
variable {data : Bytes} (h : StandsAt (beField 4 data.length ++ data) inp p)
  (hlen : data.length ≤ maxDecl)
include h hlen

theorem StandsAt.sized : readSize inp p = .ok (data.length, p + 4) ∧
    takeBytes inp (p + 4) data.length = .ok (data, p + 4 + data.length) := by
  refine ⟨h.left.readSize_eq hlen, ?_⟩
  simpa using h.right.takeBytes_eq

theorem StandsAt.counted (ht : t = .buffer ∨ t = .stringAscii) :
    PayloadDecodes inp child p t (.data data.length (p + 4)) [] (p + 4 + data.length) :=
  .data ht (h.sized hlen).1 (h.sized hlen).2

theorem StandsAt.utf8 {groups : List Bytes} (hgroups : utf8Split data = .ok groups) :
    PayloadDecodes inp child p .stringUtf8 (.utf8 data.length (p + 4) groups.length) []
      (p + 4 + data.length) :=
  .utf8 (h.sized hlen).1 (h.sized hlen).2 hgroups

theorem StandsAt.utf8_error {e : CmdError} (he : utf8Split data = .error e) :
    decodePayload inp child .stringUtf8 p = .error .invalidCharacter := by
  obtain rfl := utf8Split_error he
  simp only [decodePayload, (h.sized hlen).1, (h.sized hlen).2, he]

end Sized

theorem StandsAt.principal {version : Byte} {hash : Bytes}
    (h : StandsAt (version :: hash) inp p) (hhash : hash.length = 20) :
    PayloadDecodes inp child p .standardPrincipal (.principal version (p + 1)) [] (p + 21) :=
  .principal (h.takeBytes_of_length (n := 21) (by simp [hhash]))

/-- A contract principal's name is read behind its 21 fixed bytes. -/
theorem StandsAt.contract_eq {vh : Bytes} (h : StandsAt vh inp p) (hvh : vh.length = 21) :
    decodePayload inp child .contractPrincipal p =
      (readName inp (p + 21)).map fun r =>
        (.contract (vh.headD 0) (p + 1) r.1.1 r.1.2, [], r.2) := by
  simp only [decodePayload, h.takeBytes_of_length hvh]
  cases readName inp (p + 21) <;> rfl

theorem StandsAt.contract {version : Byte} {hash name : Bytes}
    (h : StandsAt (version :: (hash ++ wireName name)) inp p) (hhash : hash.length = 20)
    (hname : isClarityName name = true) :
    PayloadDecodes inp child p .contractPrincipal
      (.contract version (p + 1) (p + 22) name.length) [] (p + 22 + name.length) := by
  have hsplit : StandsAt ((version :: hash) ++ wireName name) inp p := h
  have hvh : (version :: hash).length = 21 := by simp [hhash]
  have hfield := hsplit.right
  rw [hvh] at hfield
  exact .contract (hsplit.left.takeBytes_of_length hvh) (hfield.readName_ok hname)

end Payloads

/-- A value by its type byte and its payload. -/
theorem decodeValue_of_payload {inp : Bytes} {levels d start q : Nat} {b : Byte} {t : TypePrefix}
    {payload : Payload} {children : List Node} (hb : inp[start]? = some b)
    (ht : typePrefixOf b = some t)
    (h : PayloadDecodes inp (fun p => decodeValue inp levels (d + 1) p) (start + 1) t payload
      children q) :
    decodeValue inp (levels + 1) d start =
      .ok (⟨t, d, none, start, q, payload⟩ :: children, q) := by
  rw [decodeValue_of_prefix hb ht, h.decodePayload_eq]
  rfl

/-- Behind the input's last byte there is no type byte. -/
theorem decodeValue_at_end {inp : Bytes} {start : Nat} (h : inp.length ≤ start) (levels d : Nat) :
    decodeValue inp (levels + 1) d start = .error .truncatedInput := by
  simp only [decodeValue, takeBytes_of_cut (show inp.length < start + 1 by omega)]

theorem decodeValue_bad_prefix {inp : Bytes} {start : Nat} {b : Byte} (hb : inp[start]? = some b)
    (ht : typePrefixOf b = none) (levels d : Nat) :
    decodeValue inp (levels + 1) d start = .error .badTypePrefix := by
  have hstands : StandsAt [b] inp start := by
    obtain ⟨hlt, rfl⟩ := List.getElem?_eq_some_iff.1 hb
    exact ⟨inp.take start, inp.drop (start + 1), by simp, by simp; omega⟩
  have htake : takeBytes inp start 1 = .ok ([b], start + 1) := hstands.takeBytes_eq
  simp only [decodeValue, htake, List.headD_cons, ht]

/-! ### Leaf values -/

section Leaves
variable (pre post : Bytes) (levels d : Nat)

/-- The payload of a value whose wire form stands between any bytes. -/
theorem standsAt_payload (b : Byte) (w : Bytes) :
    (pre ++ b :: w ++ post)[pre.length]? = some b ∧
      StandsAt w (pre ++ b :: w ++ post) (pre.length + 1) :=
  ⟨(standsAt_append pre (b :: w) post).getElem?, (standsAt_append pre (b :: w) post).tail⟩

theorem decodeValue_integers {r : Bytes} (hr : r.length = 16) :
    decodeValue (pre ++ 0x00 :: r ++ post) (levels + 1) d pre.length =
        .ok ([⟨.int, d, none, pre.length, pre.length + 17, .raw r⟩], pre.length + 17) ∧
      decodeValue (pre ++ 0x01 :: r ++ post) (levels + 1) d pre.length =
        .ok ([⟨.uint, d, none, pre.length, pre.length + 17, .raw r⟩], pre.length + 17) := by
  obtain ⟨hint, hr0⟩ := standsAt_payload pre post 0x00 r
  obtain ⟨huint, hr1⟩ := standsAt_payload pre post 0x01 r
  exact ⟨decodeValue_of_payload hint rfl (hr0.integer hr (.inl rfl)),
    decodeValue_of_payload huint rfl (hr1.integer hr (.inr rfl))⟩

theorem decodeValue_data {data : Bytes} (hlen : data.length ≤ maxDecl) {b : Byte}
    {t : TypePrefix} (hb : typePrefixOf b = some t) (ht : t = .buffer ∨ t = .stringAscii) :
    decodeValue (pre ++ b :: (beField 4 data.length ++ data) ++ post) (levels + 1) d pre.length =
      .ok ([⟨t, d, none, pre.length, pre.length + 5 + data.length,
        .data data.length (pre.length + 5)⟩], pre.length + 5 + data.length) := by
  obtain ⟨hprefix, hdata⟩ := standsAt_payload pre post b (beField 4 data.length ++ data)
  exact decodeValue_of_payload hprefix hb (hdata.counted hlen ht)

theorem decodeValue_stringUtf8 {data : Bytes} (hlen : data.length ≤ maxDecl) :
    (∀ e, utf8Split data = .error e →
      decodeValue (pre ++ 0x0E :: (beField 4 data.length ++ data) ++ post) (levels + 1) d
        pre.length = .error .invalidCharacter) ∧
    ∀ groups, utf8Split data = .ok groups →
      decodeValue (pre ++ 0x0E :: (beField 4 data.length ++ data) ++ post) (levels + 1) d
        pre.length =
          .ok ([⟨.stringUtf8, d, none, pre.length, pre.length + 5 + data.length,
            .utf8 data.length (pre.length + 5) groups.length⟩],
            pre.length + 5 + data.length) := by
  obtain ⟨hprefix, hdata⟩ := standsAt_payload pre post 0x0E (beField 4 data.length ++ data)
  exact ⟨fun e he => decodeValue_payload_error hprefix rfl (hdata.utf8_error hlen he),
    fun groups hgroups => decodeValue_of_payload hprefix rfl (hdata.utf8 hlen hgroups)⟩

theorem decodeValue_empty {b : Byte} {t : TypePrefix} (hb : typePrefixOf b = some t)
    (ht : t = .boolTrue ∨ t = .boolFalse ∨ t = .optionalNone) :
    decodeValue (pre ++ b :: post) (levels + 1) d pre.length =
      .ok ([⟨t, d, none, pre.length, pre.length + 1, .empty⟩], pre.length + 1) :=
  decodeValue_of_payload (by simp) hb (.empty ht)

theorem decodeValue_standardPrincipal (version : Byte) {hash : Bytes} (hhash : hash.length = 20) :
    decodeValue (pre ++ 0x05 :: version :: hash ++ post) (levels + 1) d pre.length =
      .ok ([⟨.standardPrincipal, d, none, pre.length, pre.length + 22,
        .principal version (pre.length + 2)⟩], pre.length + 22) := by
  obtain ⟨hprefix, hvh⟩ := standsAt_payload pre post 0x05 (version :: hash)
  exact decodeValue_of_payload hprefix rfl (hvh.principal hhash)

theorem decodeValue_contractPrincipal (version : Byte) {hash name : Bytes}
    (hhash : hash.length = 20) (hlen : name.length ≤ 128) :
    decodeValue (pre ++ 0x06 :: version :: (hash ++ BitVec.ofNat 8 name.length :: name) ++ post)
        (levels + 1) d pre.length =
      (if isClarityName name then
        .ok ([⟨.contractPrincipal, d, none, pre.length, pre.length + 23 + name.length,
          .contract version (pre.length + 2) (pre.length + 23) name.length⟩],
          pre.length + 23 + name.length)
      else .error .invalidName) := by
  obtain ⟨hprefix, hfields⟩ :=
    standsAt_payload pre post 0x06 (version :: (hash ++ BitVec.ofNat 8 name.length :: name))
  split_ifs with hname
  · exact decodeValue_of_payload hprefix rfl (hfields.contract hhash hname)
  · have hsplit : StandsAt ((version :: hash) ++ wireName name) _ _ := hfields
    have hvh : (version :: hash).length = 21 := by simp [hhash]
    have hfield := hsplit.right
    rw [hvh] at hfield
    refine decodeValue_payload_error hprefix rfl ?_
    rw [hsplit.left.contract_eq hvh, hfield.readName_eq hlen, if_neg hname]
    rfl

/-- A value that breaks off in its fixed field, for every type byte that has one (R240). -/
theorem decodeValue_short_field {r : Bytes} {tag : Byte} {t : TypePrefix} {n : Nat}
    (htag : typePrefixOf tag = some t) (hr : r.length < n)
    (ht : n = 16 ∧ (t = .int ∨ t = .uint) ∨
      n = 21 ∧ (t = .standardPrincipal ∨ t = .contractPrincipal)) :
    decodeValue (pre ++ tag :: r) (levels + 1) d pre.length = .error .truncatedInput := by
  have hcut : takeBytes (pre ++ tag :: r) (pre.length + 1) n = .error .truncatedInput :=
    takeBytes_of_cut (by simp only [List.length_append, List.length_cons]; omega)
  refine decodeValue_payload_error (by simp) htag ?_
  rcases ht with ⟨rfl, rfl | rfl⟩ | ⟨rfl, rfl | rfl⟩ <;> simp only [decodePayload, hcut]

/-- A contract principal fails with its name field's error. -/
theorem decodeValue_contract_name_error {principal field : Bytes} {e : CmdError}
    (hprincipal : principal.length = 21)
    (he : readName (pre ++ 0x06 :: (principal ++ field)) (pre.length + 22) = .error e) :
    decodeValue (pre ++ 0x06 :: (principal ++ field)) (levels + 1) d pre.length = .error e := by
  have hvh : StandsAt principal (pre ++ 0x06 :: (principal ++ field)) (pre.length + 1) :=
    ⟨pre ++ [0x06], field, by simp, by simp⟩
  refine decodeValue_payload_error (b := 0x06) (by simp) rfl ?_
  rw [hvh.contract_eq hprincipal, he]
  rfl

/-- The length byte behind a contract principal's fixed bytes. -/
theorem getElem?_name_field (k : Byte) {principal : Bytes} (name : Bytes)
    (hprincipal : principal.length = 21) :
    (pre ++ 0x06 :: (principal ++ k :: name))[pre.length + 22]? = some k := by
  have hk : StandsAt (k :: name) (pre ++ 0x06 :: (principal ++ k :: name)) (pre.length + 22) :=
    ⟨pre ++ 0x06 :: principal, [], by simp, by simp [hprincipal]⟩
  exact hk.getElem?

end Leaves

/-- Settles O51: each wire form by the bytes of its fields, each failure by the reader that
fails. -/
theorem leafValuesDecode : Obligations.LeafValuesDecode := by
  intro pre post levels d
  refine ⟨fun r hr => decodeValue_integers pre post levels d hr, fun data hlen => ⟨?_, ?_, ?_⟩,
    ⟨?_, ?_, ?_⟩, fun version hash hhash => ⟨?_, fun name hname => ?_⟩, ⟨?_, ?_, ?_, ?_⟩,
    fun principal hprincipal => ⟨?_, ?_, ?_⟩⟩
  · exact decodeValue_data pre post levels d hlen rfl (.inl rfl)
  · exact decodeValue_data pre post levels d hlen rfl (.inr rfl)
  · obtain ⟨hbad, hgood⟩ := decodeValue_stringUtf8 pre post levels d hlen
    cases hsplit : utf8Split data with
    | error e => exact hbad e hsplit
    | ok groups => exact hgood groups hsplit
  · exact decodeValue_empty pre post levels d rfl (.inl rfl)
  · exact decodeValue_empty pre post levels d rfl (.inr (.inl rfl))
  · exact decodeValue_empty pre post levels d rfl (.inr (.inr rfl))
  · exact decodeValue_standardPrincipal pre post levels d version hhash
  · exact decodeValue_contractPrincipal pre post levels d version hhash hname
  · exact decodeValue_at_end le_rfl levels d
  · exact fun b hb => decodeValue_bad_prefix (by simp) ((typePrefixOf_eq_none b).2 hb) levels d
  · intro r hr tag htag
    rcases List.mem_pair.1 htag with rfl | rfl
    · exact decodeValue_short_field pre levels d rfl hr (.inl ⟨rfl, .inl rfl⟩)
    · exact decodeValue_short_field pre levels d rfl hr (.inl ⟨rfl, .inr rfl⟩)
  · intro r hr tag htag
    rcases List.mem_pair.1 htag with rfl | rfl
    · exact decodeValue_short_field pre levels d rfl hr (.inr ⟨rfl, .inl rfl⟩)
    · exact decodeValue_short_field pre levels d rfl hr (.inr ⟨rfl, .inr rfl⟩)
  · have hcut : readName (pre ++ 0x06 :: (principal ++ [])) (pre.length + 22) =
        .error .truncatedInput := readName_of_cut (by simp [hprincipal])
    simpa using decodeValue_contract_name_error pre levels d hprincipal hcut
  · intro k hk
    have hbyte := getElem?_name_field pre k post hprincipal
    exact decodeValue_contract_name_error pre levels d hprincipal (readName_of_bad_length hbyte hk)
  · intro k name hk hname
    have hbyte := getElem?_name_field pre k name hprincipal
    have hcut : (pre ++ 0x06 :: (principal ++ k :: name)).length <
        pre.length + 22 + 1 + k.toNat := by
      simp only [List.length_append, List.length_cons]
      omega
    exact decodeValue_contract_name_error pre levels d hprincipal
      (readName_of_cut_name hbyte (by omega) hk hcut)

end Sys2Proof.Machine
end

section
/-! PROOF. Values with nested values (R236, R241, R243): a wrapper passes on what its child gives,
and a container passes on the first failure among its parts. -/

namespace Sys2Proof.Machine

/-! ### One child -/

/-- The prefixes of the one-child values (R234). -/
theorem exists_wrapper : ∀ tag ∈ ([0x07, 0x08, 0x0A] : Bytes), ∃ t, typePrefixOf tag = some t ∧
    (t = .responseOk ∨ t = .responseErr ∨ t = .optionalSome) := by
  decide

/-- A wrapper adds its own node to its child's nodes and nothing to its child's error. -/
theorem decodeValue_wrapper {inp : Bytes} {start : Nat} {tag : Byte}
    (htag : tag ∈ ([0x07, 0x08, 0x0A] : Bytes)) (hb : inp[start]? = some tag) (levels d : Nat) :
    ∃ t, decodeValue inp (levels + 1) d start =
      (decodeValue inp levels (d + 1) (start + 1)).map fun r =>
        (⟨t, d, none, start, r.2, .empty⟩ :: r.1, r.2) := by
  obtain ⟨t, ht, hwrapper⟩ := exists_wrapper tag htag
  refine ⟨t, ?_⟩
  rw [decodeValue_of_prefix hb ht]
  rcases hwrapper with rfl | rfl | rfl <;>
    cases hchild : decodeValue inp levels (d + 1) (start + 1) <;>
    simp only [decodePayload, hchild] <;> rfl

section Wrappers
variable {inp wrappers : Bytes} (hwrappers : ∀ b ∈ wrappers, b ∈ ([0x07, 0x08, 0x0A] : Bytes))
include hwrappers

/-- As many wrappers as there are levels leave none for what stands behind them (R241). -/
theorem decodeValue_wrappers_exceed {p : Nat} (h : StandsAt wrappers inp p) (d : Nat) :
    decodeValue inp wrappers.length d p = .error .depthExceeded := by
  induction wrappers generalizing p d with
  | nil => exact decodeValue_zero inp d p
  | cons b rest ih =>
    obtain ⟨hb, hrest⟩ := List.forall_mem_cons.1 hwrappers
    obtain ⟨t, hvalue⟩ := decodeValue_wrapper hb h.getElem? rest.length d
    rw [List.length_cons, hvalue, ih hrest h.tail]
    rfl

/-- Wrappers around a Bool, with a level for each, one node a level. -/
theorem decodeValue_wrappers_true {p : Nat} (h : StandsAt (wrappers ++ [0x03]) inp p)
    (levels d : Nat) :
    ∃ nodes, decodeValue inp (wrappers.length + (levels + 1)) d p =
        .ok (nodes, p + wrappers.length + 1) ∧
      nodes.map Node.depth = List.range' d (wrappers.length + 1) := by
  induction wrappers generalizing p d with
  | nil =>
    refine ⟨[⟨.boolTrue, d, none, p, p + 1, .empty⟩], ?_, rfl⟩
    rw [List.length_nil, Nat.zero_add]
    exact decodeValue_of_payload h.getElem? rfl (.empty (.inl rfl))
  | cons b rest ih =>
    obtain ⟨hb, hrest⟩ := List.forall_mem_cons.1 hwrappers
    obtain ⟨nodes, hnodes, hdepths⟩ := ih hrest h.tail (d + 1)
    obtain ⟨t, hvalue⟩ := decodeValue_wrapper hb h.getElem? (rest.length + (levels + 1)) d
    refine ⟨⟨t, d, none, p, p + 1 + rest.length + 1, .empty⟩ :: nodes, ?_, ?_⟩
    · rw [List.length_cons, Nat.add_right_comm, hvalue, hnodes,
        show p + (rest.length + 1) + 1 = p + 1 + rest.length + 1 by omega]
      rfl
    · rw [List.map_cons, hdepths]
      rfl

end Wrappers

/-- Settles O53, by induction on the wrappers. -/
theorem depthBoundIsSixteen : Obligations.DepthBoundIsSixteen := by
  intro pre wrappers post hwrappers
  refine ⟨fun hlen => ?_, fun hlen => ?_⟩
  · have h := decodeValue_wrappers_exceed hwrappers (standsAt_append pre wrappers post) 0
    rwa [hlen] at h
  · have hstands : StandsAt (wrappers ++ [0x03]) (pre ++ wrappers ++ 0x03 :: post) pre.length :=
      ⟨pre, post, by simp, rfl⟩
    obtain ⟨nodes, hnodes, hdepths⟩ :=
      decodeValue_wrappers_true hwrappers hstands (16 - wrappers.length) 0
    refine ⟨nodes, ?_, by rw [hdepths, List.range_eq_range']⟩
    rwa [show wrappers.length + (16 - wrappers.length + 1) = maxDepth + 1 by
      simp only [maxDepth]; omega] at hnodes

/-! ### The elements of a list -/

section Items
variable {child : Nat → Decoded} {p p1 : Nat} {ns : List Node} {e : CmdError}

theorem decodeItems_cons (hvalue : child p = .ok (ns, p1)) (c : Nat) :
    decodeItems child (c + 1) p =
      (decodeItems child c p1).map fun r => (ns ++ r.1, r.2) := by
  simp only [decodeItems, hvalue]
  cases decodeItems child c p1 <;> rfl

theorem decodeItems_value_error (he : child p = .error e) (c : Nat) :
    decodeItems child (c + 1) p = .error e := by
  simp only [decodeItems, he]

end Items

/-- A list fails with the first of its elements that fails. -/
theorem decodeItems_error {inp : Bytes} {levels d p q k : Nat} {e : CmdError}
    (h : ValuesInTurn inp levels d k p q) (he : decodeValue inp levels d q = .error e) (c : Nat) :
    decodeItems (fun p => decodeValue inp levels d p) (k + (c + 1)) p = .error e := by
  induction k generalizing p with
  | zero =>
    obtain rfl : q = p := h
    rw [Nat.zero_add]
    exact decodeItems_value_error he c
  | succ k ih =>
    obtain ⟨nodes, p', hvalue, hrest⟩ := h
    rw [Nat.add_right_comm, decodeItems_cons hvalue, ih hrest]
    rfl

/-! ### The entries of a tuple -/

section Entries
variable {inp key : Bytes} {child : Nat → Decoded} {seen : List Bytes} {p p1 : Nat}
  {ns : List Node} {e : CmdError}

theorem decodeEntries_name_error (he : readName inp p = .error e) (c : Nat) :
    decodeEntries inp child (c + 1) seen p = .error e := by
  simp only [decodeEntries, he]

variable (hkey : StandsAt (wireName key) inp p)
include hkey

theorem StandsAt.key_slice : slice inp (p + 1) key.length = key := hkey.tail.slice_eq

variable (hname : isClarityName key = true)
include hname

theorem decodeEntries_duplicate (hseen : key ∈ seen) (c : Nat) :
    decodeEntries inp child (c + 1) seen p = .error .invalidName := by
  simp only [decodeEntries, hkey.readName_ok hname, hkey.key_slice, List.contains_iff_mem.2 hseen,
    if_true]

variable (hnew : key ∉ seen)
include hnew

theorem decodeEntries_value_error (he : child (p + 1 + key.length) = .error e) (c : Nat) :
    decodeEntries inp child (c + 1) seen p = .error e := by
  have hcontains : ¬ seen.contains key = true := fun h => hnew (List.contains_iff_mem.1 h)
  simp only [decodeEntries, hkey.readName_ok hname, hkey.key_slice, if_neg hcontains, he]

theorem decodeEntries_cons (hvalue : child (p + 1 + key.length) = .ok (ns, p1)) (c : Nat) :
    decodeEntries inp child (c + 1) seen p =
      (decodeEntries inp child c (key :: seen) p1).map fun r =>
        (setKey (p + 1, key.length) ns ++ r.1, r.2) := by
  have hcontains : ¬ seen.contains key = true := fun h => hnew (List.contains_iff_mem.1 h)
  simp only [decodeEntries, hkey.readName_ok hname, hkey.key_slice, if_neg hcontains, hvalue]
  cases decodeEntries inp child c (key :: seen) p1 <;> rfl

end Entries

/-- A tuple fails with the first of its entries that fails, the keys before it all seen. -/
theorem decodeEntries_error {inp : Bytes} {levels d p q : Nat} {keys seen : List Bytes}
    {e : CmdError} (h : EntriesInTurn inp levels d keys p q) (hnodup : keys.Nodup)
    (hnew : ∀ key ∈ keys, key ∉ seen) {c : Nat}
    (he : ∀ seen', (∀ key, key ∈ seen' ↔ key ∈ keys ∨ key ∈ seen) →
      decodeEntries inp (fun p => decodeValue inp levels d p) (c + 1) seen' q = .error e) :
    decodeEntries inp (fun p => decodeValue inp levels d p) (keys.length + (c + 1)) seen p =
      .error e := by
  induction keys generalizing p seen with
  | nil =>
    obtain rfl : q = p := h
    rw [List.length_nil, Nat.zero_add]
    exact he seen (by simp)
  | cons key keys ih =>
    obtain ⟨hname, hslice, nodes, p', hvalue, hrest⟩ := h
    obtain ⟨hnotin, hnodup⟩ := List.nodup_cons.1 hnodup
    obtain ⟨hkey, hkeys⟩ := List.forall_mem_cons.1 hnew
    have hstands : StandsAt (wireName key) inp p := standsAt_of_slice hslice (List.cons_ne_nil _ _)
    have hunseen : ∀ k ∈ keys, k ∉ key :: seen := fun k hk hmem => by
      rcases List.mem_cons.1 hmem with rfl | hseen
      · exact hnotin hk
      · exact hkeys k hk hseen
    have herror := ih hrest hnodup hunseen fun seen' hseen' => he seen' fun k => by
      rw [hseen', List.mem_cons, List.mem_cons]
      tauto
    rw [List.length_cons, Nat.add_right_comm,
      decodeEntries_cons hstands hname hkey hvalue, herror]
    rfl

/-! ### Containers -/

section Containers
variable {inp : Bytes} {levels d start c q : Nat} {e : CmdError}
  (hsize : readSize inp (start + 1) = .ok (c, start + 5))
include hsize

theorem decodeValue_list_error (hb : inp[start]? = some 0x0B) {k : Nat} (hk : k < c)
    (h : ValuesInTurn inp levels (d + 1) k (start + 5) q)
    (he : decodeValue inp levels (d + 1) q = .error e) :
    decodeValue inp (levels + 1) d start = .error e := by
  obtain ⟨c, rfl⟩ := Nat.exists_eq_add_of_lt hk
  refine decodeValue_payload_error hb rfl ?_
  simp only [decodePayload, hsize]
  rw [Nat.add_assoc, decodeItems_error h he]

variable {keys : List Bytes} (hb : inp[start]? = some 0x0C) (hlen : keys.length < c)
  (hnodup : keys.Nodup) (h : EntriesInTurn inp levels (d + 1) keys (start + 5) q)
include hb hlen hnodup h

theorem decodeValue_tuple_error
    (he : ∀ c seen, (∀ key, key ∈ seen ↔ key ∈ keys) →
      decodeEntries inp (fun p => decodeValue inp levels (d + 1) p) (c + 1) seen q = .error e) :
    decodeValue inp (levels + 1) d start = .error e := by
  obtain ⟨c, rfl⟩ := Nat.exists_eq_add_of_lt hlen
  refine decodeValue_payload_error hb rfl ?_
  simp only [decodePayload, hsize]
  rw [Nat.add_assoc, decodeEntries_error h hnodup (by simp) fun seen' hseen' =>
    he c seen' (by simpa using hseen')]

theorem decodeValue_tuple_name_error (he : readName inp q = .error e) :
    decodeValue inp (levels + 1) d start = .error e :=
  decodeValue_tuple_error hsize hb hlen hnodup h fun c _ _ => decodeEntries_name_error he c

end Containers

/-- Settles O55: the first part that fails gives the value's error. -/
theorem containersFailAtTheirFirstBadPart : Obligations.ContainersFailAtTheirFirstBadPart := by
  intro inp levels d start
  refine ⟨fun e tag htag hb he => ?_, fun c q hslice hc => ?_⟩
  · obtain ⟨t, hvalue⟩ := decodeValue_wrapper htag hb levels d
    rw [hvalue, he]
    rfl
  have hsize : readSize inp (start + 1) = .ok (c, start + 5) := readSize_of_slice hslice hc
  refine ⟨fun hb k hk h => ⟨fun e => decodeValue_list_error hsize hb hk h, fun hq hlevels => ?_⟩,
    fun hb keys hlen hnodup h => ?_⟩
  · obtain ⟨l, rfl⟩ := Nat.exists_eq_add_one_of_ne_zero (Nat.ne_of_gt hlevels)
    exact decodeValue_list_error hsize hb hk h (decodeValue_at_end hq.ge l (d + 1))
  have hfield {e : CmdError} := decodeValue_tuple_name_error hsize hb hlen hnodup h (e := e)
  refine ⟨fun hq => hfield (readName_of_cut (by omega)),
    fun k hk hbad => hfield (readName_of_bad_length hk hbad),
    fun k name hdrop hk hname => ?_, fun key rest hdrop _ hle => ?_⟩
  · have hstands : StandsAt (k :: name) inp q :=
      standsAt_of_drop (post := []) (by rw [hdrop, List.append_nil]) (List.cons_ne_nil _ _)
    have hlength := congrArg List.length hdrop
    rw [List.length_drop, List.length_cons] at hlength
    exact hfield (readName_of_cut_name hstands.getElem? (by omega) hk (by omega))
  · have hkey : StandsAt (wireName key) inp q := standsAt_of_drop hdrop (List.cons_ne_nil _ _)
    refine ⟨fun hbad => hfield ?_, fun hmem => ?_, fun hname hnew e he => ?_⟩
    · rw [hkey.readName_eq hle, hbad]
      rfl
    · by_cases hname : isClarityName key = true
      · exact decodeValue_tuple_error hsize hb hlen hnodup h fun c seen hseen =>
          decodeEntries_duplicate hkey hname ((hseen key).2 hmem) c
      · refine hfield ?_
        rw [hkey.readName_eq hle, if_neg hname]
    · exact decodeValue_tuple_error hsize hb hlen hnodup h fun c seen hseen =>
        decodeEntries_value_error hkey hname (fun hmem => hnew ((hseen key).1 hmem)) he c

end Sys2Proof.Machine
end

section
/-! PROOF. The invariant of reachable states (R28 to R31, R37, R39, R282): what each operation of
the machine keeps of it, and so every step; and what it says about how a command ends (R283). -/

namespace Sys2Proof.Machine

/-! ### The host's side -/

/-- Settles O17. -/
theorem resetSatisfiesTheInvariant : Obligations.ResetSatisfiesTheInvariant where
  params := by decide
  inBufWf := rfl
  inBufBound := fun _ hc => nomatch hc
  outBufExact := rfl
  outLenBound := Nat.zero_le _
  versionBound := by decide
  cursorBound := Nat.zero_le _
  recordsExact := .inl rfl
  busyClear := fun h => nomatch h
  doneNoError := fun _ => rfl
  errorHasCode := fun h => nomatch h
  codeClears := fun h => absurd rfl h

theorem ResultsClear.of_sameMachine {s t : State} (h : ResultsClear s) (hst : SameMachine s t) :
    ResultsClear t where
  outLen := hst.outLen.trans h.outLen
  cursor := hst.cursor.trans h.cursor
  nodeCount := hst.nodeCount.trans h.nodeCount
  versionOut := hst.versionOut.trans h.versionOut
  outBuf := hst.outBuf.trans h.outBuf

theorem Inv.of_sameMachine {s t : State} (h : Inv s) (hst : SameMachine s t) : Inv t where
  params := hst.params ▸ h.params
  inBufWf := hst.inBuf ▸ h.inBufWf
  inBufBound := by rw [hst.inBuf, hst.params]; exact h.inBufBound
  outBufExact := by rw [hst.outBuf, hst.outLen]; exact h.outBufExact
  outLenBound := by rw [hst.outLen, hst.params]; exact h.outLenBound
  versionBound := hst.versionOut ▸ h.versionBound
  cursorBound := by rw [hst.cursor, hst.params]; exact h.cursorBound
  recordsExact := by rw [hst.nodeCount, hst.outLen]; exact h.recordsExact
  busyClear := fun hbusy => by
    obtain ⟨hclear, herr⟩ := h.busyClear (hst.engine.symm.trans hbusy)
    exact ⟨hclear.of_sameMachine hst, hst.err.trans herr⟩
  doneNoError := fun hdone => hst.err.trans (h.doneNoError (hst.engine.symm.trans hdone))
  errorHasCode := fun herror => hst.err ▸ h.errorHasCode (hst.engine.symm.trans herror)
  codeClears := fun hcode => (h.codeClears (hst.err ▸ hcode)).of_sameMachine hst

section Operations
variable {s : State} (h : Inv s)
include h

/-- IE and the operand registers are free (R22 to R26). -/
theorem Inv.set_operands (ie : Bool) (cmd arg inLen inOff : Word) :
    Inv { s with ie := ie, cmd := cmd, arg := arg, inLen := inLen, inOff := inOff } :=
  { h with
    busyClear := fun hbusy => ⟨{ (h.busyClear hbusy).1 with }, (h.busyClear hbusy).2⟩
    codeClears := fun hcode => { h.codeClears hcode with } }

theorem Inv.start : Inv s.start :=
  { h with
    outBufExact := rfl
    outLenBound := Nat.zero_le _
    versionBound := show (0 : Byte).toNat < 32 by decide
    cursorBound := Nat.zero_le _
    recordsExact := .inl rfl
    busyClear := fun _ => ⟨⟨rfl, rfl, rfl, rfl, rfl⟩, rfl⟩
    doneNoError := fun hdone => nomatch hdone
    errorHasCode := fun herror => nomatch herror
    codeClears := fun hcode => absurd rfl hcode }

/-- The results stay after ACK, and so does a code (R42). -/
theorem Inv.ack : Inv s.ack :=
  { h with
    busyClear := fun hbusy => nomatch hbusy
    doneNoError := fun hdone => nomatch hdone
    errorHasCode := fun herror => nomatch herror
    codeClears := fun hcode => { h.codeClears hcode with } }

theorem Inv.applyReset : Inv s.applyReset :=
  { resetSatisfiesTheInvariant with
    params := h.params
    inBufBound := fun _ hc => nomatch hc
    outLenBound := Nat.zero_le _
    cursorBound := Nat.zero_le _
    busyClear := fun hbusy => nomatch hbusy
    codeClears := fun hcode => absurd rfl hcode }

theorem Inv.write_inBuf {a : Nat} (ha : a < s.params.inBufSize) (b : Byte) :
    Inv { s with inBuf := Memory.write s.inBuf a b } :=
  { h with
    inBufWf := Memory.wf_write _ _ _ h.inBufWf
    inBufBound := fun c hc => by
      rcases Memory.mem_write hc with rfl | hold
      · exact ha
      · exact h.inBufBound c hold
    busyClear := fun hbusy => ⟨{ (h.busyClear hbusy).1 with }, (h.busyClear hbusy).2⟩
    codeClears := fun hcode => { h.codeClears hcode with } }

theorem Inv.writeInByte {a : Nat} (ha : a < s.params.inBufSize) (b : Byte) :
    Inv (s.writeInByte a b) := by
  unfold State.writeInByte
  split_ifs
  · exact h
  · exact h.write_inBuf ha b

theorem Inv.writeCtrl (v : Word) : Inv (s.writeCtrl v) := by
  have hie : Inv { s with ie := v.getLsbD 2 } := h.set_operands _ s.cmd s.arg s.inLen s.inOff
  rcases writeCtrl_cases s v with ⟨_, _, he⟩ | ⟨_, _, _, he⟩ | ⟨_, he⟩ <;> rw [he]
  · exact hie.start
  · exact hie.ack
  · exact hie

theorem Inv.writeReg (r : Reg) (v : Word) : Inv (s.writeReg r v) := by
  by_cases hr : r = .ctrl
  · exact hr ▸ h.writeCtrl v
  · by_cases hbusy : s.engine = .busy
    · rwa [writeReg_busy s r v hbusy, if_neg hr]
    · rw [writeReg_idle s r v hbusy hr]
      split_ifs
      · exact h.set_operands s.ie v s.arg s.inLen s.inOff
      · exact h.set_operands s.ie s.cmd v s.inLen s.inOff
      · exact h.set_operands s.ie s.cmd s.arg v s.inOff
      · exact h.set_operands s.ie s.cmd s.arg s.inLen v
      · exact h

theorem Inv.hostWrite (off width : Nat) (v : Word) : Inv (s.hostWrite off width v) := by
  rcases hostWrite_cases s off width v with
    ⟨_, he⟩ | ⟨_, ⟨_, he⟩ | ⟨a, _, _, ha, he⟩ | ⟨_, _, _, he⟩⟩ <;> rw [he]
  · exact h.of_sameMachine (respond_sameMachine s _)
  · exact (h.writeReg _ v).of_sameMachine (respond_sameMachine _ _)
  · exact (h.writeInByte ha _).of_sameMachine (respond_sameMachine _ _)
  · exact h.of_sameMachine (respond_sameMachine s _)

theorem Inv.hostStep {t : State} (hstep : s.hostStep = .next t) : Inv t := by
  have harrive (rest : List HostEvent) : Inv (s.arrive rest) :=
    h.of_sameMachine (s.arrive_sameMachine rest)
  rcases hostStep_cases hstep with
    ⟨_, rfl⟩ | ⟨rest, _, rfl⟩ | ⟨rest, _, rfl⟩ | ⟨addr, width, rest, _, _, rfl⟩ |
      ⟨addr, width, v, rest, _, _, rfl⟩
  · exact h
  · exact Inv.applyReset (s := { s with pending := rest })
      (h.of_sameMachine { SameMachine.refl s with })
  · split
    · exact (h.of_sameMachine (tick_sameMachine s)).of_sameMachine (respond_sameMachine _ _)
    · exact (harrive rest).of_sameMachine (respond_sameMachine _ _)
  · exact (harrive rest).of_sameMachine (hostRead_spec _ _ _).1
  · exact (harrive rest).hostWrite _ _ _

end Operations

/-! ### Commits -/

theorem length_flatten_records {rs : List Bytes} (h : ∀ r ∈ rs, r.length = 32) :
    rs.flatten.length = 32 * rs.length := by
  have hlengths : rs.map List.length = List.replicate rs.length 32 :=
    List.eq_replicate_iff.2 ⟨List.length_map _, List.forall_mem_map.2 h⟩
  rw [List.length_flatten, hlengths, List.sum_replicate, smul_eq_mul, Nat.mul_comm]

/-- What the engine relies on in a result beside its size. -/
def CmdResult.Bounded (inBufSize : Nat) : CmdResult → Prop
  | .bytes _ => True
  | .versioned _ v => v < 32
  | .records rs q => (∀ r ∈ rs, r.length = 32) ∧ q ≤ inBufSize
  | .check => True

theorem commandFunction_bounded {s : State} {i : Instr} {inp : Bytes} {r : CmdResult} {n : Nat}
    (hinp : inp.length ≤ n) (h : commandFunction s i inp = .ok r) : r.Bounded n := by
  have hmap {x : Except CmdError Bytes} (hx : x.map .bytes = .ok r) : r.Bounded n := by
    cases x with
    | error e => cases hx
    | ok out => cases hx; trivial
  cases i with
  | b58Enc | b58chkEnc | c32Enc | c32chkEnc | c32chkEncP | c32addrEnc => cases h; trivial
  | b58Dec | b58chkDec | c32Dec => exact hmap h
  | c32chkDec =>
    rcases c32CheckDecode_cases inp with ⟨e, _, he⟩ | ⟨v, p, hok, hv, _⟩
    · simp [commandFunction, fC32chkDec, he, Except.map] at h
    · obtain rfl : .versioned p v = r := by
        simpa [commandFunction, fC32chkDec, hok, Except.map] using h
      exact hv
  | c32addrDec =>
    rcases c32AddressDecode_cases inp with ⟨e, _, he⟩ | ⟨v, p, hok, hv, _⟩
    · simp [commandFunction, fC32addrDec, he, Except.map] at h
    · obtain rfl : .versioned p v = r := by
        simpa [commandFunction, fC32addrDec, hok, Except.map] using h
      exact hv
  | valDec cap =>
    simp only [commandFunction, fValDec_eq_map] at h
    cases hdecode : decodeTop inp s.startCursor with
    | error e => simp [hdecode, Except.map] at h
    | ok x =>
      obtain rfl : .records (x.1.map (emitNode cap)) x.2 = r := by
        simpa [hdecode, Except.map] using h
      exact ⟨emitNode_length_of_decodeTop hdecode cap,
        (decodeValue_within hdecode).inside.trans hinp⟩
  | cnCheck | ctnCheck =>
    simp only [commandFunction, fCnCheck, fCtnCheck] at h
    split_ifs at h
    cases h
    trivial

section Commits
variable {s : State} (h : Inv s) (hbusy : s.engine = .busy)
include h hbusy

theorem Inv.commitError (e : CmdError) : Inv (s.commitError e) := by
  obtain ⟨hclear, _⟩ := h.busyClear hbusy
  have hclears : ResultsClear (s.commitError e) := { hclear with outBuf := rfl }
  exact { h with
    outBufExact := by
      rw [hclears.outLen, hclears.outBuf]
      rfl
    busyClear := fun hbusy => nomatch hbusy
    doneNoError := fun hdone => nomatch hdone
    errorHasCode := fun _ hnone => nomatch hnone
    codeClears := fun _ => hclears }

/-- Bytes committed below OUT_LEN, with the registers of the result in their ranges. -/
theorem Inv.of_doneWith {t : State} {out : Bytes} (hdone : DoneWith s t out)
    (hout : t.outBuf = Memory.cells 0 out) (hsize : out.length ≤ s.params.outBufSize)
    (hversion : t.versionOut.toNat < 32) (hcursor : t.cursor.toNat ≤ s.params.inBufSize)
    (hrecords : t.nodeCount = 0 ∨ out.length = 32 * t.nodeCount.toNat) : Inv t := by
  obtain ⟨_, hnone⟩ := h.busyClear hbusy
  have hengine := hdone.engine
  have hnotBusy : t.engine ≠ .busy := by simp [hengine]
  have hnotError : t.engine ≠ .error := by simp [hengine]
  have herr := hdone.err.trans hnone
  exact {
    params := hdone.same.params ▸ h.params
    inBufWf := hdone.same.inBuf ▸ h.inBufWf
    inBufBound := by rw [hdone.same.inBuf, hdone.same.params]; exact h.inBufBound
    outBufExact := by rw [hout, hdone.outLen, Memory.cells_offsets_zero]
    outLenBound := by rw [hdone.outLen, hdone.same.params]; exact hsize
    versionBound := hversion
    cursorBound := by rw [hdone.same.params]; exact hcursor
    recordsExact := by rw [hdone.outLen]; exact hrecords
    busyClear := fun hb => absurd hb hnotBusy
    doneNoError := fun _ => herr
    errorHasCode := fun he => absurd he hnotError
    codeClears := fun hcode => absurd herr hcode }

theorem Inv.commitCheck : Inv s.commitCheck := by
  obtain ⟨_, hnone⟩ := h.busyClear hbusy
  exact { h with
    busyClear := fun hbusy => nomatch hbusy
    doneNoError := fun _ => hnone
    errorHasCode := fun herror => nomatch herror
    codeClears := fun hcode => absurd hnone hcode }

theorem Inv.commit {r : CmdResult} (hsize : resultSize r ≤ s.params.outBufSize)
    (hbounded : r.Bounded s.params.inBufSize) : Inv (s.commit (.ok r)) := by
  obtain ⟨hclear, _⟩ := h.busyClear hbusy
  obtain ⟨⟨_, hinSize⟩, ⟨_, houtSize⟩, _⟩ := h.params
  cases r with
  | bytes out =>
    have hout : out.length ≤ s.params.outBufSize := hsize
    have hdone := commitBytes_doneBytes s out (by omega)
    exact h.of_doneWith hbusy hdone.result rfl hsize h.versionBound h.cursorBound
      (.inl hclear.nodeCount)
  | versioned out v =>
    have hout : out.length ≤ s.params.outBufSize := hsize
    have hv : v < 32 := hbounded
    have hdone := commitVersioned_doneVersioned s out v (by omega) (by omega)
    exact h.of_doneWith hbusy hdone.result rfl hsize (hdone.versionOut.trans_lt hv) h.cursorBound
      (.inl hclear.nodeCount)
  | records rs q =>
    have hcount : 32 * rs.length ≤ s.params.outBufSize := hsize
    obtain ⟨hlength, hq⟩ : (∀ r ∈ rs, r.length = 32) ∧ q ≤ s.params.inBufSize := hbounded
    have hflat : rs.flatten.length = 32 * rs.length := length_flatten_records hlength
    have hdone := commitRecords_doneRecords s rs q hlength (by omega) (by omega)
    exact h.of_doneWith hbusy hdone.result rfl (hflat.trans_le hcount) h.versionBound
      (hdone.cursor.trans_le hq) (.inr (hflat.trans (congrArg (32 * ·) hdone.nodeCount.symm)))
  | check => exact h.commitCheck hbusy

/-- However a command ends, the invariant holds again. -/
theorem Inv.commit_execute (i : Instr) : Inv (s.commit (s.execute i (commandFunction s i))) := by
  rcases execute_cases s i (commandFunction s i) with
    ⟨_, he⟩ | ⟨_, e, _, he⟩ | ⟨_, r, _, _, he⟩ | ⟨hargs, r, hr, hsize, he⟩ <;> rw [he]
  · exact h.commitError hbusy _
  · exact h.commitError hbusy _
  · exact h.commitError hbusy _
  · have hlen := ((checkArgs_eq_ok_iff s i).1 hargs).1
    exact h.commit hbusy hsize (commandFunction_bounded ((State.input_length s).trans_le hlen) hr)

end Commits

/-- Settles O18: a step is a commit of the running command or one host event. -/
theorem everyStepKeepsTheInvariant : Obligations.EveryStepKeepsTheInvariant := by
  intro s t h hstep
  rcases step_cases hstep with ⟨hdue, ⟨e, _, rfl⟩ | ⟨i, _, rfl⟩⟩ | ⟨_, hhost⟩
  · exact h.commitError ((completionDue_iff s).1 hdue).1 _
  · exact h.commit_execute ((completionDue_iff s).1 hdue).1 i
  · exact h.hostStep hhost

/-! ### How a command ends -/

/-- A memory whose offsets count up from `a` holds its bytes there. -/
theorem Memory.eq_cells {m : Memory} {a : Nat} (h : m.map Prod.fst = List.range' a m.length) :
    m = Memory.cells a (m.map Prod.snd) := by
  induction m generalizing a with
  | nil => rfl
  | cons c m ih =>
    rw [List.map_cons, List.length_cons, List.range'_succ, List.cons.injEq] at h
    obtain ⟨hhead, hrest⟩ := h
    rw [List.map_cons, Memory.cells, ← ih hrest, ← hhead]

/-- Outside BUSY every output byte of a reachable state is specified (R37). -/
theorem Inv.exists_output {t : State} (h : Inv t) (hbusy : t.engine ≠ .busy) :
    ∃ out, t.output = some out := by
  have hlen : t.outBuf.length = t.outLen.toNat := by
    simpa using congrArg List.length h.outBufExact
  have hcells : t.outBuf = Memory.cells 0 (t.outBuf.map Prod.snd) :=
    Memory.eq_cells (by rw [h.outBufExact, hlen, List.range_eq_range'])
  have hout : t.outLen.toNat = (t.outBuf.map Prod.snd).length := by rw [List.length_map, hlen]
  exact ⟨_, State.output_eq_of_outByte hout (outByte_of_cells hbusy hcells hout)⟩

/-- Settles O22: the next state is a commit and keeps the invariant. -/
theorem commandEndsInDoneOrOneError : Obligations.CommandEndsInDoneOrOneError := by
  intro i s h hbusy
  have hinv := h.commit_execute hbusy i
  refine ⟨_, exec_eq i s, ?_⟩
  rcases commit_engine s (s.execute i (commandFunction s i)) with
    ⟨_, hdone, _⟩ | ⟨e, _, herror, hcode⟩
  · exact .inl ⟨hdone, hinv.doneNoError hdone, hinv.exists_output (by simp [hdone])⟩
  · exact .inr ⟨herror, ⟨e, hcode⟩, hinv.codeClears (by simp [hcode])⟩

end Sys2Proof.Machine
end

section
/-! PROOF. Decoding inverts the wire format (R230 to R236, R260): by induction on the levels of
nesting, the wire form of a value decodes to nodes whose records rebuild to it. -/

namespace Sys2Proof.Machine

/-! ### Reading a record -/

section Record
variable {x : Bytes} {node : Node} (hx : Describes x node)
include hx

/-- A four-byte field of the payload, behind the fields `w`. -/
theorem Describes.field {w rest : Bytes} {v : Nat}
    (hemit : emitPayload node.payload = w ++ (beField 4 v ++ rest)) (hw : w.length + 4 ≤ 16)
    (hv : v < 2 ^ 32) : recordField x (16 + w.length) = v := by
  have hskip : recordField (w ++ (beField 4 v ++ rest)) w.length =
      recordField (beField 4 v ++ rest) 0 := by
    rw [recordField, slice_append_left_length]
    rfl
  rw [hx.recordField_payload hw, hemit, hskip, recordField_beField_append hv]

/-- A byte of the payload. -/
theorem Describes.byte {i : Nat} (hi : i < 16) :
    x.getD (16 + i) 0 = (emitPayload node.payload).getD i 0 := by
  rw [← hx.payload, List.getD_eq_getElem?_getD, List.getD_eq_getElem?_getD, getElem?_slice,
    if_pos hi]

/-- The low half of an integer's raw bytes (R232). -/
theorem Describes.low_half {n : Nat} (hnode : node.payload = .raw (beField 16 n)) :
    be (slice x 24 8) = n % 2 ^ 64 := by
  have hslice : slice (beField 16 n) 8 8 = beField 8 n :=
    List.take_of_length_le (beField_length 8 n).le
  have hlow : slice x (16 + 8) 8 = beField 8 n := by
    rw [← slice_slice x 16 8 (by decide : 8 + 8 ≤ 16), hx.payload, hnode]
    exact hslice
  rw [hlow, be_beField, show 256 ^ 8 = 2 ^ 64 by norm_num]

end Record

theorem s64_of_wireInt {i : Int} (hlow : -(2 ^ 63) ≤ i) (hhigh : i < 2 ^ 63) :
    s64 ((i % 2 ^ 128).toNat % 2 ^ 64) = i := by
  unfold s64
  split_ifs <;> omega

/-- The bytes Rebuild fetches are those that stand in the input. -/
theorem StandsAt.bytesAt_eq {inp w : Bytes} {p : Nat} {mem : Nat → Byte} (h : StandsAt w inp p)
    (hmem : HoldsInput mem inp) : bytesAt mem p w.length = w :=
  (bytesAt_eq_slice hmem h.le).trans h.slice_eq

/-- Well-formed groups are the split of their concatenation. -/
theorem utf8Split_flatten {groups : List Bytes} (h : groups.all isScalar = true) :
    utf8Split groups.flatten = .ok groups := by
  refine (utf8Split_eq_ok_iff _ _).2 ⟨rfl, fun g hg => ?_⟩
  obtain ⟨hne, hlen⟩ : g ≠ [] ∧ wellFormedLen g = g.length := by
    simpa [isScalar] using List.all_eq_true.1 h g hg
  have hpos : wellFormedLen g ≠ 0 := by rwa [hlen, Ne, List.length_eq_zero_iff]
  have hscalar := (utf8Scalar_take hpos).1
  rwa [hlen, List.take_length] at hscalar

/-! ### Records of a value -/

theorem decodeValue_emitPayload_length {inp : Bytes} {levels d p q : Nat} {nodes : List Node}
    (h : decodeValue inp levels d p = .ok (nodes, q)) (n : Node) (hn : n ∈ nodes) :
    (emitPayload n.payload).length = 16 :=
  emitPayload_length _ fun r hr => decodeValue_forall_payload
    (P := fun x => ∀ r, x = .raw r → r.length = 16) (fun _ _ _ _ _ _ hp => hp.raw_length) h _
    (List.mem_map_of_mem hn) r hr

/-- The records of a value from index k on; the first is known up to its key. -/
def ValueRecords (cap : Bool) (rs : List Bytes) (k : Nat) : List Node → Prop
  | [] => True
  | n :: rest =>
    (∃ x, rs[k]? = some x ∧ Describes x n) ∧ StandsAt (rest.map (emitNode cap)) rs (k + 1)

/-- What the decoder makes of the wire form of `v` at `p`, and Rebuild of the decoder's records. -/
structure Inverts (inp : Bytes) (mem : Nat → Byte) (cap : Bool) (levels d p : Nat) (v : Value)
    (nodes : List Node) : Prop where
  decodes : decodeValue inp levels d p = .ok (nodes, p + (wireValue v).length)
  rebuilds : ∀ rs k, ValueRecords cap rs k nodes →
    rebuild mem rs levels k = some (v, k + nodes.length)

section Inverts
variable {inp : Bytes} {mem : Nat → Byte} {cap : Bool} {levels d p : Nat} {v : Value}
  {nodes : List Node} (h : Inverts inp mem cap levels d p v nodes)
include h

theorem Inverts.rebuild_eq {rs : List Bytes} {k : Nat}
    (hrs : StandsAt (nodes.map (emitNode cap)) rs k) :
    rebuild mem rs levels k = some (v, k + nodes.length) := by
  refine h.rebuilds rs k ?_
  have hlength := decodeValue_emitPayload_length h.decodes
  cases nodes with
  | nil => trivial
  | cons n rest =>
    exact ⟨⟨_, hrs.getElem?, emitNode_describes cap (hlength n List.mem_cons_self)⟩, hrs.tail⟩

/-- The first record of an entry's value also locates the key (R241, R255). -/
theorem Inverts.rebuild_entry {key : Nat × Nat} {rs : List Bytes} {k : Nat}
    (hkey : key.1 < 2 ^ 32) (hrs : StandsAt ((setKey key nodes).map (emitNode cap)) rs k) :
    rebuild mem rs levels k = some (v, k + nodes.length) ∧
      ∃ x, rs[k]? = some x ∧ recordField x 4 = key.1 ∧ x.getD 3 0 = BitVec.ofNat 8 key.2 := by
  obtain ⟨n, rest, rfl⟩ : ∃ n rest, nodes = n :: rest := by
    obtain ⟨t, payload, children, hnodes, _⟩ := decodeValue_head h.decodes
    exact ⟨_, _, hnodes⟩
  have hlength := decodeValue_emitPayload_length h.decodes n List.mem_cons_self
  have hdescribes := emitNode_describes cap (n := { n with key := some key }) hlength
  refine ⟨h.rebuilds rs k ⟨⟨_, hrs.getElem?, hdescribes.tag, hdescribes.payload⟩, hrs.tail⟩, _,
    hrs.getElem?, ?_, rfl⟩
  have hfield : slice (emitNode cap { n with key := some key }) 4 4 = beField 4 key.1 := rfl
  rw [recordField, hfield, be_beField, Nat.mod_eq_of_lt (hkey.trans_eq (by norm_num))]

end Inverts

/-! ### Lists and tuples -/

section Children
variable {inp : Bytes} {mem : Nat → Byte} {cap : Bool} {levels d : Nat}

/-- The elements of a list, each inverted. -/
theorem exists_inverts_items {items : List Value}
    (hitems : ∀ v ∈ items, ∀ p, StandsAt (wireValue v) inp p →
      ∃ nodes, Inverts inp mem cap levels d p v nodes)
    {p : Nat} (h : StandsAt (wireItems items) inp p) :
    ∃ nodes, decodeItems (fun p => decodeValue inp levels d p) items.length p =
        .ok (nodes, p + (wireItems items).length) ∧
      ∀ rs k, StandsAt (nodes.map (emitNode cap)) rs k →
        rebuildItems (fun j => rebuild mem rs levels j) items.length k =
          some (items, k + nodes.length) := by
  induction items generalizing p with
  | nil => exact ⟨[], rfl, fun _ _ _ => rfl⟩
  | cons v items ih =>
    obtain ⟨hv, hrest⟩ := List.forall_mem_cons.1 hitems
    rw [wireItems] at h
    obtain ⟨ns, hns⟩ := hv p h.left
    obtain ⟨rest, hdecode, hrebuild⟩ := ih hrest h.right
    refine ⟨ns ++ rest, ?_, fun rs k hrs => ?_⟩
    · rw [List.length_cons, decodeItems_cons hns.decodes, hdecode, wireItems, List.length_append,
        Nat.add_assoc]
      rfl
    · rw [List.map_append] at hrs
      have htail := hrs.right
      rw [List.length_map] at htail
      rw [List.length_cons, rebuildItems, hns.rebuild_eq hrs.left]
      simp only [hrebuild rs _ htail, List.length_append, Nat.add_assoc]

/-- A key above all others is put last. -/
theorem putEntry_append {key : Bytes} (v : Value) {m : List (Bytes × Value)}
    (h : ∀ r ∈ m, bytesLt r.1 key = true) : putEntry key v m = m ++ [(key, v)] := by
  induction m with
  | nil => exact putEntry_nil key v
  | cons r m ih =>
    obtain ⟨hr, hm⟩ := List.forall_mem_cons.1 h
    rw [putEntry_of_gt v r.2 m hr, ih hm]
    rfl

/-- The entries of a tuple in ascending order of their keys, each value inverted. -/
theorem exists_inverts_entries (hlen : inp.length ≤ 2 ^ 24) (hmem : HoldsInput mem inp)
    {entries : List (Bytes × Value)}
    (hentries : ∀ e ∈ entries, isClarityName e.1 = true ∧ ∀ p, StandsAt (wireValue e.2) inp p →
      ∃ nodes, Inverts inp mem cap levels d p e.2 nodes)
    (hasc : keysAscending entries = true) {seen : List Bytes}
    (hseen : ∀ key ∈ seen, ∀ e ∈ entries, bytesLt key e.1 = true)
    {p : Nat} (h : StandsAt (wireEntries entries) inp p) :
    ∃ nodes, decodeEntries inp (fun p => decodeValue inp levels d p) entries.length seen p =
        .ok (nodes, p + (wireEntries entries).length) ∧
      ∀ rs k m, (∀ r ∈ m, ∀ e ∈ entries, bytesLt r.1 e.1 = true) →
        StandsAt (nodes.map (emitNode cap)) rs k →
        rebuildEntries mem rs (fun j => rebuild mem rs levels j) entries.length k m =
          some (m ++ entries, k + nodes.length) := by
  induction entries generalizing p seen with
  | nil => exact ⟨[], rfl, fun _ _ m _ _ => by simp [rebuildEntries]⟩
  | cons e entries ih =>
    obtain ⟨key, v⟩ := e
    obtain ⟨⟨hname, hv⟩, hrest⟩ := List.forall_mem_cons.1 hentries
    obtain ⟨habove, hasc⟩ : (∀ e ∈ entries, bytesLt key e.1 = true) ∧
        keysAscending entries = true := by simpa [keysAscending] using hasc
    have hwire : wireEntries ((key, v) :: entries) =
        wireName key ++ (wireValue v ++ wireEntries entries) := by
      rw [wireEntries, wireEntry, List.append_assoc]
    have hwireName : (wireName key).length = 1 + key.length := Nat.add_comm _ _
    rw [hwire] at h
    have hkey := h.left
    have hvalue := h.right
    rw [hwireName, ← Nat.add_assoc] at hvalue
    have hnew : key ∉ seen := fun hmem => by
      have := hseen key hmem _ List.mem_cons_self
      simp [bytesLt_irrefl] at this
    obtain ⟨ns, hns⟩ := hv _ hvalue.left
    obtain ⟨rest, hdecode, hrebuild⟩ := ih hrest hasc (seen := key :: seen)
      (List.forall_mem_cons.2 ⟨habove, fun k hk e he => hseen k hk e (List.mem_cons_of_mem _ he)⟩)
      hvalue.right
    refine ⟨setKey (p + 1, key.length) ns ++ rest, ?_, fun rs k m hm hrs => ?_⟩
    · rw [List.length_cons, decodeEntries_cons hkey hname hnew hns.decodes, hdecode, hwire,
        List.length_append, List.length_append, hwireName]
      simp only [Except.map, Nat.add_assoc]
    · rw [List.map_append] at hrs
      have htail := hrs.right
      rw [List.length_map, setKey_length] at htail
      have hkeyLe := hkey.le
      rw [hwireName] at hkeyLe
      obtain ⟨_, hkeyLen⟩ : 1 ≤ key.length ∧ key.length ≤ 128 := length_of_isClarityName hname
      obtain ⟨hvalueRebuild, x, hx, hoff, hbyte⟩ :=
        hns.rebuild_entry (key := (p + 1, key.length)) (by simp only; omega) hrs.left
      have hsize : (x.getD 3 0).toNat = key.length := by
        rw [hbyte, BitVec.toNat_ofNat, Nat.mod_eq_of_lt (by omega)]
      have hbytes : bytesAt mem (recordField x 4) (x.getD 3 0).toNat = key := by
        rw [hoff, hsize]
        exact hkey.tail.bytesAt_eq hmem
      have hput : putEntry key v m = m ++ [(key, v)] :=
        putEntry_append v fun r hr => hm r hr _ List.mem_cons_self
      have hm' : ∀ r ∈ m ++ [(key, v)], ∀ e ∈ entries, bytesLt r.1 e.1 = true :=
        List.forall_mem_append.2 ⟨fun r hr e he => hm r hr e (List.mem_cons_of_mem _ he),
          fun r hr => by rw [List.mem_singleton.1 hr]; exact habove⟩
      simp only [List.length_cons, rebuildEntries, hx, hvalueRebuild, hbytes, hput,
        hrebuild rs _ _ hm' htail, List.length_append, setKey_length, Nat.add_assoc,
        List.append_assoc, List.singleton_append]

end Children

/-! ### What fits, part by part -/

theorem fitsItems_iff (levels : Nat) (items : List Value) :
    fitsItems levels items = true ↔ ∀ v ∈ items, fitsWire levels v = true := by
  induction items with
  | nil => simp [fitsItems]
  | cons v items ih => simp [fitsItems, ih]

theorem fitsEntries_iff (levels : Nat) (entries : List (Bytes × Value)) :
    fitsEntries levels entries = true ↔
      ∀ e ∈ entries, isClarityName e.1 = true ∧ fitsWire levels e.2 = true := by
  induction entries with
  | nil => simp [fitsEntries]
  | cons e entries ih =>
    obtain ⟨key, v⟩ := e
    rw [fitsEntries, fitsEntry, Bool.and_eq_true, Bool.and_eq_true, ih, List.forall_mem_cons]

theorem length_wireInt (i : Int) : (wireInt i).length = 16 := beField_length 16 _

/-! ### Values -/

section Values
variable {inp : Bytes} {mem : Nat → Byte} {cap : Bool} {levels d p : Nat} {v : Value}

/-- A value is inverted where its payload decodes and its record rebuilds. -/
theorem exists_inverts_of_payload {b : Byte} {w : Bytes} {t : TypePrefix} {payload : Payload}
    {children : List Node} {q : Nat} (h : StandsAt (b :: w) inp p) (hwire : wireValue v = b :: w)
    (ht : typePrefixOf b = some t)
    (hpayload : PayloadDecodes inp (fun p => decodeValue inp levels (d + 1) p) (p + 1) t payload
      children q)
    (hq : q = p + (w.length + 1))
    (hrebuild : ∀ rs x k, Describes x ⟨t, d, none, p, q, payload⟩ →
      StandsAt (children.map (emitNode cap)) rs (k + 1) →
      rebuildRecord mem rs (fun j => rebuild mem rs levels j) t x k =
        some (v, k + 1 + children.length)) :
    ∃ nodes, Inverts inp mem cap (levels + 1) d p v nodes := by
  refine ⟨⟨t, d, none, p, q, payload⟩ :: children, ?_, fun rs k hrs => ?_⟩
  · rw [decodeValue_of_payload h.getElem? ht hpayload, hq, hwire, List.length_cons]
  · obtain ⟨⟨x, hx, hdescribes⟩, hchildren⟩ := hrs
    simp only [rebuild, hx, hdescribes.tag, typePrefixOf_byte,
      hrebuild rs x k hdescribes hchildren, List.length_cons, Nat.add_assoc, Nat.add_comm 1]

/-- Data behind its length is located by its record. -/
theorem Describes.bytesAt_data {x : Bytes} {node : Node} (hx : Describes x node)
    (hlen : inp.length ≤ 2 ^ 24) (hmem : HoldsInput mem inp) {data rest : Bytes} {off : Nat}
    (h : StandsAt data inp off)
    (hemit : emitPayload node.payload = beField 4 data.length ++ (beField 4 off ++ rest)) :
    bytesAt mem (recordField x 20) (recordField x 16) = data := by
  have hle := h.le
  have hsize := hx.field (w := []) hemit (by decide) (by omega)
  have hoff := hx.field (w := beField 4 data.length) hemit (by simp) (by omega)
  rw [beField_length] at hoff
  rw [hoff, show recordField x 16 = data.length from hsize, h.bytesAt_eq hmem]

theorem exists_inverts_int {i : Int} (hlow : -(2 ^ 63) ≤ i) (hhigh : i < 2 ^ 63)
    (h : StandsAt (wireValue (.int i)) inp p) :
    ∃ nodes, Inverts inp mem cap (levels + 1) d p (.int i) nodes := by
  rw [wireValue] at h
  refine exists_inverts_of_payload h (by rw [wireValue]) rfl
    (h.tail.integer (length_wireInt i) (.inl rfl)) (by rw [length_wireInt]) fun rs x k hx _ => ?_
  rw [rebuildRecord, hx.low_half rfl, s64_of_wireInt hlow hhigh]
  rfl

theorem exists_inverts_uint {u : Nat} (hu : u < 2 ^ 64) (h : StandsAt (wireValue (.uint u)) inp p) :
    ∃ nodes, Inverts inp mem cap (levels + 1) d p (.uint u) nodes := by
  rw [wireValue] at h
  refine exists_inverts_of_payload h (by rw [wireValue]) rfl
    (h.tail.integer (beField_length 16 u) (.inr rfl)) (by rw [beField_length]) fun rs x k hx _ => ?_
  rw [rebuildRecord, hx.low_half rfl, Nat.mod_eq_of_lt hu]
  rfl

/-- A Bool and the absent optional are their type byte alone. -/
theorem exists_inverts_empty {b : Byte} {t : TypePrefix} (h : StandsAt (wireValue v) inp p)
    (hwire : wireValue v = [b]) (ht : typePrefixOf b = some t)
    (hempty : t = .boolTrue ∨ t = .boolFalse ∨ t = .optionalNone)
    (hrebuild : ∀ rs sub x k, rebuildRecord mem rs sub t x k = some (v, k + 1)) :
    ∃ nodes, Inverts inp mem cap (levels + 1) d p v nodes :=
  exists_inverts_of_payload (hwire ▸ h) hwire ht (.empty hempty) rfl
    fun rs x k _ _ => hrebuild rs _ x k

/-- A wrapper is its type byte and its child's wire form. -/
theorem exists_inverts_wrapper {b : Byte} {t : TypePrefix} {w : Value} {f : Value → Value}
    (h : StandsAt (wireValue (f w)) inp p) (hwire : wireValue (f w) = b :: wireValue w)
    (ht : typePrefixOf b = some t)
    (hwrapper : t = .responseOk ∨ t = .responseErr ∨ t = .optionalSome)
    (hrebuild : ∀ rs sub x k,
      rebuildRecord mem rs sub t x k = (sub (k + 1)).map fun r => (f r.1, r.2))
    (hchild : ∀ p, StandsAt (wireValue w) inp p →
      ∃ nodes, Inverts inp mem cap levels (d + 1) p w nodes) :
    ∃ nodes, Inverts inp mem cap (levels + 1) d p (f w) nodes := by
  rw [hwire] at h
  obtain ⟨nodes, hnodes⟩ := hchild _ h.tail
  refine exists_inverts_of_payload h hwire ht (.wrapped hwrapper hnodes.decodes) (by omega)
    fun rs x k _ hrs => ?_
  rw [hrebuild, hnodes.rebuild_eq hrs]
  rfl

section InMemory
variable (hlen : inp.length ≤ 2 ^ 24) (hmem : HoldsInput mem inp)
include hlen hmem

/-- A Buffer and an ASCII string are a length and the data. -/
theorem exists_inverts_data {b : Byte} {t : TypePrefix} {data : Bytes} {f : Bytes → Value}
    (h : StandsAt (wireValue (f data)) inp p)
    (hwire : wireValue (f data) = b :: (beField 4 data.length ++ data))
    (ht : typePrefixOf b = some t) (hcounted : t = .buffer ∨ t = .stringAscii)
    (hrebuild : ∀ rs sub x k, rebuildRecord mem rs sub t x k =
      some (f (bytesAt mem (recordField x 20) (recordField x 16)), k + 1))
    (hsize : data.length ≤ maxDecl) :
    ∃ nodes, Inverts inp mem cap (levels + 1) d p (f data) nodes := by
  rw [hwire] at h
  have hdata : StandsAt data inp (p + 1 + 4) := by simpa using h.tail.right
  refine exists_inverts_of_payload h hwire ht (h.tail.counted hsize hcounted)
    (by rw [List.length_append, beField_length]; omega) fun rs x k hx _ => ?_
  rw [hrebuild, hx.bytesAt_data hlen hmem hdata (List.append_assoc _ _ _)]
  rfl

theorem exists_inverts_stringUtf8 {groups : List Bytes} (hgroups : groups.all isScalar = true)
    (hsize : groups.flatten.length ≤ maxDecl)
    (h : StandsAt (wireValue (.stringUtf8 groups)) inp p) :
    ∃ nodes, Inverts inp mem cap (levels + 1) d p (.stringUtf8 groups) nodes := by
  rw [wireValue] at h
  have hdata : StandsAt groups.flatten inp (p + 1 + 4) := by simpa using h.tail.right
  refine exists_inverts_of_payload h (by rw [wireValue]) rfl
    (h.tail.utf8 hsize (utf8Split_flatten hgroups))
    (by rw [List.length_append, beField_length]; omega) fun rs x k hx _ => ?_
  have hbytes := hx.bytesAt_data hlen hmem hdata
    (by simp only [emitPayload, List.append_assoc]; rfl)
  simp only [rebuildRecord, hbytes, utf8Split_flatten hgroups, List.length_nil, Nat.add_zero]

theorem exists_inverts_standardPrincipal {version : Byte} {hash : Bytes}
    (hhash : hash.length = principalHashLen)
    (h : StandsAt (wireValue (.standardPrincipal version hash)) inp p) :
    ∃ nodes, Inverts inp mem cap (levels + 1) d p (.standardPrincipal version hash) nodes := by
  rw [wireValue] at h
  have hle := h.le
  simp only [List.length_cons] at hle
  refine exists_inverts_of_payload h (by rw [wireValue]) rfl (h.tail.principal hhash)
    (by rw [List.length_cons, hhash]; rfl) fun rs x k hx _ => ?_
  have hversion : x.getD 16 0 = version := hx.byte (i := 0) (by decide)
  have hoff : recordField x 20 = p + 1 + 1 :=
    hx.field (w := [version, 0, 0, 0]) (List.append_assoc _ _ _) (by simp) (by omega)
  have hbytes : bytesAt mem (p + 1 + 1) principalHashLen = hash :=
    hhash ▸ h.tail.tail.bytesAt_eq hmem
  rw [rebuildRecord, hversion, hoff, hbytes]
  rfl

theorem exists_inverts_contractPrincipal {version : Byte} {hash name : Bytes}
    (hhash : hash.length = principalHashLen) (hname : isClarityName name = true)
    (h : StandsAt (wireValue (.contractPrincipal version hash name)) inp p) :
    ∃ nodes, Inverts inp mem cap (levels + 1) d p (.contractPrincipal version hash name) nodes := by
  rw [wireValue] at h
  have hle := h.le
  have hwireName : (wireName name).length = 1 + name.length := Nat.add_comm _ _
  simp only [List.length_cons, List.length_append, hhash, hwireName, principalHashLen] at hle
  obtain ⟨_, hnameLen⟩ := length_of_isClarityName hname
  have hfield : StandsAt name inp (p + 1 + 22) := by
    have hright := h.tail.tail.right.tail
    rwa [hhash] at hright
  refine exists_inverts_of_payload h (by rw [wireValue]) rfl (h.tail.contract hhash hname)
    (by simp only [List.length_cons, List.length_append, hhash, hwireName, principalHashLen]; omega)
    fun rs x k hx _ => ?_
  have hversion : x.getD 16 0 = version := hx.byte (i := 0) (by decide)
  have hsize : (x.getD 17 0).toNat = name.length := by
    have hbyte : x.getD 17 0 = BitVec.ofNat 8 name.length := hx.byte (i := 1) (by decide)
    rw [hbyte, BitVec.toNat_ofNat, Nat.mod_eq_of_lt (by omega)]
  have hoff : recordField x 20 = p + 1 + 1 :=
    hx.field (w := [version, BitVec.ofNat 8 name.length, 0, 0])
      (by simp only [emitPayload, List.append_assoc]; rfl) (by simp) (by omega)
  have hnameOff : recordField x 24 = p + 1 + 22 :=
    hx.field (w := [version, BitVec.ofNat 8 name.length, 0, 0] ++ beField 4 (p + 1 + 1))
      (List.append_assoc _ _ _) (by simp) (by omega)
  have hbytes : bytesAt mem (p + 1 + 1) principalHashLen = hash :=
    hhash ▸ h.tail.tail.left.bytesAt_eq hmem
  rw [rebuildRecord, hversion, hoff, hbytes, hnameOff, hsize, hfield.bytesAt_eq hmem]
  rfl

variable (hchild : ∀ w, 0 < levels → fitsWire (levels - 1) w = true → ∀ p,
  StandsAt (wireValue w) inp p → ∃ nodes, Inverts inp mem cap levels (d + 1) p w nodes)
include hchild

omit hlen hmem in
theorem exists_inverts_list {items : List Value} (hfits : fitsWire levels (.list items) = true)
    (h : StandsAt (wireValue (.list items)) inp p) :
    ∃ nodes, Inverts inp mem cap (levels + 1) d p (.list items) nodes := by
  rw [wireValue] at h
  simp only [fitsWire, Bool.and_eq_true, Bool.or_eq_true, decide_eq_true_eq, fitsItems_iff] at hfits
  obtain ⟨⟨hcount, hlevel⟩, hitems⟩ := hfits
  have hparts : StandsAt (wireItems items) inp (p + 1 + 4) := by simpa using h.tail.right
  obtain ⟨nodes, hdecode, hrebuild⟩ := exists_inverts_items (cap := cap) (fun v hv p =>
    hchild v (hlevel.resolve_left fun he => by simp_all) (hitems v hv) p) hparts
  refine exists_inverts_of_payload h (by rw [wireValue]) rfl
    (.list (h.tail.left.readSize_eq hcount) hdecode)
    (by rw [List.length_append, beField_length]; omega) fun rs x k hx hrs => ?_
  rw [rebuildRecord, hx.recordField_count rfl hcount, hrebuild rs _ hrs]
  rfl

theorem exists_inverts_tuple {entries : List (Bytes × Value)}
    (hfits : fitsWire levels (.tuple entries) = true)
    (h : StandsAt (wireValue (.tuple entries)) inp p) :
    ∃ nodes, Inverts inp mem cap (levels + 1) d p (.tuple entries) nodes := by
  rw [wireValue] at h
  simp only [fitsWire, Bool.and_eq_true, Bool.or_eq_true, decide_eq_true_eq, fitsEntries_iff]
    at hfits
  obtain ⟨⟨⟨hcount, hlevel⟩, hasc⟩, hentries⟩ := hfits
  have hparts : StandsAt (wireEntries entries) inp (p + 1 + 4) := by simpa using h.tail.right
  have hinverts : ∀ e ∈ entries, isClarityName e.1 = true ∧ ∀ p, StandsAt (wireValue e.2) inp p →
      ∃ nodes, Inverts inp mem cap levels (d + 1) p e.2 nodes := fun e he => by
    obtain ⟨hname, hvalue⟩ := hentries e he
    exact ⟨hname, hchild e.2 (hlevel.resolve_left fun hempty => by simp_all) hvalue⟩
  obtain ⟨nodes, hdecode, hrebuild⟩ := exists_inverts_entries hlen hmem hinverts hasc
    (seen := []) (fun _ hk => nomatch hk) hparts
  refine exists_inverts_of_payload h (by rw [wireValue]) rfl
    (.tuple (h.tail.left.readSize_eq hcount) hdecode)
    (by rw [List.length_append, beField_length]; omega) fun rs x k hx hrs => ?_
  rw [rebuildRecord, hx.recordField_count rfl hcount,
    hrebuild rs _ [] (fun _ hr => nomatch hr) hrs]
  rfl

/-- One level of the induction. -/
theorem exists_inverts_step (hfits : fitsWire levels v = true) (h : StandsAt (wireValue v) inp p) :
    ∃ nodes, Inverts inp mem cap (levels + 1) d p v nodes := by
  have hwrapped {w : Value} (hw : (decide (0 < levels) && fitsWire (levels - 1) w) = true) :=
    hchild w (of_decide_eq_true (Bool.and_eq_true_iff.1 hw).1) (Bool.and_eq_true_iff.1 hw).2
  cases v with
  | int i =>
    obtain ⟨hlow, hhigh⟩ : -(2 ^ 63) ≤ i ∧ i < 2 ^ 63 := by simpa [fitsWire] using hfits
    exact exists_inverts_int hlow hhigh h
  | uint u => exact exists_inverts_uint (by simpa [fitsWire] using hfits) h
  | buffer data =>
    exact exists_inverts_data (f := .buffer) hlen hmem h (by rw [wireValue]) rfl (.inl rfl)
      (fun _ _ _ _ => rfl) (by simpa [fitsWire] using hfits)
  | stringAscii data =>
    exact exists_inverts_data (f := .stringAscii) hlen hmem h (by rw [wireValue]) rfl (.inr rfl)
      (fun _ _ _ _ => rfl) (by simpa [fitsWire] using hfits)
  | stringUtf8 groups =>
    simp only [fitsWire, Bool.and_eq_true, decide_eq_true_eq] at hfits
    exact exists_inverts_stringUtf8 hlen hmem hfits.2 hfits.1 h
  | boolTrue =>
    exact exists_inverts_empty h (by rw [wireValue]) rfl (.inl rfl) fun _ _ _ _ => rfl
  | boolFalse =>
    exact exists_inverts_empty h (by rw [wireValue]) rfl (.inr (.inl rfl)) fun _ _ _ _ => rfl
  | optionalNone =>
    exact exists_inverts_empty h (by rw [wireValue]) rfl (.inr (.inr rfl)) fun _ _ _ _ => rfl
  | standardPrincipal version hash =>
    exact exists_inverts_standardPrincipal hlen hmem (by simpa [fitsWire] using hfits) h
  | contractPrincipal version hash name =>
    simp only [fitsWire, Bool.and_eq_true, beq_iff_eq] at hfits
    exact exists_inverts_contractPrincipal hlen hmem hfits.1 hfits.2 h
  | responseOk w =>
    exact exists_inverts_wrapper (f := .responseOk) h (by rw [wireValue]) rfl (.inl rfl)
      (fun _ _ _ _ => rfl) (hwrapped (by rwa [fitsWire] at hfits))
  | responseErr w =>
    exact exists_inverts_wrapper (f := .responseErr) h (by rw [wireValue]) rfl (.inr (.inl rfl))
      (fun _ _ _ _ => rfl) (hwrapped (by rwa [fitsWire] at hfits))
  | optionalSome w =>
    exact exists_inverts_wrapper (f := .optionalSome) h (by rw [wireValue]) rfl (.inr (.inr rfl))
      (fun _ _ _ _ => rfl) (hwrapped (by rwa [fitsWire] at hfits))
  | list items => exact exists_inverts_list hchild hfits h
  | tuple entries => exact exists_inverts_tuple hlen hmem hchild hfits h

end InMemory

end Values

/-- Every value that fits the levels is inverted wherever its wire form stands. -/
theorem exists_inverts {inp : Bytes} {mem : Nat → Byte} (cap : Bool) (hlen : inp.length ≤ 2 ^ 24)
    (hmem : HoldsInput mem inp) {levels : Nat} (d : Nat) {p : Nat} {v : Value}
    (hfits : fitsWire levels v = true) (h : StandsAt (wireValue v) inp p) :
    ∃ nodes, Inverts inp mem cap (levels + 1) d p v nodes := by
  induction levels generalizing d p v with
  | zero => exact exists_inverts_step hlen hmem (fun _ hlevel => absurd hlevel (by decide)) hfits h
  | succ levels ih =>
    exact exists_inverts_step hlen hmem (fun _ _ hw _ hstands => ih (d + 1) hw hstands) hfits h

/-- Settles O52: at the top, with sixteen levels below it. -/
theorem decodingInvertsTheWireFormat : Obligations.DecodingInvertsTheWireFormat := by
  intro v pre post cap hfits hlen
  have hmem : HoldsInput (fun a => (pre ++ wireValue v ++ post).getD a 0)
      (pre ++ wireValue v ++ post) := fun a ha => (some_getD_of_lt ha).symm
  obtain ⟨nodes, hnodes⟩ :=
    exists_inverts cap hlen hmem 0 hfits (standsAt_append pre (wireValue v) post)
  have hrecords : StandsAt (nodes.map (emitNode cap)) (nodes.map (emitNode cap)) 0 :=
    ⟨[], [], by simp, rfl⟩
  exact ⟨nodes, hnodes.decodes, by simpa using hnodes.rebuild_eq hrecords⟩

end Sys2Proof.Machine
end
